-- ==== Sys2Proof/Word.lean ====
section
/-! DEFINITION. The word types of ENC-CORE (00_scope.md R9, R10): the 32-bit bus word, the byte lane, the 20-bit bus
address. Bits are numbered from 0 at the least significant bit, as BitVec numbers them. -/

namespace Sys2Proof

/-- A 32-bit bus data word (R9): a symbol, a count, a frequency or a register as the bus carries it. -/
abbrev Word := BitVec 32

/-- One byte lane of a bus word (20_memory.md R99). -/
abbrev Byte := BitVec 8

/-- A block-relative bus byte address (R9; 20_memory.md R90: 2^20 byte addresses). -/
abbrev BusAddr := BitVec 20

end Sys2Proof
end

