-- ==== Sys2Proof/Syntax.lean ====
section
/-! DEFINITION. The command set of ENC-CORE: one constructor per row of spec/opcode_table.json (30_encoding.md R131).
No command word carries an operand (R134); the modifier bits CONT and ACC are the only fields. -/

namespace Sys2Proof

/-- The eight commands of 30_encoding.md R131. -/
inductive Instr where
  /-- NOP (40_cipher.md R161). -/
  | nop
  /-- ENCC, Caesar encode (40_cipher.md R162). -/
  | encc
  /-- DECC, Caesar decode (40_cipher.md R163). -/
  | decc
  /-- ENCV, Vigenère encode; `cont` is the CONT bit (40_cipher.md R164). -/
  | encv (cont : Bool)
  /-- DECV, Vigenère decode; `cont` is the CONT bit (40_cipher.md R165). -/
  | decv (cont : Bool)
  /-- TRAIN; `acc` is the ACC bit (41_train.md R202). -/
  | train (acc : Bool)
  /-- SEARCH (42_keysearch.md R236). -/
  | search
  /-- HACK (42_keysearch.md R240). -/
  | hack
deriving DecidableEq, Repr

end Sys2Proof
end

