-- ==== Sys2Proof/Decode.lean ====
section
/-! DEFINITION. The command word (30_encoding.md R130, R131, R133): its fields, the decoder, total on every word and
rejecting by name, the opcode table as rows of match and mask, and the encoder. -/

namespace Sys2Proof

/-- OP, bits [3:0] of a command word (R130). -/
def opField (w : Word) : BitVec 4 := w.extractLsb' 0 4

/-- CIPHER, bit [4] (R130). -/
def cipherBit (w : Word) : Bool := w.getLsbD 4

/-- CONT, bit [5] (R130). -/
def contBit (w : Word) : Bool := w.getLsbD 5

/-- ACC, bit [6] (R130). -/
def accBit (w : Word) : Bool := w.getLsbD 6

/-- The reserved bits [31:7] (R130). -/
def reservedField (w : Word) : BitVec 25 := w.extractLsb' 7 25

/-- Why a command word is illegal: the cases R133 lists. The hardware reports all of them as ILLEGAL_CMD. -/
inductive Reject where
  /-- A set bit in [31:7]. -/
  | reservedBits
  /-- OP = 6..15. -/
  | reservedOp
  /-- CIPHER = 1 with OP not in 1, 2. -/
  | cipherBitMisplaced
  /-- CONT = 1 unless OP in 1, 2 and CIPHER = 1. -/
  | contBitMisplaced
  /-- ACC = 1 with OP other than 3. -/
  | accBitMisplaced
deriving DecidableEq, Repr

/-- The command a word selects, or why it is illegal (R131, R133). Total on every 32-bit word. -/
def decode (w : Word) : Except Reject Instr :=
  let isCipherOp := opField w == 1 || opField w == 2
  if reservedField w ≠ 0 then .error .reservedBits
  else if cipherBit w && !isCipherOp then .error .cipherBitMisplaced
  else if contBit w && !(isCipherOp && cipherBit w) then .error .contBitMisplaced
  else if accBit w && opField w != 3 then .error .accBitMisplaced
  else
    match (opField w).toNat with
    | 0 => .ok .nop
    | 1 => if cipherBit w then .ok (.encv (contBit w)) else .ok .encc
    | 2 => if cipherBit w then .ok (.decv (contBit w)) else .ok .decc
    | 3 => .ok (.train (accBit w))
    | 4 => .ok .search
    | 5 => .ok .hack
    | _ => .error .reservedOp

/-- The command word of a command: enc(M) of 30_encoding.md R137, from the table of R131. -/
def encode : Instr → Word
  | .nop => 0x00
  | .encc => 0x01
  | .decc => 0x02
  | .encv false => 0x11
  | .encv true => 0x31
  | .decv false => 0x12
  | .decv true => 0x32
  | .train false => 0x03
  | .train true => 0x43
  | .search => 0x04
  | .hack => 0x05

/-- A row of the opcode table of R131: a word w selects it when `w &&& mask = pattern`. -/
structure OpcodeRow where
  /-- The match column. -/
  pattern : Word
  /-- The mask column. -/
  mask : Word
deriving DecidableEq, Repr

/-- The row of R131 that a command belongs to. -/
def Instr.row : Instr → OpcodeRow
  | .nop => { pattern := 0x00000000, mask := 0xFFFFFFFF }
  | .encc => { pattern := 0x00000001, mask := 0xFFFFFFFF }
  | .decc => { pattern := 0x00000002, mask := 0xFFFFFFFF }
  | .encv _ => { pattern := 0x00000011, mask := 0xFFFFFFDF }
  | .decv _ => { pattern := 0x00000012, mask := 0xFFFFFFDF }
  | .train _ => { pattern := 0x00000003, mask := 0xFFFFFFBF }
  | .search => { pattern := 0x00000004, mask := 0xFFFFFFFF }
  | .hack => { pattern := 0x00000005, mask := 0xFFFFFFFF }

/-- A word selects a row of the table (R131). -/
def OpcodeRow.selects (r : OpcodeRow) (w : Word) : Bool := w &&& r.mask == r.pattern

/-- What the decoder reads from the `nbits` low bits of `w`, as spec/opcode_table.json numbers them: one 32-bit word
(R130), the bits above `nbits` zero. -/
def decodeTableWord (nbits w : Nat) : Option Instr :=
  match decode (BitVec.ofNat 32 (w % 2 ^ nbits)) with
  | .ok i => some i
  | .error _ => none

end Sys2Proof
end

