-- ==== Sys2Proof/Config.lean ====
section
/-! DEFINITION. The implementation parameters of ENC-CORE (00_scope.md R8) and the constants of the instance
(00_scope.md R7, R9; 10_state.md R31, R32). -/

namespace Sys2Proof

/-- The four array depths, the implementation parameters of 00_scope.md R8. -/
structure Config where
  /-- TEXT_DEPTH: entries of the TEXT array. -/
  textDepth : Nat
  /-- KEY_DEPTH: entries of the KEY array. -/
  keyDepth : Nat
  /-- REF_DEPTH: entries of the REF array. -/
  refDepth : Nat
  /-- HIST_DEPTH: entries of the HIST array. -/
  histDepth : Nat
deriving DecidableEq, Repr

/-- The values R8 states for this hardware. -/
def Config.encCore : Config :=
  { textDepth := 4096, keyDepth := 256, refDepth := 256, histDepth := 256 }

/-- ID, the word 0x454E_4331 (10_state.md R31). -/
def idWord : Word := 0x454E4331

/-- VERSION, the command-set version 1 (10_state.md R31, 00_scope.md R3). -/
def versionWord : Word := 1

/-- ALPHA_N as the bus reads it: N = 26, the alphabet half-size (00_scope.md R7, 10_state.md R32). -/
def alphaNWord : Word := 26

/-- The largest legal symbol, 0x10FFFF (00_scope.md R9). -/
def maxSymbol : Word := 0x10FFFF

/-- The largest legal frequency, 1.0 in Q1.31 (41_train.md R205). -/
def maxFreq : Word := 0x80000000

/-- The largest value of TOTAL, 2^32 - 1 (10_state.md R46). -/
def maxTotal : Word := 0xFFFFFFFF

end Sys2Proof
end

