-- ==== Sys2Proof/Machine/State.lean ====
section
/-! DEFINITION. The state of ENC-CORE as plain data (10_state.md R65, R50, R51), the host's inputs and the bus responses
that the model carries beside it, the reasons a step can stop, and the state after reset (70_reset_and_hazards.md R340,
R341). -/

namespace Sys2Proof.Machine

/-- The thirteen error codes of 60_exceptions.md R301; a reserved code cannot be written down
(93_implementation_defined.md U8). -/
inductive ErrCode where
  | illegalCmd
  | keyEmpty
  | keyLenRange
  | keySymbol
  | keyCursor
  | modelLenRange
  | modelSymbol
  | modelFreq
  | modelDuplicate
  | inputLenRange
  | inputSymbol
  | capacityHist
  | capacityTotal
deriving DecidableEq, Repr

/-- One valid entry of the HIST array (10_state.md R63). -/
structure HistEntry where
  /-- HIST[j].SYM. -/
  sym : Word
  /-- HIST[j].COUNT. -/
  count : Word
deriving DecidableEq, Repr

/-- A word of the three RAM arrays, TEXT, KEY and REF (10_state.md R60 to R62). -/
inductive RamWord where
  /-- TEXT[i]. -/
  | text (i : Nat)
  /-- KEY[j]. -/
  | key (j : Nat)
  /-- REF[j].SYM. -/
  | refSym (j : Nat)
  /-- REF[j].FREQ. -/
  | refFreq (j : Nat)
deriving DecidableEq, Repr

/-- The contents of the RAM arrays: (block-relative byte address, byte) cells, addresses strictly rising. A byte that is
not listed has not been written since reset (R51) and reads as no value. -/
abbrev Memory := List Host.Cell

/-- What happens next: a host transaction, the engine's turn, or reset (00_scope.md R14). `bytes` is the access width of
`MemRead(a, bytes)` and `MemWrite(a, bytes, v)` (20_memory.md R95 to R97). -/
inductive Input where
  /-- A host read of `bytes` bytes at address `a`. -/
  | read (bytes : Nat) (a : BusAddr)
  /-- A host write of the value `v`, `bytes` bytes wide, at address `a`. -/
  | write (bytes : Nat) (a : BusAddr) (v : Word)
  /-- The engine's completion step, if a command is in flight (60_exceptions.md R300). -/
  | engine
  /-- rst_n pulsed low (70_reset_and_hazards.md R340). -/
  | reset
deriving DecidableEq, Repr

/-- An OKAY response on the bus (20_memory.md R95, R96). -/
inductive Response where
  /-- OKAY to a read, with the value read. -/
  | readOkay (v : Word)
  /-- OKAY to a write. -/
  | writeOkay
deriving DecidableEq, Repr

/-- The machine's state: the registers and arrays of 10_state.md R65, the configuration, and the model's own inputs and
responses. -/
structure State where
  /-- The array depths of this instance (00_scope.md R8); nothing changes them. -/
  cfg : Config
  /-- CKEY (R40). -/
  ckey : Word
  /-- LEN (R41). -/
  len : BitVec 17
  /-- KEY_LEN (R42). -/
  keyLen : BitVec 11
  /-- KCUR (R43). -/
  kcur : BitVec 10
  /-- REF_LEN (R44). -/
  refLen : BitVec 11
  /-- HIST[0..HIST_LEN-1], the valid entries (R63). HIST_LEN (R45) is the length of this list: `State.histLen`. -/
  hist : List HistEntry
  /-- TOTAL (R46). -/
  total : Word
  /-- BEST_KEY (R47). -/
  bestKey : BitVec 5
  /-- BEST_SCORE (R48). -/
  bestScore : BitVec 80
  /-- SCORE[0..25] (R64). -/
  score : Vector (BitVec 80) 26
  /-- PEND, the command word in flight (R50); present exactly while STATUS.BUSY = 1 (93_implementation_defined.md U2). -/
  pend : Option Word
  /-- STATUS.DONE (R36). -/
  done : Bool
  /-- STATUS.ERR (R36). -/
  err : Bool
  /-- STATUS.ERR_CODE (R36); `none` is 0x00. -/
  errCode : Option ErrCode
  /-- ERR_INFO (R39). -/
  errInfo : Word
  /-- IRQ_EN.DONE_IE (R38). -/
  doneIe : Bool
  /-- IRQ_EN.ERR_IE (R38). -/
  errIe : Bool
  /-- The words of TEXT, KEY and REF written since reset (R51, R60 to R62). -/
  mem : Memory
  /-- The model's own field: what happens next, oldest first. -/
  inputs : List Input
  /-- The model's own field: the bus responses given so far, newest first (00_scope.md R16). -/
  responses : List Response
deriving DecidableEq, Repr

/-- Why a transaction gets an ERROR response (20_memory.md R95 to R98, 70_reset_and_hazards.md R350). -/
inductive BusError where
  /-- The access is not 32 bits wide (R97). -/
  | width
  /-- The address is not a multiple of 4 (R98). -/
  | misaligned
  /-- The address is unmapped (R94). -/
  | unmapped
  /-- The busy rule forbids the access (R350). -/
  | busy
deriving DecidableEq, Repr

/-- The reasons a step stops with a fault. -/
inductive Fault where
  /-- A host transaction got an ERROR response: a fault of the host program (00_scope.md R15, 20_memory.md R100). Raised by
  the step of a host read or write. Safe: the hardware goes on with its state unchanged, the model stops. -/
  | busError (why : BusError)
  /-- A TEXT, KEY or REF word that nothing has written since reset was read (10_state.md R51,
  93_implementation_defined.md U1). Raised by a command's completion step and by a host read. Safe: the hardware reads
  whatever its RAM holds, the model stops. -/
  | unwrittenRead (w : RamWord)
deriving DecidableEq, Repr

/-- The reasons a step is refused. -/
inductive Refusal where
  /-- Raised by an arm of `exec` that has no meaning. Safe. No arm of this model raises it. -/
  | notModelled (mnemonic : String)
deriving DecidableEq, Repr

/-- The machine right after reset (R340, R341, R65): every register and score 0, no entry of HIST valid, no command in
flight, nothing in TEXT, KEY or REF written, the depths as 00_scope.md R8 states them for this hardware. -/
def State.reset : State where
  cfg := Config.encCore
  ckey := 0
  len := 0
  keyLen := 0
  kcur := 0
  refLen := 0
  hist := []
  total := 0
  bestKey := 0
  bestScore := 0
  score := Vector.replicate 26 0
  pend := none
  done := false
  err := false
  errCode := none
  errInfo := 0
  doneIe := false
  errIe := false
  mem := []
  inputs := []
  responses := []

end Sys2Proof.Machine
end

