-- ==== Sys2Proof/Machine/Ops.lean ====
section
/-! DEFINITION. The operations the commands and the bus share: the RAM arrays by byte and by word, the completion of a
command with and without an error (60_exceptions.md R300, R302, R320), the acknowledgement of an error (R321), and
reset (70_reset_and_hazards.md R340). -/

namespace Sys2Proof.Machine

/-- The byte at an address, if it was written since reset. -/
def Memory.readByte : Memory → Nat → Option Byte
  | [], _ => none
  | (k, b) :: rest, a => if k = a then some b else Memory.readByte rest a

/-- Write one byte, keeping addresses strictly rising. -/
def Memory.writeByte : Memory → Nat → Byte → Memory
  | [], a, v => [(a, v)]
  | (k, b) :: rest, a, v =>
    if a < k then (a, v) :: (k, b) :: rest
    else if a = k then (a, v) :: rest
    else (k, b) :: Memory.writeByte rest a v

/-- The canonical form: addresses strictly rising. (An unlisted byte reads as no value, so every listed byte differs from
what an unlisted one reads as.) -/
abbrev Memory.wf (m : Memory) : Prop := m.Pairwise (fun x y => x.1 < y.1)

/-- The 32-bit word at a byte address, lane 0 in bits [7:0] (20_memory.md R99), if all of it was written since reset. -/
def Memory.readWord (m : Memory) (a : Nat) : Option Word :=
  match Memory.readByte m a, Memory.readByte m (a + 1), Memory.readByte m (a + 2), Memory.readByte m (a + 3) with
  | some b0, some b1, some b2, some b3 => some (b3 ++ b2 ++ b1 ++ b0)
  | _, _, _, _ => none

/-- Write a 32-bit word at a byte address, bits [7:0] in lane 0 (R99). -/
def Memory.writeWord (m : Memory) (a : Nat) (v : Word) : Memory :=
  let m0 := Memory.writeByte m a (v.extractLsb' 0 8)
  let m1 := Memory.writeByte m0 (a + 1) (v.extractLsb' 8 8)
  let m2 := Memory.writeByte m1 (a + 2) (v.extractLsb' 16 8)
  Memory.writeByte m2 (a + 3) (v.extractLsb' 24 8)

/-- Write consecutive words from a byte address on. -/
def Memory.writeWords : Memory → Nat → List Word → Memory
  | m, _, [] => m
  | m, a, w :: ws => Memory.writeWords (Memory.writeWord m a w) (a + 4) ws

/-- The bus byte address of a RAM word (20_memory.md R92). -/
def RamWord.addr : RamWord → Nat
  | .text i => 0x40000 + 4 * i
  | .key j => 0x01000 + 4 * j
  | .refSym j => 0x02000 + 8 * j
  | .refFreq j => 0x02000 + 8 * j + 4

/-- A word of TEXT, KEY or REF, if written since reset. -/
def State.ram (s : State) (w : RamWord) : Option Word := Memory.readWord s.mem w.addr

/-- STATUS.BUSY (10_state.md R36, R50): a command is in flight. -/
def State.busy (s : State) : Bool := s.pend.isSome

/-- HIST_LEN (R45): the number of valid entries of HIST. -/
def State.histLen (s : State) : BitVec 11 := BitVec.ofNat 11 s.hist.length

/-- Error entry (60_exceptions.md R300, R302, R320): ERR, ERR_CODE and ERR_INFO are written, BUSY is cleared, and nothing
else changes. -/
def State.raiseError (s : State) (code : ErrCode) (info : Word) : State :=
  { s with err := true, errCode := some code, errInfo := info, pend := none }

/-- The end of a command without error (R300): DONE is set and BUSY cleared. -/
def State.finish (s : State) : State := { s with done := true, pend := none }

/-- Clearing STATUS.DONE, the write of 1 to STATUS bit 1 (10_state.md R37). -/
def State.clearDone (s : State) : State := { s with done := false }

/-- The acknowledgement of an error, the write of 1 to STATUS bit 2 (10_state.md R37, 60_exceptions.md R321): ERR,
ERR_CODE and ERR_INFO are cleared. -/
def State.clearErr (s : State) : State := { s with err := false, errCode := none, errInfo := 0 }

/-- Why a command does not run its body: a failing check (60_exceptions.md R303), or a read of a word not written since
reset (93_implementation_defined.md U1). -/
inductive Stop where
  /-- The check's error code and information word. -/
  | error (code : ErrCode) (info : Word)
  /-- The word that was read. -/
  | unwritten (w : RamWord)
deriving DecidableEq, Repr

/-- The completion step's frame around a command (R300): either its checks passed and its body gave a state, which is
finished, or the first failing check is reported in the state the command found. -/
def State.complete (s : State) (r : Except Stop State) : Host.Outcome State Fault Refusal :=
  match r with
  | .ok t => .next t.finish
  | .error (.error code info) => .next (s.raiseError code info)
  | .error (.unwritten w) => .fault (.unwrittenRead w)

/-- Reset as one atomic event (70_reset_and_hazards.md R340): every register and mark to its reset value, the command in
flight abandoned (R342); the configuration, the inputs still to come and the responses already given stay. -/
def State.applyReset (s : State) : State :=
  { State.reset with cfg := s.cfg, inputs := s.inputs, responses := s.responses }

end Sys2Proof.Machine
end

