-- ==== Sys2Proof/Machine/Flags.lean ====
section
/-! DEFINITION. The status bits: the error codes' numbers (60_exceptions.md R301), STATUS and IRQ_EN as the bus reads and
writes them (10_state.md R36 to R38), and the irq output (60_exceptions.md R310). -/

namespace Sys2Proof.Machine

/-- The number of an error code in STATUS.ERR_CODE (R301). -/
def ErrCode.number : ErrCode → Byte
  | .illegalCmd => 0x01
  | .keyEmpty => 0x10
  | .keyLenRange => 0x11
  | .keySymbol => 0x12
  | .keyCursor => 0x13
  | .modelLenRange => 0x20
  | .modelSymbol => 0x21
  | .modelFreq => 0x22
  | .modelDuplicate => 0x23
  | .inputLenRange => 0x30
  | .inputSymbol => 0x31
  | .capacityHist => 0x40
  | .capacityTotal => 0x41

/-- STATUS.ERR_CODE as eight bits: 0x00 when no error is recorded (R301). -/
def State.errCodeBits (s : State) : Byte :=
  match s.errCode with
  | none => 0x00
  | some c => c.number

/-- STATUS as a read returns it (R36): BUSY in bit 0, DONE in bit 1, ERR in bit 2, ERR_CODE in bits [15:8], the reserved
bits 0. -/
def State.statusWord (s : State) : Word :=
  (0 : BitVec 16) ++ s.errCodeBits ++ (0 : BitVec 5) ++ BitVec.ofBool s.err ++ BitVec.ofBool s.done ++
    BitVec.ofBool s.busy

/-- A write of `v` to STATUS (R37): bit 1 clears DONE, bit 2 acknowledges the error, every other bit is ignored. -/
def State.writeStatus (s : State) (v : Word) : State :=
  let t := if v.getLsbD 1 then s.clearDone else s
  if v.getLsbD 2 then t.clearErr else t

/-- IRQ_EN as a read returns it (R38): DONE_IE in bit 1, ERR_IE in bit 2. -/
def State.irqEnWord (s : State) : Word :=
  (0 : BitVec 29) ++ BitVec.ofBool s.errIe ++ BitVec.ofBool s.doneIe ++ (0 : BitVec 1)

/-- A write of `v` to IRQ_EN (R38): bits 1 and 2 are stored, the reserved bits ignored. -/
def State.writeIrqEn (s : State) (v : Word) : State :=
  { s with doneIe := v.getLsbD 1, errIe := v.getLsbD 2 }

/-- The irq output (R310): a level, a pure function of the state. -/
def State.irq (s : State) : Bool := (s.done && s.doneIe) || (s.err && s.errIe)

end Sys2Proof.Machine
end

