-- ==== Sys2Proof/Machine/Alphabet.lean ====
section
/-! DEFINITION. The alphabet and the shifter (40_cipher.md R150 to R155), and the signed reading of a word
(00_scope.md R10). -/

namespace Sys2Proof.Machine

/-- `signed32(w)`: the integer a word denotes in two's complement (00_scope.md R10). -/
def signed32 (w : Word) : Int := if w.toNat < 2 ^ 31 then (w.toNat : Int) else (w.toNat : Int) - 2 ^ 32

/-- `alpha_index(c)` (R151): "a".."z" are 0..25, "A".."Z" are 26..51, every other symbol has none. -/
def alphaIndex (c : Word) : Option Nat :=
  if 0x61 ≤ c.toNat ∧ c.toNat ≤ 0x7A then some (c.toNat - 0x61)
  else if 0x41 ≤ c.toNat ∧ c.toNat ≤ 0x5A then some (26 + (c.toNat - 0x41))
  else none

/-- `alpha_symbol(i)` for i in 0..51 (R152). -/
def alphaSymbol (i : Nat) : Word :=
  if i < 26 then BitVec.ofNat 32 (0x61 + i) else BitVec.ofNat 32 (0x41 + (i - 26))

/-- The base of an index's case partition: 0 or 26 (R150). -/
def partitionBase (i : Nat) : Nat := if i < 26 then 0 else 26

/-- `shift(c, delta)` of an alphabet symbol (R153), with the mathematical modulus of 00_scope.md R11. The shifter is never
applied to another symbol; the function gives such a symbol back. -/
def shift (c : Word) (delta : Int) : Word :=
  match alphaIndex c with
  | some i => alphaSymbol (partitionBase i + ((i - partitionBase i + delta) % 26).toNat)
  | none => c

/-- `subkey(c)` of a key symbol (R155): its index within the lowercase partition. Validation keeps every other symbol
out; the function gives 0 for one. -/
def subkey (c : Word) : Nat :=
  match alphaIndex c with
  | some j => if j < 26 then j else j - 26
  | none => 0

end Sys2Proof.Machine
end

