-- ==== Sys2Proof/Machine/Operands.lean ====
section
/-! DEFINITION. The operands of the commands (30_encoding.md R134, R135) and their checks, in the order of
60_exceptions.md R303: each operand form gives the values read, or the first failing check, or the first word it reads that
was not written since reset. -/

namespace Sys2Proof.Machine

/-- One entry of the reference model (10_state.md R62). -/
structure RefEntry where
  /-- REF[j].SYM. -/
  sym : Word
  /-- REF[j].FREQ. -/
  freq : Word
deriving DecidableEq, Repr

/-- Read a RAM word for a command: a word not written since reset stops it (93_implementation_defined.md U1). -/
def State.ramOperand (s : State) (w : RamWord) : Except Stop Word :=
  match s.ram w with
  | some v => .ok v
  | none => .error (.unwritten w)

/-- Read and check KEY[j], KEY[j+1], ... (`n` of them): each is an alphabet symbol (R303, code 0x12). -/
def State.scanKey (s : State) : Nat → Nat → Except Stop (List Word)
  | _, 0 => .ok []
  | j, n + 1 => do
    let c ← s.ramOperand (.key j)
    if (alphaIndex c).isNone then .error (.error .keySymbol (BitVec.ofNat 32 j))
    else do
      let cs ← s.scanKey (j + 1) n
      .ok (c :: cs)

/-- The Vigenère key KEY[0..KEY_LEN-1] with its checks (R303, codes 0x10 to 0x13). -/
def State.keyOperand (s : State) (cont : Bool) : Except Stop (List Word) :=
  if s.keyLen = 0 then .error (.error .keyEmpty 0)
  else if s.cfg.keyDepth < s.keyLen.toNat then .error (.error .keyLenRange (s.keyLen.setWidth 32))
  else do
    let key ← s.scanKey 0 s.keyLen.toNat
    if cont && decide (s.keyLen.toNat ≤ s.kcur.toNat) then .error (.error .keyCursor (s.kcur.setWidth 32))
    else .ok key

/-- The starting cursor of a Vigenère command (40_cipher.md R157). -/
def State.startCursor (s : State) (cont : Bool) : Nat := if cont then s.kcur.toNat else 0

/-- Read and check REF[j], REF[j+1], ... (`n` of them), `seen` the symbols of the entries before them (R303, codes 0x21 to
0x23). -/
def State.scanRef (s : State) : List Word → Nat → Nat → Except Stop (List RefEntry)
  | _, _, 0 => .ok []
  | seen, j, n + 1 => do
    let sym ← s.ramOperand (.refSym j)
    if maxSymbol < sym then .error (.error .modelSymbol (BitVec.ofNat 32 j))
    else do
      let freq ← s.ramOperand (.refFreq j)
      if maxFreq < freq then .error (.error .modelFreq (BitVec.ofNat 32 j))
      else if seen.contains sym then .error (.error .modelDuplicate (BitVec.ofNat 32 j))
      else do
        let rest ← s.scanRef (sym :: seen) (j + 1) n
        .ok (⟨sym, freq⟩ :: rest)

/-- The reference model REF[0..REF_LEN-1] with its checks (R303, codes 0x20 to 0x23). -/
def State.refOperand (s : State) : Except Stop (List RefEntry) :=
  if s.cfg.refDepth < s.refLen.toNat then .error (.error .modelLenRange (s.refLen.setWidth 32))
  else s.scanRef [] 0 s.refLen.toNat

/-- Read and check TEXT[i], TEXT[i+1], ... (`n` of them): each is a legal symbol (R303, code 0x31). -/
def State.scanText (s : State) : Nat → Nat → Except Stop (List Word)
  | _, 0 => .ok []
  | i, n + 1 => do
    let c ← s.ramOperand (.text i)
    if maxSymbol < c then .error (.error .inputSymbol (BitVec.ofNat 32 i))
    else do
      let cs ← s.scanText (i + 1) n
      .ok (c :: cs)

/-- The text TEXT[0..LEN-1] with its checks (R303, codes 0x30 and 0x31). -/
def State.textOperand (s : State) : Except Stop (List Word) :=
  if s.cfg.textDepth < s.len.toNat then .error (.error .inputLenRange (s.len.setWidth 32))
  else s.scanText 0 s.len.toNat

end Sys2Proof.Machine
end

