-- ==== Sys2Proof/Machine/Train.lean ====
section
/-! DEFINITION. The frequency model: counting (41_train.md R200), the TRAIN command (R202) and the frequency readout
(R204). -/

namespace Sys2Proof.Machine

/-- A symbol has an entry in a histogram. -/
def histHas (h : List HistEntry) (c : Word) : Bool := h.any fun e => e.sym == c

/-- Count one symbol (R200): add 1 to its entry, or append a new entry with count 1. -/
def countSymbol : List HistEntry → Word → List HistEntry
  | [], c => [⟨c, 1⟩]
  | e :: es, c => if e.sym = c then { e with count := e.count + 1 } :: es else e :: countSymbol es c

/-- `train_body` of R200 on the symbols from text index `i` on, with the capacity checks of 60_exceptions.md R303 (codes
0x40 and 0x41) at the index where each would be passed. `h` and `t` are the histogram and the total counted so far. -/
def trainBody (histDepth : Nat) : Nat → List HistEntry → Word → List Word → Except Stop (List HistEntry × Word)
  | _, h, t, [] => .ok (h, t)
  | i, h, t, c :: cs =>
    if !histHas h c && h.length == histDepth then .error (.error .capacityHist (BitVec.ofNat 32 i))
    else if t = maxTotal then .error (.error .capacityTotal (BitVec.ofNat 32 i))
    else trainBody histDepth (i + 1) (countSymbol h c) (t + 1) cs

/-- The model TRAIN starts from (R200): the existing one if ACC = 1, the empty one otherwise. -/
def State.trainStart (s : State) (acc : Bool) : List HistEntry × Word := if acc then (s.hist, s.total) else ([], 0)

/-- TRAIN and TRAIN.ACC (R202). -/
def execTrain (acc : Bool) (s : State) : Host.Outcome State Fault Refusal :=
  s.complete do
    let text ← s.textOperand
    let r ← trainBody s.cfg.histDepth 0 (s.trainStart acc).1 (s.trainStart acc).2 text
    .ok { s with hist := r.1, total := r.2 }

/-- FREQ(j) of R204, floor(COUNT * 2^31 / TOTAL), as the 32-bit word the HIST window reads. -/
def freqReadout (count total : Word) : Word := BitVec.ofNat 32 (count.toNat * 2 ^ 31 / total.toNat)

end Sys2Proof.Machine
end

