-- ==== Sys2Proof/Machine/Bus.lean ====
section
/-! DEFINITION. The bus slave: the address map (20_memory.md R92 to R94), the busy rule (70_reset_and_hazards.md R350), and
the host's reads and writes (20_memory.md R95, R96; 10_state.md R31 to R49, R60 to R64). -/

namespace Sys2Proof.Machine

/-- A mapped location of the address map (R92). -/
inductive Location where
  | id
  | version
  | alphaN
  | textDepth
  | keyDepth
  | refDepth
  | histDepth
  | cmd
  | status
  | irqEn
  | errInfo
  | len
  | ckey
  | keyLen
  | kcur
  | refLen
  | histLen
  | total
  | bestKey
  | bestScoreLo
  | bestScoreMid
  | bestScoreHi
  /-- Word `w` of SCORE[k]. -/
  | score (k : Fin 26) (w : Nat)
  /-- Word `w` of HIST[j]. -/
  | hist (j : Nat) (w : Nat)
  /-- A word of TEXT, KEY or REF. -/
  | ram (w : RamWord)
deriving DecidableEq, Repr

/-- The registers of the address map (R92), by byte offset. -/
def registerMap : List (Nat × Location) :=
  [(0x00000, .id), (0x00004, .version), (0x00008, .alphaN), (0x0000C, .textDepth), (0x00010, .keyDepth),
    (0x00014, .refDepth), (0x00018, .histDepth), (0x00020, .cmd), (0x00024, .status), (0x00028, .irqEn),
    (0x0002C, .errInfo), (0x00030, .len), (0x00034, .ckey), (0x00038, .keyLen), (0x0003C, .kcur),
    (0x00040, .refLen), (0x00044, .histLen), (0x00048, .total), (0x0004C, .bestKey), (0x00050, .bestScoreLo),
    (0x00054, .bestScoreMid), (0x00058, .bestScoreHi)]

/-- The entry index of an address in a window of base `b` and stride `stride` (R93). -/
abbrev entryIndex (b stride a : Nat) : Nat := (a - b) / stride

/-- The word within the entry (R93). -/
abbrev entryWord (b stride a : Nat) : Nat := (a - b) % stride / 4

/-- The array entry an address selects, if its index is below the array's depth (R92, R93). The bounds are those of the
windows R92 lists. -/
def windowAt (c : Config) (a : Nat) : Option Location :=
  if 0x00800 ≤ a ∧ a < 0x009A0 then
    if h : entryIndex 0x00800 16 a < 26 then some (.score ⟨entryIndex 0x00800 16 a, h⟩ (entryWord 0x00800 16 a)) else none
  else if 0x01000 ≤ a ∧ a < 0x02000 then
    if entryIndex 0x01000 4 a < c.keyDepth then some (.ram (.key (entryIndex 0x01000 4 a))) else none
  else if 0x02000 ≤ a ∧ a < 0x04000 then
    if entryIndex 0x02000 8 a < c.refDepth then
      if entryWord 0x02000 8 a = 0 then some (.ram (.refSym (entryIndex 0x02000 8 a)))
      else some (.ram (.refFreq (entryIndex 0x02000 8 a)))
    else none
  else if 0x04000 ≤ a ∧ a < 0x08000 then
    if entryIndex 0x04000 16 a < c.histDepth then some (.hist (entryIndex 0x04000 16 a) (entryWord 0x04000 16 a)) else none
  else if 0x40000 ≤ a ∧ a < 0x80000 then
    if entryIndex 0x40000 4 a < c.textDepth then some (.ram (.text (entryIndex 0x40000 4 a))) else none
  else none

/-- The location at an aligned address, if it is mapped (R92 to R94). -/
def locate (c : Config) (a : Nat) : Option Location :=
  match registerMap.lookup a with
  | some l => some l
  | none => windowAt c a

/-- The locations a host may read while BUSY = 1 (R350). -/
def Location.readableWhileBusy : Location → Bool
  | .id | .version | .alphaN | .textDepth | .keyDepth | .refDepth | .histDepth | .status | .irqEn | .errInfo => true
  | .cmd | .len | .ckey | .keyLen | .kcur | .refLen | .histLen | .total | .bestKey => false
  | .bestScoreLo | .bestScoreMid | .bestScoreHi | .score _ _ | .hist _ _ | .ram _ => false

/-- The locations a host may write while BUSY = 1 (R350). -/
def Location.writableWhileBusy : Location → Bool
  | .status | .irqEn => true
  | .id | .version | .alphaN | .textDepth | .keyDepth | .refDepth | .histDepth | .errInfo => false
  | .cmd | .len | .ckey | .keyLen | .kcur | .refLen | .histLen | .total | .bestKey => false
  | .bestScoreLo | .bestScoreMid | .bestScoreHi | .score _ _ | .hist _ _ | .ram _ => false

/-- Word `w` of an 80-bit score (10_state.md R48, R64): bits [31:0], [63:32], [79:64], and 0. -/
def scoreWord (v : BitVec 80) (w : Nat) : Word :=
  match w with
  | 0 => v.extractLsb' 0 32
  | 1 => v.extractLsb' 32 32
  | 2 => (v.extractLsb' 64 16).setWidth 32
  | _ => 0

/-- Word `w` of HIST[j] (R63): SYM, COUNT, FREQ(j) and 0; all 0 at or above HIST_LEN. -/
def State.histWord (s : State) (j w : Nat) : Word :=
  match s.hist[j]? with
  | none => 0
  | some e =>
    match w with
    | 0 => e.sym
    | 1 => e.count
    | 2 => freqReadout e.count s.total
    | _ => 0

/-- The value of a location (10_state.md R31 to R49, R60 to R64); registers are zero-extended (R49). A RAM word not
written since reset has none (93_implementation_defined.md U1). -/
def State.readLocation (s : State) : Location → Except Fault Word
  | .id => .ok idWord
  | .version => .ok versionWord
  | .alphaN => .ok alphaNWord
  | .textDepth => .ok (BitVec.ofNat 32 s.cfg.textDepth)
  | .keyDepth => .ok (BitVec.ofNat 32 s.cfg.keyDepth)
  | .refDepth => .ok (BitVec.ofNat 32 s.cfg.refDepth)
  | .histDepth => .ok (BitVec.ofNat 32 s.cfg.histDepth)
  | .cmd => .ok 0
  | .status => .ok s.statusWord
  | .irqEn => .ok s.irqEnWord
  | .errInfo => .ok s.errInfo
  | .len => .ok (s.len.setWidth 32)
  | .ckey => .ok s.ckey
  | .keyLen => .ok (s.keyLen.setWidth 32)
  | .kcur => .ok (s.kcur.setWidth 32)
  | .refLen => .ok (s.refLen.setWidth 32)
  | .histLen => .ok (s.histLen.setWidth 32)
  | .total => .ok s.total
  | .bestKey => .ok (s.bestKey.setWidth 32)
  | .bestScoreLo => .ok (scoreWord s.bestScore 0)
  | .bestScoreMid => .ok (scoreWord s.bestScore 1)
  | .bestScoreHi => .ok (scoreWord s.bestScore 2)
  | .score k w => .ok (scoreWord s.score[k] w)
  | .hist j w => .ok (s.histWord j w)
  | .ram w =>
    match s.ram w with
    | some v => .ok v
    | none => .error (.unwrittenRead w)

/-- A write of `v` to a location (20_memory.md R96): RW registers keep their low bits (10_state.md R49), RO locations ignore
the write, CMD latches the command word (R35), STATUS acts by R37. -/
def State.writeLocation (s : State) (v : Word) : Location → State
  | .cmd => { s with pend := some v }
  | .status => s.writeStatus v
  | .irqEn => s.writeIrqEn v
  | .len => { s with len := v.setWidth 17 }
  | .ckey => { s with ckey := v }
  | .keyLen => { s with keyLen := v.setWidth 11 }
  | .kcur => { s with kcur := v.setWidth 10 }
  | .refLen => { s with refLen := v.setWidth 11 }
  | .ram w => { s with mem := Memory.writeWord s.mem w.addr v }
  | .id | .version | .alphaN | .textDepth | .keyDepth | .refDepth | .histDepth | .errInfo => s
  | .histLen | .total | .bestKey | .bestScoreLo | .bestScoreMid | .bestScoreHi | .score _ _ | .hist _ _ => s

/-- The location of a transaction of `bytes` bytes at address `a`, or why it gets an ERROR response: its width (R97), its
alignment (R98), an unmapped address (R94), the busy rule (R350, `allowed` the locations it permits). -/
def State.target (s : State) (bytes : Nat) (a : BusAddr) (allowed : Location → Bool) : Except Fault Location :=
  if bytes ≠ 4 then .error (.busError .width)
  else if a.toNat % 4 ≠ 0 then .error (.busError .misaligned)
  else
    match locate s.cfg a.toNat with
    | none => .error (.busError .unmapped)
    | some l => if s.busy && !allowed l then .error (.busError .busy) else .ok l

/-- A host read (R95): the value read; no state changes. -/
def State.busRead (s : State) (bytes : Nat) (a : BusAddr) : Except Fault Word := do
  let l ← s.target bytes a Location.readableWhileBusy
  s.readLocation l

/-- A host write (R96): the state after it. -/
def State.busWrite (s : State) (bytes : Nat) (a : BusAddr) (v : Word) : Except Fault State := do
  let l ← s.target bytes a Location.writableWhileBusy
  .ok (s.writeLocation v l)

end Sys2Proof.Machine
end

