-- ==== Sys2Proof/Machine/Cipher.lean ====
section
/-! DEFINITION. NOP and the four cipher commands (40_cipher.md R156 to R165). -/

namespace Sys2Proof.Machine

/-- The direction of a transform (R158). -/
inductive Direction where
  | encode
  | decode
deriving DecidableEq, Repr

/-- The per-position delta of key value `k` (R156): +k on encode, -k on decode. -/
def Direction.delta (dir : Direction) (k : Int) : Int :=
  match dir with
  | .encode => k
  | .decode => -k

/-- The key value at a cursor (R156). A key schedule is the list of its key values and its period the list's length, so a
cursor below the period has one. -/
def keyValue (schedule : List Int) (cur : Nat) : Int := schedule.getD cur 0

/-- `transform` of R158 on the symbols of a text, from the cursor `cur`: the output symbols and the final cursor. -/
def transform (dir : Direction) (schedule : List Int) : Nat → List Word → List Word × Nat
  | cur, [] => ([], cur)
  | cur, c :: cs =>
    if (alphaIndex c).isSome then
      let rest := transform dir schedule ((cur + 1) % schedule.length) cs
      (shift c (dir.delta (keyValue schedule cur)) :: rest.1, rest.2)
    else
      let rest := transform dir schedule cur cs
      (c :: rest.1, rest.2)

/-- The body of a cipher command (R158 to R160): the output overwrites TEXT[0..LEN-1] and KCUR takes the final cursor. -/
def State.cipherText (s : State) (dir : Direction) (schedule : List Int) (cur : Nat) (text : List Word) : State :=
  let r := transform dir schedule cur text
  { s with mem := Memory.writeWords s.mem (RamWord.text 0).addr r.1, kcur := BitVec.ofNat 10 r.2 }

/-- A Caesar command (R162, R163): the schedule is the one key value signed32(CKEY), the cursor starts at 0. -/
def State.caesar (s : State) (dir : Direction) : Host.Outcome State Fault Refusal :=
  s.complete do
    let text ← s.textOperand
    .ok (s.cipherText dir [signed32 s.ckey] 0 text)

/-- A Vigenère command (R164, R165): the schedule is the sub-keys of KEY[0..KEY_LEN-1], the cursor starts at KCUR if CONT
= 1 and at 0 otherwise. -/
def State.vigenere (s : State) (dir : Direction) (cont : Bool) : Host.Outcome State Fault Refusal :=
  s.complete do
    let key ← s.keyOperand cont
    let text ← s.textOperand
    .ok (s.cipherText dir (key.map fun c => (subkey c : Int)) (s.startCursor cont) text)

/-- NOP (R161): no effect but the completion. -/
def execNop (s : State) : Host.Outcome State Fault Refusal := s.complete (.ok s)

/-- ENCC (R162). -/
def execEncc (s : State) : Host.Outcome State Fault Refusal := s.caesar .encode

/-- DECC (R163). -/
def execDecc (s : State) : Host.Outcome State Fault Refusal := s.caesar .decode

/-- ENCV and ENCV.CONT (R164). -/
def execEncv (cont : Bool) (s : State) : Host.Outcome State Fault Refusal := s.vigenere .encode cont

/-- DECV and DECV.CONT (R165). -/
def execDecv (cont : Bool) (s : State) : Host.Outcome State Fault Refusal := s.vigenere .decode cont

end Sys2Proof.Machine
end

