-- ==== Sys2Proof/Machine/Search.lean ====
section
/-! DEFINITION. Frequency scoring and key search: SEARCH and HACK (42_keysearch.md R230 to R240). -/

namespace Sys2Proof.Machine

/-- `ref(s)` (R230): the reference frequency of a symbol, 0 if the model has no entry for it. -/
def refFreq : List RefEntry → Word → Word
  | [], _ => 0
  | e :: es, c => if e.sym = c then e.freq else refFreq es c

/-- `dec_k(s)` (R231): the decoded symbol; a non-alphabet symbol is its own. -/
def decodedSymbol (k : Nat) (c : Word) : Word := if (alphaIndex c).isSome then shift c (-(k : Int)) else c

/-- One term of S(k) (R231): | TOTAL * ref(dec_k(SYM)) - COUNT * 2^31 |. -/
def scoreTerm (total : Word) (ref : List RefEntry) (k : Nat) (e : HistEntry) : Nat :=
  ((total.toNat * (refFreq ref (decodedSymbol k e.sym)).toNat : Int) - e.count.toNat * 2 ^ 31).natAbs

/-- S(k) of R231, the exact candidate score of the shift k. -/
def candidateScore (hist : List HistEntry) (total : Word) (ref : List RefEntry) (k : Nat) : Nat :=
  (hist.map (scoreTerm total ref k)).sum

/-- The first minimum of scores 0..25 (R233): a later score replaces the best only if strictly less. -/
def firstMinimum (score : Nat → Nat) : Nat :=
  (List.range' 1 25).foldl (fun best k => if score k < score best then k else best) 0

/-- SEARCH's body (R232, R233): record the 26 scores, the first minimum and its score. -/
def State.searchKeys (s : State) (ref : List RefEntry) : State :=
  let score := candidateScore s.hist s.total ref
  let best := firstMinimum score
  { s with
    score := Vector.ofFn fun k => BitVec.ofNat 80 (score k.val)
    bestKey := BitVec.ofNat 5 best
    bestScore := BitVec.ofNat 80 (score best) }

/-- SEARCH (R236). -/
def execSearch (s : State) : Host.Outcome State Fault Refusal :=
  s.complete do
    let ref ← s.refOperand
    .ok (s.searchKeys ref)

/-- HACK (R240): count TEXT from an empty HIST, search, decode TEXT with the winning key. -/
def execHack (s : State) : Host.Outcome State Fault Refusal :=
  s.complete do
    let ref ← s.refOperand
    let text ← s.textOperand
    let r ← trainBody s.cfg.histDepth 0 [] 0 text
    let t := State.searchKeys { s with hist := r.1, total := r.2 } ref
    .ok (t.cipherText .decode [(t.bestKey.toNat : Int)] 0 text)

end Sys2Proof.Machine
end

