-- ==== Sys2Proof/Machine/Dispatch.lean ====
section
/-! DEFINITION. The dispatch of the eight commands to their meanings (60_exceptions.md R300). -/

namespace Sys2Proof.Machine

def exec (i : Instr) (s : State) : Host.Outcome State Fault Refusal :=
  match i with
  | .nop => Sys2Proof.Machine.execNop s
  | .encc => Sys2Proof.Machine.execEncc s
  | .decc => Sys2Proof.Machine.execDecc s
  | .encv cont => Sys2Proof.Machine.execEncv cont s
  | .decv cont => Sys2Proof.Machine.execDecv cont s
  | .train acc => Sys2Proof.Machine.execTrain acc s
  | .search => Sys2Proof.Machine.execSearch s
  | .hack => Sys2Proof.Machine.execHack s

end Sys2Proof.Machine
end

