-- ==== Sys2Proof/Machine/Engine.lean ====
section
/-! DEFINITION. The two agents and the external event (00_scope.md R14): the engine's completion step
(60_exceptions.md R300), the host's transactions (20_memory.md R95, R96) with their responses, and reset. -/

namespace Sys2Proof.Machine

/-- The engine's completion step (R300), enabled when BUSY = 1; an illegal command word completes as error 0x01 with the
word in ERR_INFO (30_encoding.md R133). With no command in flight the engine does nothing. -/
def State.engineTurn (s : State) : Host.Outcome State Fault Refusal :=
  match s.pend with
  | none => .next s
  | some w =>
    match decode w with
    | .ok i => exec i s
    | .error _ => .next (s.raiseError .illegalCmd w)

/-- A host read: an OKAY response records the value read, an ERROR response is a fault of the host (R100). -/
def State.hostRead (s : State) (bytes : Nat) (a : BusAddr) : Host.Outcome State Fault Refusal :=
  match s.busRead bytes a with
  | .ok v => .next { s with responses := .readOkay v :: s.responses }
  | .error f => .fault f

/-- A host write: it takes effect before its OKAY response (R96, R104). -/
def State.hostWrite (s : State) (bytes : Nat) (a : BusAddr) (v : Word) : Host.Outcome State Fault Refusal :=
  match s.busWrite bytes a v with
  | .ok t => .next { t with responses := .writeOkay :: t.responses }
  | .error f => .fault f

/-- What one input does. -/
def State.takeInput (s : State) : Input → Host.Outcome State Fault Refusal
  | .read bytes a => s.hostRead bytes a
  | .write bytes a v => s.hostWrite bytes a v
  | .engine => s.engineTurn
  | .reset => .next s.applyReset

end Sys2Proof.Machine
end

