-- ==== Sys2Proof/Machine/Step.lean ====
section
/-! DEFINITION. One step of the machine: the oldest input is taken; when none is left, the engine takes its turn, so that a
command in flight completes (70_reset_and_hazards.md R356). -/

namespace Sys2Proof.Machine

/-- One step: the oldest input acts; with no input left the engine's turn comes, which does nothing while BUSY = 0. -/
def step (s : State) : Host.Outcome State Fault Refusal :=
  match s.inputs with
  | [] => s.engineTurn
  | i :: rest => State.takeInput { s with inputs := rest } i

/-- `s` with the command word `w` (its low `nbits` bits) in flight and the engine's turn next: the next step completes
exactly that command. ENC-CORE fetches no instructions (10_state.md R34); a command comes to run by the host's write of CMD
(R35), for which this stands. -/
def State.withFetchWord (s : State) (nbits w : Nat) : State :=
  { s with pend := some (BitVec.ofNat 32 (w % 2 ^ nbits)), inputs := .engine :: s.inputs }

end Sys2Proof.Machine
end

