-- ==== Sys2Proof/WellFormed.lean ====
section
/-! DEFINITION. Well-formedness. A command has no operand field (30_encoding.md R134) and its modifier bits are
Booleans, so every term of `Instr` is well formed; what can be ill formed is a configuration, whose four depths must lie in
the legal ranges of 00_scope.md R8. -/

namespace Sys2Proof

/-- Every term of `Instr` stands for a legal command word (30_encoding.md R131): there is nothing to refuse. -/
def Instr.wellFormed : Instr → Bool
  | .nop => true
  | .encc => true
  | .decc => true
  | .encv _ => true
  | .decv _ => true
  | .train _ => true
  | .search => true
  | .hack => true

/-- A depth of the TEXT array is legal: 1..65536 (00_scope.md R8). -/
def legalTextDepth (d : Nat) : Bool := decide (1 ≤ d) && decide (d ≤ 65536)

/-- A depth of the KEY, REF or HIST array is legal: 1..1024 (00_scope.md R8). -/
def legalTableDepth (d : Nat) : Bool := decide (1 ≤ d) && decide (d ≤ 1024)

/-- The legal configurations of 00_scope.md R8. -/
def Config.wellFormed (c : Config) : Bool :=
  legalTextDepth c.textDepth && legalTableDepth c.keyDepth && legalTableDepth c.refDepth && legalTableDepth c.histDepth

end Sys2Proof
end

