-- ==== Sys2Proof/Safety.lean ====
section
/-! DEFINITION. What counts as a safe run, in the terms the claims use: the program has stopped (00_scope.md R16); the
invariants of the state (10_state.md R36, R51; 41_train.md R201; 42_keysearch.md R233); operands loaded by the host
(70_reset_and_hazards.md R346); the address map as ranges of addresses (20_memory.md R92 to R94); and the counts, scores and
orders that 41_train.md and 42_keysearch.md speak of, written without the machine's own functions. -/

namespace Sys2Proof.Machine

/-- "The program stops" (R16): the host has issued its last transaction and no command is pending. DESIGN CHOICE, log entry
19: R16 leaves open whether the program has stopped while a reset or an idle turn of the engine is still listed; here it has
not, the whole list of inputs is empty. Unsafe as a hypothesis, safe as a conclusion. -/
abbrev State.stopped (s : State) : Prop := s.inputs = [] ∧ s.busy = false

/-- The error registers agree (10_state.md R36, R37, R39): with ERR = 0 the code is 0x00 and ERR_INFO is 0, with ERR = 1 a
code is recorded. -/
abbrev State.errorsCoherent (s : State) : Prop :=
  (s.err = false → s.errCode = none ∧ s.errInfo = 0) ∧ (s.err = true → s.errCode ≠ none)

/-- The sum of the counts of a histogram. -/
def histSum (h : List HistEntry) : Nat := (h.map fun e => e.count.toNat).sum

/-- The invariants of the frequency model (41_train.md R200, R201): TOTAL is the sum of the counts, every count is at least
1, HIST_LEN is at most HIST_DEPTH, no two entries have the same symbol. -/
abbrev State.histCoherent (s : State) : Prop :=
  s.total.toNat = histSum s.hist ∧ (∀ e ∈ s.hist, 1 ≤ e.count.toNat) ∧ s.hist.length ≤ s.cfg.histDepth ∧
    (s.hist.map HistEntry.sym).Nodup

/-- The result registers agree (42_keysearch.md R233): BEST_KEY is the smallest k with the least SCORE[k], and BEST_SCORE
is its score. -/
abbrev State.bestCoherent (s : State) : Prop :=
  ∃ best : Fin 26, s.bestKey.toNat = best.val ∧ s.bestScore = s.score[best] ∧
    (∀ k : Fin 26, s.score[best].toNat ≤ s.score[k].toNat) ∧
    (∀ k : Fin 26, k < best → s.score[best].toNat < s.score[k].toNat)

/-- A byte address of a word of TEXT, KEY or REF below the array's depth (20_memory.md R92, R93). -/
abbrev ramByte (c : Config) (a : Nat) : Prop :=
  (0x40000 ≤ a ∧ a < 0x40000 + 4 * c.textDepth) ∨ (0x01000 ≤ a ∧ a < 0x01000 + 4 * c.keyDepth) ∨
    (0x02000 ≤ a ∧ a < 0x02000 + 8 * c.refDepth)

/-- The RAM's form: addresses strictly rising, every listed byte one of TEXT, KEY or REF, and every word written whole
(10_state.md R51: the mark is an entry word's). -/
abbrev State.ramCoherent (s : State) : Prop :=
  Memory.wf s.mem ∧ (∀ x ∈ s.mem, ramByte s.cfg x.1) ∧
    ∀ x ∈ s.mem, ∀ k, k < 4 → (Memory.readByte s.mem (x.1 / 4 * 4 + k)).isSome

/-- TEXT[0..LEN-1] holds the symbols `text`, all legal, and LEN is in range: what ENC, DEC, TRAIN and HACK need of their
text (60_exceptions.md R303, 70_reset_and_hazards.md R346). -/
abbrev State.textLoaded (s : State) (text : List Word) : Prop :=
  s.len.toNat = text.length ∧ text.length ≤ s.cfg.textDepth ∧
    ∀ i (h : i < text.length), s.ram (.text i) = some text[i] ∧ text[i].toNat ≤ 0x10FFFF

/-- KEY[0..KEY_LEN-1] holds the symbols `key`, all letters, and KEY_LEN is in range (R303, R346). -/
abbrev State.keyLoaded (s : State) (key : List Word) : Prop :=
  s.keyLen.toNat = key.length ∧ 1 ≤ key.length ∧ key.length ≤ s.cfg.keyDepth ∧
    ∀ j (h : j < key.length), s.ram (.key j) = some key[j] ∧ (alphaIndex key[j]).isSome

/-- With CONT = 1 the cursor lies below the key length (R303, code 0x13). -/
abbrev State.cursorLegal (s : State) (cont : Bool) : Prop := cont = true → s.kcur.toNat < s.keyLen.toNat

/-- REF[0..REF_LEN-1] holds the entries `ref`, legal and with distinct symbols, and REF_LEN is in range (R303, R346). -/
abbrev State.refLoaded (s : State) (ref : List RefEntry) : Prop :=
  s.refLen.toNat = ref.length ∧ ref.length ≤ s.cfg.refDepth ∧ (ref.map RefEntry.sym).Nodup ∧
    ∀ j (h : j < ref.length), s.ram (.refSym j) = some ref[j].sym ∧ s.ram (.refFreq j) = some ref[j].freq ∧
      ref[j].sym.toNat ≤ 0x10FFFF ∧ ref[j].freq.toNat ≤ 2 ^ 31

/-- The first entries of REF are `es`: written, legal, with distinct symbols. -/
abbrev State.refPrefix (s : State) (es : List RefEntry) : Prop :=
  (es.map RefEntry.sym).Nodup ∧
    ∀ j (h : j < es.length), s.ram (.refSym j) = some es[j].sym ∧ s.ram (.refFreq j) = some es[j].freq ∧
      es[j].sym.toNat ≤ 0x10FFFF ∧ es[j].freq.toNat ≤ 2 ^ 31

/-- A command checks its text, and its key or model checks before that pass (R303's kind order). -/
def State.reachesTextCheck (s : State) : Instr → Prop
  | .nop => False
  | .encc => True
  | .decc => True
  | .encv cont => s.cursorLegal cont ∧ ∃ key, s.keyLoaded key
  | .decv cont => s.cursorLegal cont ∧ ∃ key, s.keyLoaded key
  | .train _ => True
  | .search => False
  | .hack => ∃ ref, s.refLoaded ref

/-- The number of alphabet symbols in a text (40_cipher.md R160's m). -/
def letterCount (text : List Word) : Nat := text.countP fun c => (alphaIndex c).isSome

/-- A text symbol through a cipher with delta `d` at its position (40_cipher.md R158). -/
def ciphered (d : Int) (c : Word) : Word := if (alphaIndex c).isSome then shift c d else c

/-- The symbols of a list in order of first occurrence (41_train.md R200). -/
def firstOccurrences (l : List Word) : List Word := l.foldl (fun seen c => if c ∈ seen then seen else seen ++ [c]) []

/-- The count a histogram holds for a symbol, 0 if it has no entry. -/
def histCount (h : List HistEntry) (c : Word) : Nat := ((h.filter fun e => e.sym = c).map fun e => e.count.toNat).sum

/-- The symbols a TRAIN starts with (41_train.md R200): those of HIST if ACC = 1, none otherwise. -/
def State.startSymbols (s : State) (acc : Bool) : List Word := if acc then s.hist.map HistEntry.sym else []

/-- The count a TRAIN starts with for a symbol (R200). -/
def State.startCount (s : State) (acc : Bool) (c : Word) : Nat := if acc then histCount s.hist c else 0

/-- The total a TRAIN starts with (R200). -/
def State.startTotal (s : State) (acc : Bool) : Nat := if acc then s.total.toNat else 0

/-- The number of distinct symbols of a list. -/
def distinct (l : List Word) : Nat := l.toFinset.card

/-- `ref(s)` (42_keysearch.md R230) as a number: the frequency of the entry with that symbol, 0 without one. -/
def referenceFrequency (ref : List RefEntry) (c : Word) : Nat :=
  match ref.find? fun e => e.sym == c with
  | some e => e.freq.toNat
  | none => 0

/-- S(k) (42_keysearch.md R231) in exact integers: the sum over HIST of | TOTAL * ref(dec_k(SYM)) - COUNT * 2^31 |. -/
def exactScore (hist : List HistEntry) (total : Nat) (ref : List RefEntry) (k : Nat) : Nat :=
  (hist.map fun e =>
    ((total : Int) * referenceFrequency ref (ciphered (-(k : Int)) e.sym) - (e.count.toNat : Int) * 2 ^ 31).natAbs).sum

/-- ENC's real-valued score of a shift (42_keysearch.md R234): the sum over HIST of | ref/2^31 - COUNT/TOTAL |. -/
def realScore (hist : List HistEntry) (total : Nat) (ref : List RefEntry) (k : Nat) : ℚ :=
  (hist.map fun e =>
    |(referenceFrequency ref (ciphered (-(k : Int)) e.sym) : ℚ) / 2 ^ 31 - (e.count.toNat : ℚ) / total|).sum

/-- BEST_KEY, BEST_SCORE and SCORE are those of a search over scores `S` (R232, R233): every score recorded, and the
smallest k with the least score kept. -/
def State.holdsSearchOf (s : State) (S : Nat → Nat) : Prop :=
  (∀ k : Fin 26, s.score[k].toNat = S k.val) ∧ s.bestKey.toNat < 26 ∧ s.bestScore.toNat = S s.bestKey.toNat ∧
    (∀ k < 26, S s.bestKey.toNat ≤ S k) ∧ (∀ k < s.bestKey.toNat, S s.bestKey.toNat < S k)

/-- The register addresses of R92. -/
def registerAddresses : List Nat :=
  [0x00, 0x04, 0x08, 0x0C, 0x10, 0x14, 0x18, 0x20, 0x24, 0x28, 0x2C, 0x30, 0x34, 0x38, 0x3C, 0x40, 0x44, 0x48, 0x4C,
    0x50, 0x54, 0x58]

/-- The mapped addresses of R92 and R93, as ranges. -/
abbrev mappedAddress (c : Config) (a : Nat) : Prop :=
  a ∈ registerAddresses ∨ (0x00800 ≤ a ∧ a < 0x00800 + 16 * 26) ∨ (0x04000 ≤ a ∧ a < 0x04000 + 16 * c.histDepth) ∨
    ramByte c a

/-- The addresses R350 lets a host read while BUSY = 1. -/
def readableWhileBusy : List Nat := [0x00, 0x04, 0x08, 0x0C, 0x10, 0x14, 0x18, 0x24, 0x28, 0x2C]

/-- The addresses R350 lets a host write while BUSY = 1. -/
def writableWhileBusy : List Nat := [0x24, 0x28]

/-- The read-only registers of R92 and the two read-only windows. -/
abbrev readOnlyAddress (c : Config) (a : Nat) : Prop :=
  a ∈ [0x00, 0x04, 0x08, 0x0C, 0x10, 0x14, 0x18, 0x2C, 0x44, 0x48, 0x4C, 0x50, 0x54, 0x58] ∨
    (0x00800 ≤ a ∧ a < 0x00800 + 16 * 26) ∨ (0x04000 ≤ a ∧ a < 0x04000 + 16 * c.histDepth)

end Sys2Proof.Machine
end

