-- ==== Sys2Proof/Certificates/Slice0/Obligations.lean ====
section
/-! DEFINITION. The statements about ENC-CORE for the provers. Each docstring names the rule of spec/ it formalises. -/

open Sys2Proof Sys2Proof.Machine

/-! ### Encoding -/

/-- Decoding a word gives a command exactly when the word is that command's encoding (30_encoding.md R131, R137). -/
def Obligations.DecodeInvertsEncode : Prop := ∀ (w : Word) (i : Instr), decode w = .ok i ↔ w = encode i

/-- The opcode table of R131: its eight rows, a word selects a mnemonic by match and mask, the rows are disjoint, c and a are
bits 5 and 6, and exactly eleven words are legal. -/
def Obligations.OpcodeTableSelectsCommands : Prop :=
  (Instr.nop.row = ⟨0x00000000, 0xFFFFFFFF⟩ ∧ Instr.encc.row = ⟨0x00000001, 0xFFFFFFFF⟩ ∧
    Instr.decc.row = ⟨0x00000002, 0xFFFFFFFF⟩ ∧ (∀ c, (Instr.encv c).row = ⟨0x00000011, 0xFFFFFFDF⟩) ∧
    (∀ c, (Instr.decv c).row = ⟨0x00000012, 0xFFFFFFDF⟩) ∧ (∀ a, (Instr.train a).row = ⟨0x00000003, 0xFFFFFFBF⟩) ∧
    Instr.search.row = ⟨0x00000004, 0xFFFFFFFF⟩ ∧ Instr.hack.row = ⟨0x00000005, 0xFFFFFFFF⟩) ∧
  (∀ w i, decode w = .ok i → w &&& i.row.mask = i.row.pattern) ∧
  (∀ (w : Word) (j : Instr), w &&& j.row.mask = j.row.pattern → ∃ i, decode w = .ok i ∧ i.row = j.row) ∧
  (∀ (i j : Instr) (w : Word), w &&& i.row.mask = i.row.pattern → w &&& j.row.mask = j.row.pattern → i.row = j.row) ∧
  (∀ w c, decode w = .ok (.encv c) → w.getLsbD 5 = c) ∧ (∀ w c, decode w = .ok (.decv c) → w.getLsbD 5 = c) ∧
  (∀ w a, decode w = .ok (.train a) → w.getLsbD 6 = a) ∧
  ∀ w, (∃ i, decode w = .ok i) ↔
    w ∈ ([0x00, 0x01, 0x02, 0x11, 0x31, 0x12, 0x32, 0x03, 0x43, 0x04, 0x05] : List Word)

/-- R133: a word that matches no row, among them every word of R133's list, is accepted by the CMD write and completes as
ILLEGAL_CMD with the word in ERR_INFO and nothing else changed. -/
def Obligations.IllegalWordCompletesAsIllegalCmd : Prop :=
  (∀ w : Word,
    (6 ≤ w.toNat % 16 ∨ 128 ≤ w.toNat ∨ (w.getLsbD 4 = true ∧ w.toNat % 16 ≠ 1 ∧ w.toNat % 16 ≠ 2) ∨
      (w.getLsbD 5 = true ∧ ¬((w.toNat % 16 = 1 ∨ w.toNat % 16 = 2) ∧ w.getLsbD 4 = true)) ∨
      (w.getLsbD 6 = true ∧ w.toNat % 16 ≠ 3)) → ∀ i : Instr, w &&& i.row.mask ≠ i.row.pattern) ∧
  ∀ (s : State) (rest : List Input) (w : Word), (∀ i : Instr, w &&& i.row.mask ≠ i.row.pattern) →
    (s.busy = false → s.inputs = .write 4 0x00020 w :: rest →
      step s = .next { s with pend := some w, inputs := rest, responses := .writeOkay :: s.responses }) ∧
    (s.pend = some w → s.inputs = .engine :: rest →
      step s = .next { s with inputs := rest, pend := none, err := true, errCode := some .illegalCmd, errInfo := w })

/-- Some words of the decode table of 95_test_vectors.md section 9. -/
def Obligations.SampleWordsDecode : Prop :=
  decode 0x00 = .ok .nop ∧ decode 0x01 = .ok .encc ∧ decode 0x02 = .ok .decc ∧ decode 0x31 = .ok (.encv true) ∧
    decode 0x12 = .ok (.decv false) ∧ decode 0x43 = .ok (.train true) ∧ decode 0x04 = .ok .search ∧
    decode 0x05 = .ok .hack ∧ (∀ i, decode 0x51 ≠ .ok i) ∧ ∀ i, decode 0x80000001 ≠ .ok i

/-- R300: the completion step runs the command whose word is in flight, whether the engine's turn comes in the list of
inputs or because no input is left. -/
def Obligations.StepRunsTheCommandInFlight : Prop :=
  ∀ (s : State) (w : Word) (i : Instr), s.pend = some w → decode w = .ok i →
    (∀ rest, s.inputs = .engine :: rest → step s = exec i { s with inputs := rest }) ∧
    (s.inputs = [] → step s = exec i s)

/-! ### The alphabet and the shifter -/

/-- R152: `alpha_symbol` is given by its two cases and is the inverse of `alpha_index`. -/
def Obligations.AlphaSymbolInvertsAlphaIndex : Prop :=
  (∀ i < 26, (alphaSymbol i).toNat = 0x61 + i) ∧ (∀ i, 26 ≤ i → i ≤ 51 → (alphaSymbol i).toNat = 0x41 + (i - 26)) ∧
    (∀ i ≤ 51, alphaIndex (alphaSymbol i) = some i) ∧
    ∀ c i, alphaIndex c = some i → i ≤ 51 ∧ alphaSymbol i = c

/-- R153: the shifted symbol's index is base + ((i - base + delta) mod 26) with the non-negative modulus, and a symbol
outside the alphabet is passed through by the cipher engine unchanged. -/
def Obligations.ShiftIsModularWithinThePartition : Prop :=
  (∀ (c : Word) (d : Int) (i : Nat), alphaIndex c = some i →
    ∃ base r : Nat, base = (if i < 26 then 0 else 26) ∧ r < 26 ∧ (26 : Int) ∣ ((i : Int) - base + d) - r ∧
      shift c d = alphaSymbol (base + r) ∧ alphaIndex (shift c d) = some (base + r)) ∧
  ∀ (dir : Direction) (ks : List Int) (cur : Nat) (c : Word), alphaIndex c = none →
    transform dir ks cur [c] = ([c], cur)

/-- R154: case preservation, period, inverse, identity and ENC's three examples. -/
def Obligations.ShifterProperties : Prop :=
  (∀ (c : Word) (d : Int) (i : Nat), alphaIndex c = some i →
    (∃ j, alphaIndex (shift c d) = some j ∧ (j < 26 ↔ i < 26)) ∧
    shift c d = shift c (d % 26) ∧ (∀ q, shift c d = shift c (d + 26 * q)) ∧
    shift (shift c d) (-d) = c ∧ shift c 0 = c) ∧
  shift 0x61 1 = 0x62 ∧ shift 0x61 (-1) = 0x7A ∧ shift 0x5A 1 = 0x41

/-! ### NOP and the cipher commands -/

/-- R161: the word 0 is NOP; NOP sets DONE, clears BUSY and does nothing else, any other word with OP = 0 is illegal, and
from STATUS = 0 it leaves STATUS = 2. -/
def Obligations.NopOnlyCompletes : Prop :=
  decode 0x00000000 = .ok .nop ∧ (∀ s : State, exec .nop s = .next { s with done := true, pend := none }) ∧
  (∀ w : Word, w.toNat % 16 = 0 → w ≠ 0 → ∀ i, decode w ≠ .ok i) ∧
  ∀ s : State, s.statusWord = 0 → ∃ t, exec .nop s = .next t ∧ t.statusWord = 0x00000002

/-- R162: with its text loaded, ENCC completes: every letter of TEXT[0..LEN-1] is shifted by CKEY as a two's complement
integer (00_scope.md R10), every other symbol stays, KCUR becomes 0, and no error is recorded. -/
def Obligations.CaesarEncodeShiftsEveryLetter : Prop :=
  ∀ (s : State) (text : List Word), s.textLoaded text →
    ∃ t, exec .encc s = .next t ∧ t.done = true ∧ t.busy = false ∧ t.err = s.err ∧ t.kcur = 0 ∧
      ∀ i (h : i < text.length), t.ram (.text i) = some (ciphered s.ckey.toInt text[i])

/-- R163: DECC does the same with the negated key. -/
def Obligations.CaesarDecodeShiftsEveryLetterBack : Prop :=
  ∀ (s : State) (text : List Word), s.textLoaded text →
    ∃ t, exec .decc s = .next t ∧ t.done = true ∧ t.busy = false ∧ t.err = s.err ∧ t.kcur = 0 ∧
      ∀ i (h : i < text.length), t.ram (.text i) = some (ciphered (-s.ckey.toInt) text[i])

/-- R164, R156 to R160: with its operands loaded, ENCV completes: the letter at position i is shifted by the sub-key at the
cursor (cur0 + the letters before i) mod KEY_LEN, and KCUR takes (cur0 + all letters) mod KEY_LEN. The sub-key of a key
letter of alphabet index j is j for j < 26 and j - 26 otherwise (R155). -/
def Obligations.VigenereEncodeUsesTheKeyAtTheCursor : Prop :=
  ∀ (s : State) (cont : Bool) (key text : List Word), s.cfg.wellFormed = true → s.keyLoaded key → s.cursorLegal cont →
    s.textLoaded text →
    ∃ t, exec (.encv cont) s = .next t ∧ t.done = true ∧ t.busy = false ∧ t.err = s.err ∧
      t.kcur.toNat = ((if cont then s.kcur.toNat else 0) + letterCount text) % key.length ∧
      ∀ i (h : i < text.length), ∃ (p j : Nat) (hp : p < key.length),
        p = ((if cont then s.kcur.toNat else 0) + letterCount (text.take i)) % key.length ∧
        alphaIndex key[p] = some j ∧ t.ram (.text i) = some (ciphered (if j < 26 then (j : Int) else j - 26) text[i])

/-- R165: DECV does the same with the negated sub-keys. -/
def Obligations.VigenereDecodeUsesTheKeyAtTheCursor : Prop :=
  ∀ (s : State) (cont : Bool) (key text : List Word), s.cfg.wellFormed = true → s.keyLoaded key → s.cursorLegal cont →
    s.textLoaded text →
    ∃ t, exec (.decv cont) s = .next t ∧ t.done = true ∧ t.busy = false ∧ t.err = s.err ∧
      t.kcur.toNat = ((if cont then s.kcur.toNat else 0) + letterCount text) % key.length ∧
      ∀ i (h : i < text.length), ∃ (p j : Nat) (hp : p < key.length),
        p = ((if cont then s.kcur.toNat else 0) + letterCount (text.take i)) % key.length ∧
        alphaIndex key[p] = some j ∧ t.ram (.text i) = some (ciphered (-(if j < 26 then (j : Int) else j - 26)) text[i])

/-- The frame of the cipher commands (R134, R159, R160): besides the status, only TEXT[0..LEN-1] and KCUR change, and on an
error not even those. -/
def Obligations.CipherCommandsChangeOnlyTextAndCursor : Prop :=
  ∀ (i : Instr) (s t : State),
    i ∈ ([.encc, .decc, .encv false, .encv true, .decv false, .decv true] : List Instr) → exec i s = .next t →
    t = { s with mem := t.mem, kcur := t.kcur, pend := none, done := t.done, err := t.err, errCode := t.errCode,
                 errInfo := t.errInfo } ∧
    (∀ a, a < (RamWord.text 0).addr ∨ (RamWord.text s.len.toNat).addr ≤ a →
      Memory.readByte t.mem a = Memory.readByte s.mem a) ∧
    ((t.done = true ∧ t.err = s.err ∧ t.errCode = s.errCode ∧ t.errInfo = s.errInfo) ∨
      (t.mem = s.mem ∧ t.kcur = s.kcur ∧ t.done = s.done ∧ t.err = true))

/-- R166: a decode with the same key and the same starting cursor restores the text an encode wrote. -/
def Obligations.DecodeAfterEncodeRestoresTheText : Prop :=
  (∀ (s : State) (cont : Bool) (key text : List Word), s.cfg.wellFormed = true → s.keyLoaded key → s.cursorLegal cont →
    s.textLoaded text →
    ∃ t u, exec (.encv cont) s = .next t ∧ exec (.decv cont) { t with kcur := s.kcur } = .next u ∧
      ∀ i (h : i < text.length), u.ram (.text i) = some text[i]) ∧
  ∀ (s : State) (text : List Word), s.textLoaded text →
    ∃ t u, exec .encc s = .next t ∧ exec .decc t = .next u ∧
      ∀ i (h : i < text.length), u.ram (.text i) = some text[i]

/-- R167: a text in two pieces, the second continued from the first one's cursor, gives the outputs and the final cursor of
one command over the whole text. -/
def Obligations.ContinuedPiecesEqualOneCommand : Prop :=
  ∀ (cmd : Bool → Instr) (cont : Bool) (s₁ s₂ s₃ t₁ : State) (key as bs : List Word),
    (cmd = .encv ∨ cmd = .decv) → s₁.cfg.wellFormed = true → s₂.cfg = s₁.cfg → s₃.cfg = s₁.cfg →
    s₁.keyLoaded key → s₂.keyLoaded key → s₃.keyLoaded key →
    s₁.textLoaded as → s₂.textLoaded bs → s₃.textLoaded (as ++ bs) →
    s₁.cursorLegal cont → s₃.kcur = s₁.kcur → exec (cmd cont) s₁ = .next t₁ → s₂.kcur = t₁.kcur →
    ∃ t₂ t₃, exec (cmd true) s₂ = .next t₂ ∧ exec (cmd cont) s₃ = .next t₃ ∧ t₂.err = s₂.err ∧ t₃.err = s₃.err ∧
      t₃.kcur = t₂.kcur ∧ (∀ i < as.length, t₃.ram (.text i) = t₁.ram (.text i)) ∧
      ∀ i < bs.length, t₃.ram (.text (as.length + i)) = t₂.ram (.text i)

/-! ### Errors -/

/-- R302: a command that ends without error sets DONE and leaves ERR, ERR_CODE and ERR_INFO; one that raises an error writes
ERR, ERR_CODE, ERR_INFO and BUSY and nothing else. -/
def Obligations.ErrorsArePreciseAndAtomic : Prop :=
  ∀ (s t : State) (w : Word) (rest : List Input), s.pend = some w → s.inputs = .engine :: rest → step s = .next t →
    t.busy = false ∧
    ((t.done = true ∧ t.err = s.err ∧ t.errCode = s.errCode ∧ t.errInfo = s.errInfo) ∨
      ∃ code info, t = { s with inputs := rest, pend := none, err := true, errCode := some code, errInfo := info })

/-- R303, codes 0x10 to 0x13: the key errors of ENCV and DECV in their order, whatever LEN and TEXT are. -/
def Obligations.VigenereKeyErrors : Prop :=
  ∀ (s : State) (cont : Bool) (i : Instr), i = .encv cont ∨ i = .decv cont →
    (s.keyLen = 0 →
      exec i s = .next { s with pend := none, err := true, errCode := some .keyEmpty, errInfo := 0 }) ∧
    (s.keyLen ≠ 0 → s.cfg.keyDepth < s.keyLen.toNat →
      exec i s = .next { s with pend := none, err := true, errCode := some .keyLenRange, errInfo := s.keyLen.setWidth 32 }) ∧
    (∀ (j : Nat) (c : Word), s.keyLen.toNat ≤ s.cfg.keyDepth → j < s.keyLen.toNat →
      (∀ k < j, ∃ c, s.ram (.key k) = some c ∧ (alphaIndex c).isSome) → s.ram (.key j) = some c → alphaIndex c = none →
      exec i s = .next { s with pend := none, err := true, errCode := some .keySymbol, errInfo := BitVec.ofNat 32 j }) ∧
    (∀ key, s.keyLoaded key → cont = true → s.keyLen.toNat ≤ s.kcur.toNat →
      exec i s = .next { s with pend := none, err := true, errCode := some .keyCursor, errInfo := s.kcur.setWidth 32 })

/-- R303, codes 0x20 to 0x23: the model errors of SEARCH and HACK in their order, whatever LEN and TEXT are. -/
def Obligations.ReferenceModelErrors : Prop :=
  ∀ (s : State) (i : Instr), i = .search ∨ i = .hack →
    (s.cfg.refDepth < s.refLen.toNat →
      exec i s = .next { s with pend := none, err := true, errCode := some .modelLenRange, errInfo := s.refLen.setWidth 32 }) ∧
    ∀ (es : List RefEntry) (sym : Word), s.refLen.toNat ≤ s.cfg.refDepth → es.length < s.refLen.toNat → s.refPrefix es →
      s.ram (.refSym es.length) = some sym →
      (0x10FFFF < sym.toNat →
        exec i s = .next { s with pend := none, err := true, errCode := some .modelSymbol,
                                  errInfo := BitVec.ofNat 32 es.length }) ∧
      ∀ freq, sym.toNat ≤ 0x10FFFF → s.ram (.refFreq es.length) = some freq →
        (2 ^ 31 < freq.toNat →
          exec i s = .next { s with pend := none, err := true, errCode := some .modelFreq,
                                    errInfo := BitVec.ofNat 32 es.length }) ∧
        (freq.toNat ≤ 2 ^ 31 → sym ∈ es.map RefEntry.sym →
          exec i s = .next { s with pend := none, err := true, errCode := some .modelDuplicate,
                                    errInfo := BitVec.ofNat 32 es.length })

/-- R303, codes 0x30 and 0x31: the text errors of every command that reads TEXT, once its key or model checks pass. -/
def Obligations.TextErrors : Prop :=
  ∀ (s : State) (i : Instr), s.reachesTextCheck i →
    (s.cfg.textDepth < s.len.toNat →
      exec i s = .next { s with pend := none, err := true, errCode := some .inputLenRange, errInfo := s.len.setWidth 32 }) ∧
    ∀ (k : Nat) (c : Word), s.len.toNat ≤ s.cfg.textDepth → k < s.len.toNat →
      (∀ j < k, ∃ c, s.ram (.text j) = some c ∧ c.toNat ≤ 0x10FFFF) → s.ram (.text k) = some c → 0x10FFFF < c.toNat →
      exec i s = .next { s with pend := none, err := true, errCode := some .inputSymbol, errInfo := BitVec.ofNat 32 k }

/-- R303, codes 0x40 and 0x41: TRAIN stops at the first new symbol with HIST full, and at the first symbol with TOTAL at
2^32 - 1. HACK counts from an empty HIST. -/
def Obligations.CapacityErrors : Prop :=
  (∀ (s : State) (acc : Bool) (text : List Word) (i : Nat) (h : i < text.length), (acc = true → s.histCoherent) →
    s.textLoaded text →
    (distinct (s.startSymbols acc ++ text.take i) = s.cfg.histDepth → text[i] ∉ s.startSymbols acc ++ text.take i →
      s.startTotal acc + i ≤ 2 ^ 32 - 1 →
      exec (.train acc) s = .next { s with pend := none, err := true, errCode := some .capacityHist,
                                           errInfo := BitVec.ofNat 32 i }) ∧
    (distinct (s.startSymbols acc ++ text.take (i + 1)) ≤ s.cfg.histDepth → s.startTotal acc + i = 2 ^ 32 - 1 →
      exec (.train acc) s = .next { s with pend := none, err := true, errCode := some .capacityTotal,
                                           errInfo := BitVec.ofNat 32 i })) ∧
  ∀ (s : State) (ref : List RefEntry) (text : List Word) (i : Nat) (h : i < text.length), s.refLoaded ref →
    s.textLoaded text → distinct (text.take i) = s.cfg.histDepth → text[i] ∉ text.take i →
    exec .hack s = .next { s with pend := none, err := true, errCode := some .capacityHist, errInfo := BitVec.ofNat 32 i }

/-- 93_implementation_defined.md U1, 10_state.md R51: a command whose checks reach a TEXT, KEY or REF word not written since
reset faults on it, and so does a host read of one. (That a scan stops before the words after its first failing check is
read from program P4, log entry 4.) -/
def Obligations.UnwrittenReadsFault : Prop :=
  (∀ (s : State) (i : Instr) (k : Nat), s.reachesTextCheck i → s.len.toNat ≤ s.cfg.textDepth → k < s.len.toNat →
    (∀ j < k, ∃ c, s.ram (.text j) = some c ∧ c.toNat ≤ 0x10FFFF) → s.ram (.text k) = none →
    exec i s = .fault (.unwrittenRead (.text k))) ∧
  (∀ (s : State) (cont : Bool) (i : Instr) (k : Nat), i = .encv cont ∨ i = .decv cont →
    s.keyLen.toNat ≤ s.cfg.keyDepth → k < s.keyLen.toNat →
    (∀ j < k, ∃ c, s.ram (.key j) = some c ∧ (alphaIndex c).isSome) → s.ram (.key k) = none →
    exec i s = .fault (.unwrittenRead (.key k))) ∧
  (∀ (s : State) (i : Instr) (es : List RefEntry), i = .search ∨ i = .hack → s.refLen.toNat ≤ s.cfg.refDepth →
    es.length < s.refLen.toNat → s.refPrefix es → s.ram (.refSym es.length) = none →
    exec i s = .fault (.unwrittenRead (.refSym es.length))) ∧
  (∀ (s : State) (i : Instr) (es : List RefEntry) (sym : Word), i = .search ∨ i = .hack →
    s.refLen.toNat ≤ s.cfg.refDepth → es.length < s.refLen.toNat → s.refPrefix es →
    s.ram (.refSym es.length) = some sym → sym.toNat ≤ 0x10FFFF → s.ram (.refFreq es.length) = none →
    exec i s = .fault (.unwrittenRead (.refFreq es.length))) ∧
  ∀ (s : State) (a : BusAddr) (rest : List Input), s.cfg.wellFormed = true → s.busy = false → a.toNat % 4 = 0 →
    ramByte s.cfg a.toNat → Memory.readWord s.mem a.toNat = none → s.inputs = .read 4 a :: rest →
    ∃ w : RamWord, w.addr = a.toNat ∧ step s = .fault (.unwrittenRead w)

/-! ### TRAIN -/

/-- R200, R202: with its text loaded and its capacities not passed, TRAIN completes: every symbol's count grows by its
occurrences, the entries stand in order of first occurrence, TOTAL grows by LEN. -/
def Obligations.TrainCountsEverySymbol : Prop :=
  ∀ (s : State) (acc : Bool) (text : List Word), (acc = true → s.histCoherent) → s.textLoaded text →
    distinct (s.startSymbols acc ++ text) ≤ s.cfg.histDepth → s.startTotal acc + text.length ≤ 2 ^ 32 - 1 →
    ∃ t, exec (.train acc) s = .next t ∧ t.done = true ∧ t.busy = false ∧ t.err = s.err ∧
      t.total.toNat = s.startTotal acc + text.length ∧
      t.hist.map HistEntry.sym = firstOccurrences (s.startSymbols acc ++ text) ∧
      (∀ c, histCount t.hist c = s.startCount acc c + text.count c) ∧
      t.hist.length = distinct (s.startSymbols acc ++ text)

/-- R203: TRAIN of the empty text gives the empty model and no error, whatever HIST and TOTAL held, and an entry exists only
once TOTAL is at least 1. -/
def Obligations.EmptyTextTrainsTheEmptyModel : Prop :=
  (∀ s : State, s.len = 0 →
    exec (.train false) s = .next { s with hist := [], total := 0, done := true, pend := none }) ∧
  ∀ (s : State) (j : Nat), s.histCoherent → j < s.hist.length → 1 ≤ s.total.toNat

/-- R200: counting a text in two pieces, the second with ACC = 1, gives the model of counting it once. -/
def Obligations.AccumulatedPiecesEqualOneTrain : Prop :=
  ∀ (acc : Bool) (s₁ s₂ s₃ t₁ t₂ : State) (as bs : List Word),
    s₂.cfg = s₁.cfg → s₃.cfg = s₁.cfg → s₁.textLoaded as → s₂.textLoaded bs → s₃.textLoaded (as ++ bs) →
    s₃.hist = s₁.hist → s₃.total = s₁.total → s₂.hist = t₁.hist → s₂.total = t₁.total →
    s₁.done = false → exec (.train acc) s₁ = .next t₁ → t₁.done = true →
    s₂.done = false → exec (.train true) s₂ = .next t₂ → t₂.done = true →
    ∃ t₃, exec (.train acc) s₃ = .next t₃ ∧ t₃.done = true ∧ t₃.err = s₃.err ∧ t₃.hist = t₂.hist ∧ t₃.total = t₂.total

/-- R201: the invariants of the frequency model hold at reset and every step keeps them. -/
def Obligations.FrequencyModelInvariant : Prop :=
  State.reset.histCoherent ∧ ∀ s t : State, s.histCoherent → step s = .next t → t.histCoherent

/-- R204: the readout of HIST[j]'s frequency is floor(COUNT * 2^31 / TOTAL), it lies in 0..2^31, is 2^31 exactly when
HIST_LEN = 1, and 0 exactly when COUNT * 2^31 < TOTAL. -/
def Obligations.FrequencyReadout : Prop :=
  ∀ (s : State) (j : Nat) (h : j < s.hist.length) (a : BusAddr), s.cfg.wellFormed = true → s.histCoherent →
    s.busy = false → a.toNat = 0x04000 + 16 * j + 8 →
    ∃ r, s.busRead 4 a = .ok r ∧ r.toNat = s.hist[j].count.toNat * 2 ^ 31 / s.total.toNat ∧ r.toNat ≤ 2 ^ 31 ∧
      (r.toNat = 2 ^ 31 ↔ s.hist.length = 1) ∧ (r.toNat = 0 ↔ s.hist[j].count.toNat * 2 ^ 31 < s.total.toNat)

/-- R207: after a TRAIN with TOTAL at least 1 the exact frequencies sum to 1, and the readouts to 1.0 within HIST_LEN units
of 2^-31. -/
def Obligations.FrequenciesSumToOne : Prop :=
  ∀ (s t : State) (acc : Bool), s.histCoherent → exec (.train acc) s = .next t → 1 ≤ t.total.toNat →
    (t.hist.map fun e => (e.count.toNat : ℚ) / t.total.toNat).sum = 1 ∧
    2 ^ 31 < (t.hist.map fun e => (freqReadout e.count t.total).toNat).sum + t.hist.length ∧
    (t.hist.map fun e => (freqReadout e.count t.total).toNat).sum ≤ 2 ^ 31

/-! ### SEARCH and HACK -/

/-- R235: TOTAL * ref and COUNT * 2^31 are below 2^63, so every term is, and every score is below 2^73, so that it fits 80
bits. -/
def Obligations.ScoresFitEightyBits : Prop :=
  ∀ (hist : List HistEntry) (total : Word) (ref : List RefEntry) (k : Nat), hist.length ≤ 1024 →
    (∀ e ∈ ref, e.freq.toNat ≤ 2 ^ 31) →
    (∀ c, total.toNat * referenceFrequency ref c < 2 ^ 63) ∧ (∀ e ∈ hist, e.count.toNat * 2 ^ 31 < 2 ^ 63) ∧
      (∀ e ∈ hist, scoreTerm total ref k e < 2 ^ 63) ∧ candidateScore hist total ref k < 2 ^ 73 ∧
      (BitVec.ofNat 80 (candidateScore hist total ref k)).toNat = candidateScore hist total ref k

/-- R230 to R233, R236: with its model loaded, SEARCH completes: SCORE[k] is the exact S(k) for every k, BEST_KEY the
smallest k with the least score, BEST_SCORE its score. -/
def Obligations.SearchScoresEveryShift : Prop :=
  ∀ (s : State) (ref : List RefEntry), s.cfg.wellFormed = true → s.histCoherent → s.refLoaded ref →
    ∃ t, exec .search s = .next t ∧ t.done = true ∧ t.busy = false ∧ t.err = s.err ∧
      t.holdsSearchOf (exactScore s.hist s.total.toNat ref)

/-- R234: the scores SEARCH records are ENC's real-valued scores times TOTAL * 2^31, so that the two order the 26 candidates
alike, ties included; with TOTAL = 0 HIST is empty and both are 0. -/
def Obligations.ExactScoreOrdersAsTheRealScore : Prop :=
  ∀ (s : State) (ref : List RefEntry), s.cfg.wellFormed = true → s.histCoherent → s.refLoaded ref →
    ∃ t, exec .search s = .next t ∧
      (1 ≤ s.total.toNat →
        (∀ k : Fin 26, (t.score[k].toNat : ℚ) = s.total.toNat * 2 ^ 31 * realScore s.hist s.total.toNat ref k.val) ∧
        ∀ k k' : Fin 26, t.score[k].toNat ≤ t.score[k'].toNat ↔
          realScore s.hist s.total.toNat ref k.val ≤ realScore s.hist s.total.toNat ref k'.val) ∧
      (s.total.toNat = 0 → s.hist = [] ∧ ∀ k : Fin 26, t.score[k] = 0 ∧ realScore s.hist s.total.toNat ref k.val = 0)

/-- R240: with its operands loaded and HIST large enough, HACK completes: HIST and TOTAL are the text's model, SCORE,
BEST_KEY and BEST_SCORE those of the search over it, TEXT is decoded with BEST_KEY, KCUR is 0 and CKEY unchanged. -/
def Obligations.HackCountsSearchesAndDecodes : Prop :=
  ∀ (s : State) (ref : List RefEntry) (text : List Word), s.cfg.wellFormed = true → s.refLoaded ref → s.textLoaded text →
    distinct text ≤ s.cfg.histDepth →
    ∃ t, exec .hack s = .next t ∧ t.done = true ∧ t.busy = false ∧ t.err = s.err ∧ t.kcur = 0 ∧ t.ckey = s.ckey ∧
      t.total.toNat = text.length ∧ t.hist.map HistEntry.sym = firstOccurrences text ∧
      (∀ c, histCount t.hist c = text.count c) ∧ t.holdsSearchOf (exactScore t.hist text.length ref) ∧
      ∀ i (h : i < text.length), t.ram (.text i) = some (ciphered (-(t.bestKey.toNat : Int)) text[i])

/-- 42_keysearch.md R240, D29: HACK is TRAIN, then SEARCH, then DECC with CKEY = BEST_KEY, but that CKEY stays the host's. -/
def Obligations.HackEqualsTrainSearchDecode : Prop :=
  ∀ (s : State) (ref : List RefEntry) (text : List Word), s.cfg.wellFormed = true → s.refLoaded ref → s.textLoaded text →
    distinct text ≤ s.cfg.histDepth →
    ∃ a b c, exec (.train false) s = .next a ∧ exec .search a = .next b ∧
      exec .decc { b with ckey := b.bestKey.setWidth 32 } = .next c ∧ exec .hack s = .next { c with ckey := s.ckey }

/-- 42_keysearch.md R242, for two pieces: TRAIN of the first, TRAIN with ACC = 1 of the second, then SEARCH, give HIST,
TOTAL, SCORE, BEST_KEY and BEST_SCORE of one HACK over the whole text, and DECC of each piece with CKEY = BEST_KEY gives
its text. -/
def Obligations.ChunkedHackEqualsOneHack : Prop :=
  ∀ (s₁ s₂ s₃ u t₁ t₂ : State) (ref : List RefEntry) (as bs : List Word), u.cfg.wellFormed = true →
    s₁.cfg = u.cfg → s₂.cfg = u.cfg → s₁.textLoaded as → s₂.textLoaded bs → u.textLoaded (as ++ bs) →
    distinct (as ++ bs) ≤ u.cfg.histDepth → s₃.refLoaded ref → u.refLoaded ref →
    exec (.train false) s₁ = .next t₁ → s₂.hist = t₁.hist → s₂.total = t₁.total →
    exec (.train true) s₂ = .next t₂ → s₃.hist = t₂.hist → s₃.total = t₂.total →
    ∃ t₃ v, exec .search s₃ = .next t₃ ∧ exec .hack u = .next v ∧ t₃.err = s₃.err ∧ v.err = u.err ∧
      v.hist = t₃.hist ∧ v.total = t₃.total ∧ v.score = t₃.score ∧ v.bestKey = t₃.bestKey ∧
      v.bestScore = t₃.bestScore ∧
      ∀ d₁ d₂ : State, d₁.textLoaded as → d₂.textLoaded bs → d₁.ckey = t₃.bestKey.setWidth 32 → d₂.ckey = d₁.ckey →
        ∃ e₁ e₂, exec .decc d₁ = .next e₁ ∧ exec .decc d₂ = .next e₂ ∧
          (∀ i < as.length, v.ram (.text i) = e₁.ram (.text i)) ∧
          ∀ i < bs.length, v.ram (.text (as.length + i)) = e₂.ram (.text i)

/-- R243: for the Caesar encoding of a plaintext with key k0 and a reference equal to the plaintext's frequencies, S(k0) = 0
and HACK gives the plaintext if k0 is the smallest k with S(k) = 0; for a floored reference S(k0) is at most
HIST_LEN * TOTAL. -/
def Obligations.HackRecoversTheKeyOfAnExactModel : Prop :=
  ∀ (s : State) (ref : List RefEntry) (plain : List Word) (k₀ : Fin 26), s.cfg.wellFormed = true → s.refLoaded ref →
    s.textLoaded (plain.map (ciphered (k₀.val : Int))) →
    distinct (plain.map (ciphered (k₀.val : Int))) ≤ s.cfg.histDepth →
    ((∀ c ∈ plain, plain.length * referenceFrequency ref c = plain.count c * 2 ^ 31) →
      ∃ t, exec .hack s = .next t ∧ t.score[k₀] = 0 ∧ t.bestScore = 0 ∧ t.bestKey.toNat ≤ k₀.val ∧
        ((∀ k : Fin 26, k < k₀ → t.score[k] ≠ 0) →
          t.bestKey.toNat = k₀.val ∧ ∀ i (h : i < plain.length), t.ram (.text i) = some plain[i])) ∧
    ((∀ c ∈ plain, referenceFrequency ref c = plain.count c * 2 ^ 31 / plain.length) →
      ∃ t, exec .hack s = .next t ∧ t.score[k₀].toNat ≤ t.hist.length * t.total.toNat)

/-- R233 over runs: every step keeps BEST_KEY the first minimum of SCORE and BEST_SCORE its score. -/
def Obligations.BestKeyStaysTheFirstMinimum : Prop :=
  ∀ s t : State, s.cfg.wellFormed = true → s.histCoherent → s.bestCoherent → step s = .next t → t.bestCoherent

/-- The frame of TRAIN, SEARCH and HACK (R134, R202, R236, R240): besides the status, TRAIN changes HIST and TOTAL only,
SEARCH the score registers only, HACK those, KCUR and TEXT[0..LEN-1]; on an error none of them changes. -/
def Obligations.TrainSearchHackFrame : Prop :=
  (∀ (acc : Bool) (s t : State), exec (.train acc) s = .next t →
    t = { s with hist := t.hist, total := t.total, pend := none, done := t.done, err := t.err, errCode := t.errCode,
                 errInfo := t.errInfo } ∧
    ((t.done = true ∧ t.err = s.err ∧ t.errCode = s.errCode ∧ t.errInfo = s.errInfo) ∨
      (t.hist = s.hist ∧ t.total = s.total ∧ t.done = s.done ∧ t.err = true))) ∧
  (∀ s t : State, exec .search s = .next t →
    t = { s with score := t.score, bestKey := t.bestKey, bestScore := t.bestScore, pend := none, done := t.done,
                 err := t.err, errCode := t.errCode, errInfo := t.errInfo } ∧
    ((t.done = true ∧ t.err = s.err ∧ t.errCode = s.errCode ∧ t.errInfo = s.errInfo) ∨
      (t.score = s.score ∧ t.bestKey = s.bestKey ∧ t.bestScore = s.bestScore ∧ t.done = s.done ∧ t.err = true))) ∧
  ∀ s t : State, exec .hack s = .next t →
    t = { s with hist := t.hist, total := t.total, score := t.score, bestKey := t.bestKey, bestScore := t.bestScore,
                 kcur := t.kcur, mem := t.mem, pend := none, done := t.done, err := t.err, errCode := t.errCode,
                 errInfo := t.errInfo } ∧
    (∀ a, a < (RamWord.text 0).addr ∨ (RamWord.text s.len.toNat).addr ≤ a →
      Memory.readByte t.mem a = Memory.readByte s.mem a) ∧
    ((t.done = true ∧ t.err = s.err ∧ t.errCode = s.errCode ∧ t.errInfo = s.errInfo) ∨
      (t = { s with pend := none, err := true, errCode := t.errCode, errInfo := t.errInfo }))

/-! ### Reset -/

/-- R341, R65: the reset values. -/
def Obligations.ResetValues : Prop :=
  State.reset.ckey = 0 ∧ State.reset.len = 0 ∧ State.reset.keyLen = 0 ∧ State.reset.kcur = 0 ∧ State.reset.refLen = 0 ∧
    State.reset.histLen = 0 ∧ State.reset.total = 0 ∧ State.reset.bestKey = 0 ∧ State.reset.bestScore = 0 ∧
    (∀ k : Fin 26, State.reset.score[k] = 0) ∧ State.reset.statusWord = 0 ∧ State.reset.irqEnWord = 0 ∧
    State.reset.errInfo = 0 ∧ State.reset.irq = false ∧
    State.reset.busRead 4 0x00000 = .ok 0x454E4331 ∧ State.reset.busRead 4 0x00004 = .ok 1 ∧
    State.reset.busRead 4 0x00008 = .ok 26 ∧ State.reset.busRead 4 0x0000C = .ok 4096 ∧
    State.reset.busRead 4 0x00010 = .ok 256 ∧ State.reset.busRead 4 0x00014 = .ok 256 ∧
    State.reset.busRead 4 0x00018 = .ok 256

/-- R340, R342: reset, at any time, gives every register its reset value, forgets every write of TEXT, KEY and REF and
abandons the command in flight, which sets neither DONE nor ERR and leaves no effect. (That the inputs still to come, the
responses given and the depths stay is the model's own, log entries 1, 2 and 8.) -/
def Obligations.ResetAbandonsTheCommand : Prop :=
  ∀ (s : State) (rest : List Input), s.inputs = .reset :: rest →
    ∃ t, step s = .next t ∧ t.busy = false ∧ t.done = false ∧ t.err = false ∧ t.irq = false ∧ (∀ w, t.ram w = none) ∧
      t = { State.reset with cfg := s.cfg, inputs := rest, responses := s.responses }

/-! ### The bus -/

/-- R94, R95, R97, R98, R350: a read gets an ERROR response exactly when its width is not 4 bytes, its address is misaligned
or unmapped, or the busy rule forbids it. Otherwise it changes no state of the machine: the value is recorded as the
response, or the word was never written (U1). -/
def Obligations.ReadsGetErrorExactlyWhenForbidden : Prop :=
  ∀ (s : State) (bytes : Nat) (a : BusAddr) (rest : List Input), s.cfg.wellFormed = true →
    s.inputs = .read bytes a :: rest →
    ((bytes ≠ 4 ∨ a.toNat % 4 ≠ 0 ∨ ¬mappedAddress s.cfg a.toNat ∨
        (s.busy = true ∧ a.toNat ∉ readableWhileBusy)) →
      ∃ why, step s = .fault (.busError why)) ∧
    (bytes = 4 → a.toNat % 4 = 0 → mappedAddress s.cfg a.toNat → (s.busy = true → a.toNat ∈ readableWhileBusy) →
      (∃ v, s.busRead bytes a = .ok v ∧
        step s = .next { s with inputs := rest, responses := .readOkay v :: s.responses }) ∨
      ∃ w : RamWord, step s = .fault (.unwrittenRead w) ∧ w.addr = a.toNat ∧ s.ram w = none)

/-- R94, R96, R97, R98, R350: the same for a write; one that gets no ERROR response is OKAY. -/
def Obligations.WritesGetErrorExactlyWhenForbidden : Prop :=
  ∀ (s : State) (bytes : Nat) (a : BusAddr) (v : Word) (rest : List Input), s.cfg.wellFormed = true →
    s.inputs = .write bytes a v :: rest →
    ((bytes ≠ 4 ∨ a.toNat % 4 ≠ 0 ∨ ¬mappedAddress s.cfg a.toNat ∨
        (s.busy = true ∧ a.toNat ∉ writableWhileBusy)) →
      ∃ why, step s = .fault (.busError why)) ∧
    (bytes = 4 → a.toNat % 4 = 0 → mappedAddress s.cfg a.toNat → (s.busy = true → a.toNat ∈ writableWhileBusy) →
      ∃ t, step s = .next t ∧ t.inputs = rest ∧ t.responses = .writeOkay :: s.responses)

/-- R31, R32: the identification and configuration registers always read their constants, and writes to them are ignored. -/
def Obligations.IdentificationRegisters : Prop :=
  ∀ s : State,
    s.busRead 4 0x00000 = .ok 0x454E4331 ∧ s.busRead 4 0x00004 = .ok 0x00000001 ∧ s.busRead 4 0x00008 = .ok 26 ∧
    s.busRead 4 0x0000C = .ok (BitVec.ofNat 32 s.cfg.textDepth) ∧
    s.busRead 4 0x00010 = .ok (BitVec.ofNat 32 s.cfg.keyDepth) ∧
    s.busRead 4 0x00014 = .ok (BitVec.ofNat 32 s.cfg.refDepth) ∧
    s.busRead 4 0x00018 = .ok (BitVec.ofNat 32 s.cfg.histDepth) ∧
    ∀ a ∈ ([0x00000, 0x00004, 0x00008, 0x0000C, 0x00010, 0x00014, 0x00018] : List BusAddr), ∀ v, s.busy = false →
      s.busWrite 4 a v = .ok s

/-- R35: a write of CMD while idle latches the word and sets BUSY and does nothing else; it is refused while BUSY = 1; a
read of CMD returns 0. -/
def Obligations.CmdWriteStartsACommand : Prop :=
  ∀ (s : State) (v : Word) (rest : List Input),
    (s.busy = false → s.inputs = .write 4 0x00020 v :: rest →
      ∃ t, step s = .next t ∧ t.busy = true ∧
        t = { s with pend := some v, inputs := rest, responses := .writeOkay :: s.responses }) ∧
    (s.busy = true → s.inputs = .write 4 0x00020 v :: rest → step s = .fault (.busError .busy)) ∧
    (s.busy = false → s.busRead 4 0x00020 = .ok 0)

/-- R37: a write of STATUS, busy or not, clears DONE by bit 1 and ERR, ERR_CODE and ERR_INFO by bit 2, and nothing else. -/
def Obligations.StatusWriteClearsByBits : Prop :=
  ∀ (s : State) (v : Word) (rest : List Input), s.inputs = .write 4 0x00024 v :: rest →
    step s = .next { s with
      done := if v.getLsbD 1 then false else s.done
      err := if v.getLsbD 2 then false else s.err
      errCode := if v.getLsbD 2 then none else s.errCode
      errInfo := if v.getLsbD 2 then 0 else s.errInfo
      inputs := rest
      responses := .writeOkay :: s.responses }

/-- R36, R39, R301: the fields of STATUS and ERR_INFO as a read returns them, busy or not, and the numbers of the error
codes. -/
def Obligations.StatusReadShowsItsFields : Prop :=
  (∀ s : State, ∃ v, s.busRead 4 0x00024 = .ok v ∧ v.getLsbD 0 = s.busy ∧ v.getLsbD 1 = s.done ∧ v.getLsbD 2 = s.err ∧
    v.extractLsb' 3 5 = 0 ∧ v.extractLsb' 16 16 = 0 ∧ (s.errCode = none → v.extractLsb' 8 8 = 0x00) ∧
    ∀ c, s.errCode = some c → v.extractLsb' 8 8 = c.number) ∧
  (∀ s : State, s.busRead 4 0x0002C = .ok s.errInfo) ∧
  ErrCode.illegalCmd.number = 0x01 ∧ ErrCode.keyEmpty.number = 0x10 ∧ ErrCode.keyLenRange.number = 0x11 ∧
  ErrCode.keySymbol.number = 0x12 ∧ ErrCode.keyCursor.number = 0x13 ∧ ErrCode.modelLenRange.number = 0x20 ∧
  ErrCode.modelSymbol.number = 0x21 ∧ ErrCode.modelFreq.number = 0x22 ∧ ErrCode.modelDuplicate.number = 0x23 ∧
  ErrCode.inputLenRange.number = 0x30 ∧ ErrCode.inputSymbol.number = 0x31 ∧ ErrCode.capacityHist.number = 0x40 ∧
  ErrCode.capacityTotal.number = 0x41

/-- R38: IRQ_EN stores bits 1 and 2 of a write, busy or not, and reads them back with the reserved bits 0; at reset it
is 0. -/
def Obligations.IrqEnableReadWrite : Prop :=
  State.reset.irqEnWord = 0 ∧ ∀ (s : State) (v : Word),
    s.busWrite 4 0x00028 v = .ok { s with doneIe := v.getLsbD 1, errIe := v.getLsbD 2 } ∧
    ∃ t, s.busWrite 4 0x00028 v = .ok t ∧ t.busRead 4 0x00028 = .ok (v &&& 0x00000006)

/-- R310, R311: irq is high exactly when a source is pending and enabled; a source stays pending until the host writes 1 to
its STATUS bit or the block is reset. -/
def Obligations.InterruptSourcesClearOnlyByHostOrReset : Prop :=
  (∀ s : State, s.irq = true ↔ (s.done = true ∧ s.doneIe = true) ∨ (s.err = true ∧ s.errIe = true)) ∧
  ∀ s t : State, step s = .next t →
    (s.done = true → t.done = false →
      (∃ v rest, s.inputs = .write 4 0x00024 v :: rest ∧ v.getLsbD 1 = true) ∨ ∃ rest, s.inputs = .reset :: rest) ∧
    (s.err = true → t.err = false →
      (∃ v rest, s.inputs = .write 4 0x00024 v :: rest ∧ v.getLsbD 2 = true) ∨ ∃ rest, s.inputs = .reset :: rest)

/-- R40 to R44, R49: a write of an operand register while idle keeps the low bits, changes no other register, and reads back
zero-extended. -/
def Obligations.OperandRegisterReadWrite : Prop :=
  ∀ (s : State) (v : Word), s.busy = false →
    (s.busWrite 4 0x00030 v = .ok { s with len := v.setWidth 17 } ∧
      s.busWrite 4 0x00034 v = .ok { s with ckey := v } ∧
      s.busWrite 4 0x00038 v = .ok { s with keyLen := v.setWidth 11 } ∧
      s.busWrite 4 0x0003C v = .ok { s with kcur := v.setWidth 10 } ∧
      s.busWrite 4 0x00040 v = .ok { s with refLen := v.setWidth 11 }) ∧
    ∀ a n, (a, n) ∈ ([(0x00030, 17), (0x00034, 32), (0x00038, 11), (0x0003C, 10), (0x00040, 11)] : List (BusAddr × Nat)) →
      ∃ t r, s.busWrite 4 a v = .ok t ∧ t.busRead 4 a = .ok r ∧ r.toNat = v.toNat % 2 ^ n

/-- R60 to R62, R96, R104: a write of a TEXT, KEY or REF word while idle is what a read of it returns; a read of any other
address, and every other piece of state, is as before. -/
def Obligations.ArrayReadAfterWrite : Prop :=
  ∀ (s : State) (a : BusAddr) (v : Word), s.cfg.wellFormed = true → s.busy = false → a.toNat % 4 = 0 →
    ramByte s.cfg a.toNat →
    ∃ t, s.busWrite 4 a v = .ok t ∧ t = { s with mem := t.mem } ∧ t.busRead 4 a = .ok v ∧
      (∀ bytes b, b ≠ a → t.busRead bytes b = s.busRead bytes b) ∧
      ∀ b, b < a.toNat ∨ a.toNat + 4 ≤ b → Memory.readByte t.mem b = Memory.readByte s.mem b

/-- R49, R96: a write of a read-only register or window while idle is OKAY and ignored. -/
def Obligations.ReadOnlyWritesAreIgnored : Prop :=
  ∀ (s : State) (a : BusAddr) (v : Word), s.cfg.wellFormed = true → s.busy = false → a.toNat % 4 = 0 →
    readOnlyAddress s.cfg a.toNat → s.busWrite 4 a v = .ok s

/-- R45 to R48, R63, R64: the result registers and the words of the HIST and SCORE windows as the host reads them while idle. -/
def Obligations.ResultWindowsReadTheResults : Prop :=
  ∀ s : State, s.busy = false → s.cfg.wellFormed = true →
    s.busRead 4 0x00048 = .ok s.total ∧ s.busRead 4 0x0004C = .ok (s.bestKey.setWidth 32) ∧
    (s.hist.length ≤ s.cfg.histDepth → ∃ n, s.busRead 4 0x00044 = .ok n ∧ n.toNat = s.hist.length) ∧
    (∃ lo mid hi, s.busRead 4 0x00050 = .ok lo ∧ s.busRead 4 0x00054 = .ok mid ∧ s.busRead 4 0x00058 = .ok hi ∧
      s.bestScore.toNat = hi.toNat * 2 ^ 64 + mid.toNat * 2 ^ 32 + lo.toNat) ∧
    (∀ (k : Fin 26) (a : BusAddr), a.toNat = 0x00800 + 16 * k.val →
      ∃ lo mid hi, s.busRead 4 a = .ok lo ∧ s.busRead 4 (a + 4) = .ok mid ∧ s.busRead 4 (a + 8) = .ok hi ∧
        s.busRead 4 (a + 12) = .ok 0 ∧ s.score[k].toNat = hi.toNat * 2 ^ 64 + mid.toNat * 2 ^ 32 + lo.toNat) ∧
    (∀ (j : Nat) (a : BusAddr) (h : j < s.hist.length), j < s.cfg.histDepth → a.toNat = 0x04000 + 16 * j →
      s.busRead 4 a = .ok s.hist[j].sym ∧ s.busRead 4 (a + 4) = .ok s.hist[j].count ∧
        s.busRead 4 (a + 8) = .ok (freqReadout s.hist[j].count s.total) ∧ s.busRead 4 (a + 12) = .ok 0) ∧
    ∀ (j w : Nat) (a : BusAddr), s.hist.length ≤ j → j < s.cfg.histDepth → w < 4 → a.toNat = 0x04000 + 16 * j + 4 * w →
      s.busRead 4 a = .ok 0

/-! ### Whole-machine rules -/

/-- R105, R350, R351: while a command is in flight, no host transaction changes an operand, a result or the command word. -/
def Obligations.OperandsHoldWhileBusy : Prop :=
  ∀ (s t : State) (i : Input) (rest : List Input), s.busy = true → s.inputs = i :: rest → i ≠ .engine → i ≠ .reset →
    step s = .next t →
    t = { s with done := t.done, err := t.err, errCode := t.errCode, errInfo := t.errInfo, doneIe := t.doneIe,
                 errIe := t.errIe, inputs := rest, responses := t.responses }

/-- R300, R356: the engine's turn ends the command in flight, with DONE or ERR set, unless it reads a word not written since
reset. (With no input left the turn comes by itself: log entry 1.) -/
def Obligations.EngineTurnEndsTheCommand : Prop :=
  ∀ s : State, s.busy = true → (s.inputs = [] ∨ ∃ rest, s.inputs = .engine :: rest) →
    (∃ t, step s = .next t ∧ t.busy = false ∧ (t.done = true ∨ t.err = true)) ∨
      ∃ w, step s = .fault (.unwrittenRead w) ∧ s.ram w = none

/-- R15, R136: a step never refuses, and the only faults are bus errors of host transactions and reads of words not written
since reset. -/
def Obligations.StepsNeverRefuse : Prop :=
  ∀ s : State, (∀ q, step s ≠ .refused q) ∧
    ∀ why, step s = .fault (.busError why) →
      ∃ rest, (∃ bytes a, s.inputs = .read bytes a :: rest) ∨ ∃ bytes a v, s.inputs = .write bytes a v :: rest

/-- R8, R65: no step changes the depths. -/
def Obligations.ConfigurationIsConstant : Prop :=
  ∀ s t : State, step s = .next t → t.cfg = s.cfg

/-- R51, R60 to R62, R92: every step keeps the RAM in its canonical form, within TEXT, KEY and REF, and written by whole
words. -/
def Obligations.RamInvariant : Prop :=
  ∀ s t : State, s.ramCoherent → step s = .next t → t.ramCoherent

/-- R36, R37, R39: every step keeps ERR_CODE 0x00 and ERR_INFO 0 while ERR = 0, and a code recorded while ERR = 1. -/
def Obligations.ErrorRegistersInvariant : Prop :=
  ∀ s t : State, s.errorsCoherent → step s = .next t → t.errorsCoherent

/-- The invariants hold at reset (R340, R341), with the depths R8 states, and no command is in flight. (That no input is
listed at reset, so that the program has stopped, is the model's own choice, log entries 1, 14 and 19.) -/
def Obligations.InvariantsHoldAtReset : Prop :=
  State.reset.ramCoherent ∧ State.reset.errorsCoherent ∧ State.reset.histCoherent ∧ State.reset.bestCoherent ∧
    State.reset.cfg.wellFormed = true ∧ State.reset.stopped
end

