-- ==== Sys2Proof/Laws/Alphabet.lean ====
section
/-! SUPPORT. The laws of the alphabet and the shifter (40_cipher.md R150 to R155). -/

namespace Sys2Proof.Machine

theorem alphaIndex_eq_some_iff {c : Word} {i : Nat} :
    alphaIndex c = some i ↔ (i < 26 ∧ c.toNat = 0x61 + i) ∨ (26 ≤ i ∧ i < 52 ∧ c.toNat = 0x41 + (i - 26)) := by
  unfold alphaIndex
  split
  · simp only [Option.some.injEq]; omega
  · split
    · simp only [Option.some.injEq]; omega
    · simp only [reduceCtorEq, false_iff]; omega

theorem alphaIndex_isSome_iff {c : Word} : (alphaIndex c).isSome ↔ ∃ i, alphaIndex c = some i :=
  Option.isSome_iff_exists

theorem alphaIndex_lt {c : Word} {i : Nat} (h : alphaIndex c = some i) : i < 52 := by
  rw [alphaIndex_eq_some_iff] at h; omega

theorem toNat_alphaSymbol {i : Nat} (h : i < 52) :
    (alphaSymbol i).toNat = if i < 26 then 0x61 + i else 0x41 + (i - 26) := by
  unfold alphaSymbol
  split
  · rw [BitVec.toNat_ofNat, Nat.mod_eq_of_lt (by omega)]
  · rw [BitVec.toNat_ofNat, Nat.mod_eq_of_lt (by omega)]

theorem alphaIndex_alphaSymbol {i : Nat} (h : i < 52) : alphaIndex (alphaSymbol i) = some i := by
  rw [alphaIndex_eq_some_iff, toNat_alphaSymbol h]
  split <;> omega

theorem alphaSymbol_alphaIndex {c : Word} {i : Nat} (h : alphaIndex c = some i) : alphaSymbol i = c := by
  apply BitVec.eq_of_toNat_eq
  rw [toNat_alphaSymbol (alphaIndex_lt h)]
  rw [alphaIndex_eq_some_iff] at h
  split <;> omega

theorem shift_eq {c : Word} {i : Nat} (h : alphaIndex c = some i) (d : Int) :
    shift c d = alphaSymbol (partitionBase i + ((i - partitionBase i + d) % 26).toNat) := by
  unfold shift; rw [h]

/-- The index of a shifted symbol (R153). -/
theorem alphaIndex_shift {c : Word} {i : Nat} (h : alphaIndex c = some i) (d : Int) :
    alphaIndex (shift c d) = some (partitionBase i + ((i - partitionBase i + d) % 26).toNat) := by
  rw [shift_eq h]
  apply alphaIndex_alphaSymbol
  have := alphaIndex_lt h
  unfold partitionBase
  split <;> omega

theorem alphaIndex_shift_isSome (c : Word) (d : Int) : (alphaIndex (shift c d)).isSome = (alphaIndex c).isSome := by
  cases h : alphaIndex c with
  | none => unfold shift; simp [h]
  | some i => rw [alphaIndex_shift h]; rfl

theorem shift_shift (c : Word) (d e : Int) : shift (shift c d) e = shift c (d + e) := by
  cases h : alphaIndex c with
  | none =>
    have h1 : shift c d = c := by unfold shift; rw [h]
    have h2 : shift c (d + e) = c := by unfold shift; rw [h]
    rw [h1, h2]; unfold shift; rw [h]
  | some i =>
    rw [shift_eq (alphaIndex_shift h d), shift_eq h]
    have := alphaIndex_lt h
    congr 1
    unfold partitionBase
    split <;> split <;> omega

theorem shift_zero (c : Word) : shift c 0 = c := by
  cases h : alphaIndex c with
  | none => unfold shift; rw [h]
  | some i =>
    rw [shift_eq h]
    have := alphaIndex_lt h
    have e : partitionBase i + ((i - partitionBase i + (0 : Int)) % 26).toNat = i := by
      unfold partitionBase; split <;> omega
    rw [e, alphaSymbol_alphaIndex h]

theorem shift_neg_shift (c : Word) (d : Int) : shift (shift c d) (-d) = c := by
  rw [shift_shift, Int.add_right_neg, shift_zero]

theorem shift_shift_neg (c : Word) (d : Int) : shift (shift c (-d)) d = c := by
  rw [shift_shift, Int.add_left_neg, shift_zero]

theorem shift_injective (d : Int) : Function.Injective (fun c => shift c d) := fun a b h => by
  have := congrArg (fun c => shift c (-d)) h
  simpa only [shift_neg_shift] using this

/-- Only the delta modulo 26 matters (R154 (b)). -/
theorem shift_add_mul (c : Word) (d q : Int) : shift c (d + 26 * q) = shift c d := by
  unfold shift
  split
  · rename_i i h
    congr 3
    omega
  · rfl

/-- A symbol at most 0x10FFFF stays so when shifted. -/
theorem toNat_shift_le {c : Word} (d : Int) (h : c.toNat ≤ 0x10FFFF) : (shift c d).toNat ≤ 0x10FFFF := by
  cases hc : alphaIndex c with
  | none => unfold shift; rw [hc]; exact h
  | some i =>
    have := alphaIndex_shift hc d
    rw [alphaIndex_eq_some_iff] at this
    omega

theorem subkey_lt (c : Word) : subkey c < 26 := by
  unfold subkey
  split
  · rename_i j h
    have := alphaIndex_lt h
    split <;> omega
  · omega

/-- The sub-key of a letter, by its alphabet index (R155). -/
theorem subkey_eq {c : Word} {j : Nat} (h : alphaIndex c = some j) :
    (subkey c : Int) = if j < 26 then (j : Int) else (j : Int) - 26 := by
  simp only [subkey, h]
  split <;> omega

/-- `signed32` is the two's complement reading (00_scope.md R10). -/
theorem signed32_eq_toInt (w : Word) : signed32 w = w.toInt := by
  rw [signed32, BitVec.toInt_eq_toNat_cond]
  split <;> split <;> omega

end Sys2Proof.Machine
end

