-- ==== Sys2Proof/Laws/Memory.lean ====
section
/-! SUPPORT. The laws of the RAM arrays: read after write, writes leave other places alone, and every operation keeps the
canonical form. -/

namespace Sys2Proof.Machine

theorem Memory.readByte_writeByte (m : Memory) (a b : Nat) (v : Byte) :
    Memory.readByte (Memory.writeByte m a v) b = if b = a then some v else Memory.readByte m b := by
  induction m with
  | nil => simp [Memory.writeByte, Memory.readByte, eq_comm]
  | cons x rest ih =>
    obtain ⟨k, w⟩ := x
    unfold Memory.writeByte
    split
    · simp [Memory.readByte, eq_comm]
    · split
      · rename_i h; subst h; by_cases hb : b = a
        · simp [Memory.readByte, hb]
        · simp [Memory.readByte, hb, Ne.symm hb]
      · rename_i h; by_cases hk : k = b
        · subst hk; simp [Memory.readByte, Ne.symm h]
        · simp [Memory.readByte, hk, ih]

theorem Memory.mem_writeByte {m : Memory} {a : Nat} {v : Byte} {x : Host.Cell}
    (h : x ∈ Memory.writeByte m a v) : x = (a, v) ∨ x ∈ m := by
  induction m with
  | nil => simpa [Memory.writeByte] using h
  | cons y rest ih =>
    obtain ⟨k, w⟩ := y
    unfold Memory.writeByte at h
    split at h
    · simpa using h
    · split at h
      · simp at h ⊢; tauto
      · simp at h ⊢
        rcases h with h | h
        · tauto
        · rcases ih h with h | h <;> tauto

theorem Memory.wf_writeByte {m : Memory} (h : Memory.wf m) (a : Nat) (v : Byte) :
    Memory.wf (Memory.writeByte m a v) := by
  induction m with
  | nil => simp [Memory.writeByte]
  | cons y rest ih =>
    obtain ⟨k, w⟩ := y
    rw [Memory.wf, List.pairwise_cons] at h
    unfold Memory.writeByte
    split
    · rename_i hlt
      refine List.pairwise_cons.2 ⟨?_, List.pairwise_cons.2 h⟩
      intro x hx
      rcases List.mem_cons.1 hx with rfl | hx
      · exact hlt
      · exact Nat.lt_trans hlt (h.1 x hx)
    · split
      · rename_i heq
        subst heq
        exact List.pairwise_cons.2 h
      · rename_i hlt hne
        refine List.pairwise_cons.2 ⟨?_, ih h.2⟩
        intro x hx
        rcases Memory.mem_writeByte hx with rfl | hx
        · exact Nat.lt_of_le_of_ne (Nat.le_of_not_lt hlt) (Ne.symm hne)
        · exact h.1 x hx

theorem Memory.readByte_isSome_iff (m : Memory) (a : Nat) :
    (Memory.readByte m a).isSome ↔ ∃ x ∈ m, x.1 = a := by
  induction m with
  | nil => simp [Memory.readByte]
  | cons y rest ih =>
    obtain ⟨k, w⟩ := y
    by_cases hk : k = a
    · simp [Memory.readByte, hk]
    · simp [Memory.readByte, hk, ih]

theorem Memory.readByte_writeWord (m : Memory) (a b : Nat) (v : Word) :
    Memory.readByte (Memory.writeWord m a v) b =
      if a ≤ b ∧ b < a + 4 then some (v.extractLsb' (8 * (b - a)) 8) else Memory.readByte m b := by
  simp only [Memory.writeWord, Memory.readByte_writeByte]
  by_cases h3 : b = a + 3
  · subst h3; simp
  by_cases h2 : b = a + 2
  · subst h2; simp
  by_cases h1 : b = a + 1
  · subst h1; simp
  by_cases h0 : b = a
  · subst h0; simp
  · have : ¬(a ≤ b ∧ b < a + 4) := by omega
    simp [h0, h1, h2, h3, this]

theorem Memory.readWord_writeWord (m : Memory) (a : Nat) (v : Word) :
    Memory.readWord (Memory.writeWord m a v) a = some v := by
  have h (k : Nat) (hk : k < 4) : a ≤ a + k ∧ a + k < a + 4 := by omega
  simp only [Memory.readWord, Memory.readByte_writeWord, h 1, h 2, h 3, Nat.lt_add_of_pos_right, Nat.le_refl,
    Nat.add_sub_cancel_left, Nat.sub_self, and_self, if_true, Nat.reduceLT, Nat.reduceMul, Option.some.injEq, Nat.mul_zero]
  ext i hi
  simp only [BitVec.getElem_append, BitVec.getElem_extractLsb']
  split
  · simp [BitVec.getLsbD_eq_getElem, hi]
  · split
    · rename_i h1 h2
      have : 8 + (i - 8) = i := by omega
      simp [this, BitVec.getLsbD_eq_getElem hi]
    · split
      · rename_i h1 h2 h3
        have : 16 + (i - 8 - 8) = i := by omega
        simp [this, BitVec.getLsbD_eq_getElem hi]
      · rename_i h1 h2 h3
        have : 24 + (i - 8 - 8 - 8) = i := by omega
        simp [this, BitVec.getLsbD_eq_getElem hi]

theorem Memory.readWord_congr {m m' : Memory} {a : Nat}
    (h : ∀ k, k < 4 → Memory.readByte m' (a + k) = Memory.readByte m (a + k)) :
    Memory.readWord m' a = Memory.readWord m a := by
  have h0 := h 0 (by omega)
  have h1 := h 1 (by omega)
  have h2 := h 2 (by omega)
  have h3 := h 3 (by omega)
  simp only [Nat.add_zero] at h0
  simp only [Memory.readWord, h0, h1, h2, h3]

theorem Memory.readWord_writeWord_of_disjoint (m : Memory) {a b : Nat} (v : Word) (h : b + 4 ≤ a ∨ a + 4 ≤ b) :
    Memory.readWord (Memory.writeWord m a v) b = Memory.readWord m b := by
  refine Memory.readWord_congr fun k hk => ?_
  rw [Memory.readByte_writeWord, if_neg (by omega)]

theorem Memory.mem_writeWord {m : Memory} {a : Nat} {v : Word} {x : Host.Cell}
    (h : x ∈ Memory.writeWord m a v) : (a ≤ x.1 ∧ x.1 < a + 4) ∨ x ∈ m := by
  simp only [Memory.writeWord] at h
  rcases Memory.mem_writeByte h with rfl | h
  · left; constructor <;> simp
  rcases Memory.mem_writeByte h with rfl | h
  · left; constructor <;> simp
  rcases Memory.mem_writeByte h with rfl | h
  · left; constructor <;> simp
  rcases Memory.mem_writeByte h with rfl | h
  · left; constructor <;> simp
  exact .inr h

theorem Memory.wf_writeWord {m : Memory} (h : Memory.wf m) (a : Nat) (v : Word) : Memory.wf (Memory.writeWord m a v) :=
  Memory.wf_writeByte (Memory.wf_writeByte (Memory.wf_writeByte (Memory.wf_writeByte h _ _) _ _) _ _) _ _

theorem Memory.readByte_isSome_writeWord {m : Memory} {b : Nat} (a : Nat) (v : Word)
    (h : (Memory.readByte m b).isSome) : (Memory.readByte (Memory.writeWord m a v) b).isSome := by
  rw [Memory.readByte_writeWord]; split <;> simp [h]

theorem Memory.readByte_writeWords_outside (m : Memory) (ws : List Word) (a b : Nat)
    (h : b < a ∨ a + 4 * ws.length ≤ b) :
    Memory.readByte (Memory.writeWords m a ws) b = Memory.readByte m b := by
  induction ws generalizing m a with
  | nil => rfl
  | cons w ws ih =>
    rw [List.length_cons] at h
    rw [Memory.writeWords, ih _ _ (by omega), Memory.readByte_writeWord, if_neg (by omega)]

theorem Memory.readWord_writeWords_outside (m : Memory) (ws : List Word) {a b : Nat}
    (h : b + 4 ≤ a ∨ a + 4 * ws.length ≤ b) :
    Memory.readWord (Memory.writeWords m a ws) b = Memory.readWord m b :=
  Memory.readWord_congr fun _ _ => Memory.readByte_writeWords_outside _ _ _ _ (by omega)

theorem Memory.readWord_writeWords (m : Memory) (ws : List Word) (a i : Nat) (h : i < ws.length) :
    Memory.readWord (Memory.writeWords m a ws) (a + 4 * i) = some ws[i] := by
  induction ws generalizing m a i with
  | nil => simp at h
  | cons w ws ih =>
    cases i with
    | zero =>
      rw [Memory.writeWords, Memory.readWord_writeWords_outside _ _ (by omega), Nat.mul_zero, Nat.add_zero,
        Memory.readWord_writeWord]
      rfl
    | succ i =>
      have e : a + 4 * (i + 1) = a + 4 + 4 * i := by ring
      rw [Memory.writeWords, e, ih _ _ _ (by simpa using h)]
      rfl

theorem Memory.mem_writeWords {m : Memory} {a : Nat} {ws : List Word} {x : Host.Cell}
    (h : x ∈ Memory.writeWords m a ws) : (a ≤ x.1 ∧ x.1 < a + 4 * ws.length) ∨ x ∈ m := by
  induction ws generalizing m a with
  | nil => exact .inr h
  | cons w ws ih =>
    rw [List.length_cons]
    rcases ih h with h | h
    · left; omega
    · rcases Memory.mem_writeWord h with h | h
      · left; omega
      · exact .inr h

theorem Memory.wf_writeWords {m : Memory} (h : Memory.wf m) (a : Nat) (ws : List Word) :
    Memory.wf (Memory.writeWords m a ws) := by
  induction ws generalizing m a with
  | nil => exact h
  | cons w ws ih => exact ih (Memory.wf_writeWord h a w) _

theorem Memory.readByte_isSome_writeWords {m : Memory} {b : Nat} (a : Nat) (ws : List Word)
    (h : (Memory.readByte m b).isSome) : (Memory.readByte (Memory.writeWords m a ws) b).isSome := by
  induction ws generalizing m a with
  | nil => exact h
  | cons w ws ih => exact ih _ (Memory.readByte_isSome_writeWord _ _ h)

/-- The words of a memory are written whole: with one byte of an aligned word, all four. -/
abbrev Memory.wholeWords (m : Memory) : Prop :=
  ∀ x ∈ m, ∀ k, k < 4 → (Memory.readByte m (x.1 / 4 * 4 + k)).isSome

theorem Memory.wholeWords_writeWord {m : Memory} (h : Memory.wholeWords m) {a : Nat} (ha : a % 4 = 0) (v : Word) :
    Memory.wholeWords (Memory.writeWord m a v) := by
  intro x hx k hk
  rcases Memory.mem_writeWord hx with hx | hx
  · rw [Memory.readByte_writeWord, if_pos (by omega)]; rfl
  · exact Memory.readByte_isSome_writeWord _ _ (h x hx k hk)

theorem Memory.wholeWords_writeWords {m : Memory} (h : Memory.wholeWords m) {a : Nat} (ha : a % 4 = 0) (ws : List Word) :
    Memory.wholeWords (Memory.writeWords m a ws) := by
  induction ws generalizing m a with
  | nil => exact h
  | cons w ws ih => exact ih (Memory.wholeWords_writeWord h ha w) (by omega)

end Sys2Proof.Machine
end

