-- ==== Sys2Proof/Laws/State.lean ====
section
/-! SUPPORT. The small lemmas of the named state updates: one per field per update, so that no later proof unfolds a record
update. -/

namespace Sys2Proof.Machine

section
variable (s : State) (c : ErrCode) (x : Word)

@[simp] theorem State.raiseError_cfg : (s.raiseError c x).cfg = s.cfg := rfl
@[simp] theorem State.raiseError_ckey : (s.raiseError c x).ckey = s.ckey := rfl
@[simp] theorem State.raiseError_len : (s.raiseError c x).len = s.len := rfl
@[simp] theorem State.raiseError_keyLen : (s.raiseError c x).keyLen = s.keyLen := rfl
@[simp] theorem State.raiseError_kcur : (s.raiseError c x).kcur = s.kcur := rfl
@[simp] theorem State.raiseError_refLen : (s.raiseError c x).refLen = s.refLen := rfl
@[simp] theorem State.raiseError_hist : (s.raiseError c x).hist = s.hist := rfl
@[simp] theorem State.raiseError_total : (s.raiseError c x).total = s.total := rfl
@[simp] theorem State.raiseError_bestKey : (s.raiseError c x).bestKey = s.bestKey := rfl
@[simp] theorem State.raiseError_bestScore : (s.raiseError c x).bestScore = s.bestScore := rfl
@[simp] theorem State.raiseError_score : (s.raiseError c x).score = s.score := rfl
@[simp] theorem State.raiseError_pend : (s.raiseError c x).pend = none := rfl
@[simp] theorem State.raiseError_done : (s.raiseError c x).done = s.done := rfl
@[simp] theorem State.raiseError_err : (s.raiseError c x).err = true := rfl
@[simp] theorem State.raiseError_errCode : (s.raiseError c x).errCode = some c := rfl
@[simp] theorem State.raiseError_errInfo : (s.raiseError c x).errInfo = x := rfl
@[simp] theorem State.raiseError_doneIe : (s.raiseError c x).doneIe = s.doneIe := rfl
@[simp] theorem State.raiseError_errIe : (s.raiseError c x).errIe = s.errIe := rfl
@[simp] theorem State.raiseError_mem : (s.raiseError c x).mem = s.mem := rfl
@[simp] theorem State.raiseError_inputs : (s.raiseError c x).inputs = s.inputs := rfl
@[simp] theorem State.raiseError_responses : (s.raiseError c x).responses = s.responses := rfl

end

section
variable (s : State)

@[simp] theorem State.finish_cfg : (s.finish).cfg = s.cfg := rfl
@[simp] theorem State.finish_ckey : (s.finish).ckey = s.ckey := rfl
@[simp] theorem State.finish_len : (s.finish).len = s.len := rfl
@[simp] theorem State.finish_keyLen : (s.finish).keyLen = s.keyLen := rfl
@[simp] theorem State.finish_kcur : (s.finish).kcur = s.kcur := rfl
@[simp] theorem State.finish_refLen : (s.finish).refLen = s.refLen := rfl
@[simp] theorem State.finish_hist : (s.finish).hist = s.hist := rfl
@[simp] theorem State.finish_total : (s.finish).total = s.total := rfl
@[simp] theorem State.finish_bestKey : (s.finish).bestKey = s.bestKey := rfl
@[simp] theorem State.finish_bestScore : (s.finish).bestScore = s.bestScore := rfl
@[simp] theorem State.finish_score : (s.finish).score = s.score := rfl
@[simp] theorem State.finish_pend : (s.finish).pend = none := rfl
@[simp] theorem State.finish_done : (s.finish).done = true := rfl
@[simp] theorem State.finish_err : (s.finish).err = s.err := rfl
@[simp] theorem State.finish_errCode : (s.finish).errCode = s.errCode := rfl
@[simp] theorem State.finish_errInfo : (s.finish).errInfo = s.errInfo := rfl
@[simp] theorem State.finish_doneIe : (s.finish).doneIe = s.doneIe := rfl
@[simp] theorem State.finish_errIe : (s.finish).errIe = s.errIe := rfl
@[simp] theorem State.finish_mem : (s.finish).mem = s.mem := rfl
@[simp] theorem State.finish_inputs : (s.finish).inputs = s.inputs := rfl
@[simp] theorem State.finish_responses : (s.finish).responses = s.responses := rfl

end

section
variable (s : State)

@[simp] theorem State.clearDone_cfg : (s.clearDone).cfg = s.cfg := rfl
@[simp] theorem State.clearDone_ckey : (s.clearDone).ckey = s.ckey := rfl
@[simp] theorem State.clearDone_len : (s.clearDone).len = s.len := rfl
@[simp] theorem State.clearDone_keyLen : (s.clearDone).keyLen = s.keyLen := rfl
@[simp] theorem State.clearDone_kcur : (s.clearDone).kcur = s.kcur := rfl
@[simp] theorem State.clearDone_refLen : (s.clearDone).refLen = s.refLen := rfl
@[simp] theorem State.clearDone_hist : (s.clearDone).hist = s.hist := rfl
@[simp] theorem State.clearDone_total : (s.clearDone).total = s.total := rfl
@[simp] theorem State.clearDone_bestKey : (s.clearDone).bestKey = s.bestKey := rfl
@[simp] theorem State.clearDone_bestScore : (s.clearDone).bestScore = s.bestScore := rfl
@[simp] theorem State.clearDone_score : (s.clearDone).score = s.score := rfl
@[simp] theorem State.clearDone_pend : (s.clearDone).pend = s.pend := rfl
@[simp] theorem State.clearDone_done : (s.clearDone).done = false := rfl
@[simp] theorem State.clearDone_err : (s.clearDone).err = s.err := rfl
@[simp] theorem State.clearDone_errCode : (s.clearDone).errCode = s.errCode := rfl
@[simp] theorem State.clearDone_errInfo : (s.clearDone).errInfo = s.errInfo := rfl
@[simp] theorem State.clearDone_doneIe : (s.clearDone).doneIe = s.doneIe := rfl
@[simp] theorem State.clearDone_errIe : (s.clearDone).errIe = s.errIe := rfl
@[simp] theorem State.clearDone_mem : (s.clearDone).mem = s.mem := rfl
@[simp] theorem State.clearDone_inputs : (s.clearDone).inputs = s.inputs := rfl
@[simp] theorem State.clearDone_responses : (s.clearDone).responses = s.responses := rfl

end

section
variable (s : State)

@[simp] theorem State.clearErr_cfg : (s.clearErr).cfg = s.cfg := rfl
@[simp] theorem State.clearErr_ckey : (s.clearErr).ckey = s.ckey := rfl
@[simp] theorem State.clearErr_len : (s.clearErr).len = s.len := rfl
@[simp] theorem State.clearErr_keyLen : (s.clearErr).keyLen = s.keyLen := rfl
@[simp] theorem State.clearErr_kcur : (s.clearErr).kcur = s.kcur := rfl
@[simp] theorem State.clearErr_refLen : (s.clearErr).refLen = s.refLen := rfl
@[simp] theorem State.clearErr_hist : (s.clearErr).hist = s.hist := rfl
@[simp] theorem State.clearErr_total : (s.clearErr).total = s.total := rfl
@[simp] theorem State.clearErr_bestKey : (s.clearErr).bestKey = s.bestKey := rfl
@[simp] theorem State.clearErr_bestScore : (s.clearErr).bestScore = s.bestScore := rfl
@[simp] theorem State.clearErr_score : (s.clearErr).score = s.score := rfl
@[simp] theorem State.clearErr_pend : (s.clearErr).pend = s.pend := rfl
@[simp] theorem State.clearErr_done : (s.clearErr).done = s.done := rfl
@[simp] theorem State.clearErr_err : (s.clearErr).err = false := rfl
@[simp] theorem State.clearErr_errCode : (s.clearErr).errCode = none := rfl
@[simp] theorem State.clearErr_errInfo : (s.clearErr).errInfo = 0 := rfl
@[simp] theorem State.clearErr_doneIe : (s.clearErr).doneIe = s.doneIe := rfl
@[simp] theorem State.clearErr_errIe : (s.clearErr).errIe = s.errIe := rfl
@[simp] theorem State.clearErr_mem : (s.clearErr).mem = s.mem := rfl
@[simp] theorem State.clearErr_inputs : (s.clearErr).inputs = s.inputs := rfl
@[simp] theorem State.clearErr_responses : (s.clearErr).responses = s.responses := rfl

end

section
variable (s : State) (v : Word)

@[simp] theorem State.writeIrqEn_cfg : (s.writeIrqEn v).cfg = s.cfg := rfl
@[simp] theorem State.writeIrqEn_ckey : (s.writeIrqEn v).ckey = s.ckey := rfl
@[simp] theorem State.writeIrqEn_len : (s.writeIrqEn v).len = s.len := rfl
@[simp] theorem State.writeIrqEn_keyLen : (s.writeIrqEn v).keyLen = s.keyLen := rfl
@[simp] theorem State.writeIrqEn_kcur : (s.writeIrqEn v).kcur = s.kcur := rfl
@[simp] theorem State.writeIrqEn_refLen : (s.writeIrqEn v).refLen = s.refLen := rfl
@[simp] theorem State.writeIrqEn_hist : (s.writeIrqEn v).hist = s.hist := rfl
@[simp] theorem State.writeIrqEn_total : (s.writeIrqEn v).total = s.total := rfl
@[simp] theorem State.writeIrqEn_bestKey : (s.writeIrqEn v).bestKey = s.bestKey := rfl
@[simp] theorem State.writeIrqEn_bestScore : (s.writeIrqEn v).bestScore = s.bestScore := rfl
@[simp] theorem State.writeIrqEn_score : (s.writeIrqEn v).score = s.score := rfl
@[simp] theorem State.writeIrqEn_pend : (s.writeIrqEn v).pend = s.pend := rfl
@[simp] theorem State.writeIrqEn_done : (s.writeIrqEn v).done = s.done := rfl
@[simp] theorem State.writeIrqEn_err : (s.writeIrqEn v).err = s.err := rfl
@[simp] theorem State.writeIrqEn_errCode : (s.writeIrqEn v).errCode = s.errCode := rfl
@[simp] theorem State.writeIrqEn_errInfo : (s.writeIrqEn v).errInfo = s.errInfo := rfl
@[simp] theorem State.writeIrqEn_doneIe : (s.writeIrqEn v).doneIe = v.getLsbD 1 := rfl
@[simp] theorem State.writeIrqEn_errIe : (s.writeIrqEn v).errIe = v.getLsbD 2 := rfl
@[simp] theorem State.writeIrqEn_mem : (s.writeIrqEn v).mem = s.mem := rfl
@[simp] theorem State.writeIrqEn_inputs : (s.writeIrqEn v).inputs = s.inputs := rfl
@[simp] theorem State.writeIrqEn_responses : (s.writeIrqEn v).responses = s.responses := rfl

end

section
variable (s : State) (d : Direction) (ks : List Int) (cur : Nat) (cs : List Word)

@[simp] theorem State.cipherText_cfg : (s.cipherText d ks cur cs).cfg = s.cfg := rfl
@[simp] theorem State.cipherText_ckey : (s.cipherText d ks cur cs).ckey = s.ckey := rfl
@[simp] theorem State.cipherText_len : (s.cipherText d ks cur cs).len = s.len := rfl
@[simp] theorem State.cipherText_keyLen : (s.cipherText d ks cur cs).keyLen = s.keyLen := rfl
@[simp] theorem State.cipherText_kcur : (s.cipherText d ks cur cs).kcur = BitVec.ofNat 10 (transform d ks cur cs).2 := rfl
@[simp] theorem State.cipherText_refLen : (s.cipherText d ks cur cs).refLen = s.refLen := rfl
@[simp] theorem State.cipherText_hist : (s.cipherText d ks cur cs).hist = s.hist := rfl
@[simp] theorem State.cipherText_total : (s.cipherText d ks cur cs).total = s.total := rfl
@[simp] theorem State.cipherText_bestKey : (s.cipherText d ks cur cs).bestKey = s.bestKey := rfl
@[simp] theorem State.cipherText_bestScore : (s.cipherText d ks cur cs).bestScore = s.bestScore := rfl
@[simp] theorem State.cipherText_score : (s.cipherText d ks cur cs).score = s.score := rfl
@[simp] theorem State.cipherText_pend : (s.cipherText d ks cur cs).pend = s.pend := rfl
@[simp] theorem State.cipherText_done : (s.cipherText d ks cur cs).done = s.done := rfl
@[simp] theorem State.cipherText_err : (s.cipherText d ks cur cs).err = s.err := rfl
@[simp] theorem State.cipherText_errCode : (s.cipherText d ks cur cs).errCode = s.errCode := rfl
@[simp] theorem State.cipherText_errInfo : (s.cipherText d ks cur cs).errInfo = s.errInfo := rfl
@[simp] theorem State.cipherText_doneIe : (s.cipherText d ks cur cs).doneIe = s.doneIe := rfl
@[simp] theorem State.cipherText_errIe : (s.cipherText d ks cur cs).errIe = s.errIe := rfl
@[simp] theorem State.cipherText_mem : (s.cipherText d ks cur cs).mem = Memory.writeWords s.mem 0x40000 (transform d ks cur cs).1 := rfl
@[simp] theorem State.cipherText_inputs : (s.cipherText d ks cur cs).inputs = s.inputs := rfl
@[simp] theorem State.cipherText_responses : (s.cipherText d ks cur cs).responses = s.responses := rfl

end

section
variable (s : State) (r : List RefEntry)

@[simp] theorem State.searchKeys_cfg : (s.searchKeys r).cfg = s.cfg := rfl
@[simp] theorem State.searchKeys_ckey : (s.searchKeys r).ckey = s.ckey := rfl
@[simp] theorem State.searchKeys_len : (s.searchKeys r).len = s.len := rfl
@[simp] theorem State.searchKeys_keyLen : (s.searchKeys r).keyLen = s.keyLen := rfl
@[simp] theorem State.searchKeys_kcur : (s.searchKeys r).kcur = s.kcur := rfl
@[simp] theorem State.searchKeys_refLen : (s.searchKeys r).refLen = s.refLen := rfl
@[simp] theorem State.searchKeys_hist : (s.searchKeys r).hist = s.hist := rfl
@[simp] theorem State.searchKeys_total : (s.searchKeys r).total = s.total := rfl
@[simp] theorem State.searchKeys_bestKey : (s.searchKeys r).bestKey = BitVec.ofNat 5 (firstMinimum (candidateScore s.hist s.total r)) := rfl
@[simp] theorem State.searchKeys_bestScore : (s.searchKeys r).bestScore = BitVec.ofNat 80 (candidateScore s.hist s.total r (firstMinimum (candidateScore s.hist s.total r))) := rfl
@[simp] theorem State.searchKeys_score : (s.searchKeys r).score = Vector.ofFn fun k => BitVec.ofNat 80 (candidateScore s.hist s.total r k.val) := rfl
@[simp] theorem State.searchKeys_pend : (s.searchKeys r).pend = s.pend := rfl
@[simp] theorem State.searchKeys_done : (s.searchKeys r).done = s.done := rfl
@[simp] theorem State.searchKeys_err : (s.searchKeys r).err = s.err := rfl
@[simp] theorem State.searchKeys_errCode : (s.searchKeys r).errCode = s.errCode := rfl
@[simp] theorem State.searchKeys_errInfo : (s.searchKeys r).errInfo = s.errInfo := rfl
@[simp] theorem State.searchKeys_doneIe : (s.searchKeys r).doneIe = s.doneIe := rfl
@[simp] theorem State.searchKeys_errIe : (s.searchKeys r).errIe = s.errIe := rfl
@[simp] theorem State.searchKeys_mem : (s.searchKeys r).mem = s.mem := rfl
@[simp] theorem State.searchKeys_inputs : (s.searchKeys r).inputs = s.inputs := rfl
@[simp] theorem State.searchKeys_responses : (s.searchKeys r).responses = s.responses := rfl

end

section
variable (s : State)

@[simp] theorem State.applyReset_cfg : s.applyReset.cfg = s.cfg := rfl
@[simp] theorem State.applyReset_ckey : s.applyReset.ckey = State.reset.ckey := rfl
@[simp] theorem State.applyReset_len : s.applyReset.len = State.reset.len := rfl
@[simp] theorem State.applyReset_keyLen : s.applyReset.keyLen = State.reset.keyLen := rfl
@[simp] theorem State.applyReset_kcur : s.applyReset.kcur = State.reset.kcur := rfl
@[simp] theorem State.applyReset_refLen : s.applyReset.refLen = State.reset.refLen := rfl
@[simp] theorem State.applyReset_hist : s.applyReset.hist = State.reset.hist := rfl
@[simp] theorem State.applyReset_total : s.applyReset.total = State.reset.total := rfl
@[simp] theorem State.applyReset_bestKey : s.applyReset.bestKey = State.reset.bestKey := rfl
@[simp] theorem State.applyReset_bestScore : s.applyReset.bestScore = State.reset.bestScore := rfl
@[simp] theorem State.applyReset_score : s.applyReset.score = State.reset.score := rfl
@[simp] theorem State.applyReset_pend : s.applyReset.pend = State.reset.pend := rfl
@[simp] theorem State.applyReset_done : s.applyReset.done = State.reset.done := rfl
@[simp] theorem State.applyReset_err : s.applyReset.err = State.reset.err := rfl
@[simp] theorem State.applyReset_errCode : s.applyReset.errCode = State.reset.errCode := rfl
@[simp] theorem State.applyReset_errInfo : s.applyReset.errInfo = State.reset.errInfo := rfl
@[simp] theorem State.applyReset_doneIe : s.applyReset.doneIe = State.reset.doneIe := rfl
@[simp] theorem State.applyReset_errIe : s.applyReset.errIe = State.reset.errIe := rfl
@[simp] theorem State.applyReset_mem : s.applyReset.mem = State.reset.mem := rfl
@[simp] theorem State.applyReset_inputs : s.applyReset.inputs = s.inputs := rfl
@[simp] theorem State.applyReset_responses : s.applyReset.responses = s.responses := rfl

end

section
variable (s : State) (v : Word)

@[simp] theorem State.writeStatus_cfg : (s.writeStatus v).cfg = s.cfg := by
  unfold State.writeStatus; cases v.getLsbD 1 <;> cases v.getLsbD 2 <;> simp
@[simp] theorem State.writeStatus_ckey : (s.writeStatus v).ckey = s.ckey := by
  unfold State.writeStatus; cases v.getLsbD 1 <;> cases v.getLsbD 2 <;> simp
@[simp] theorem State.writeStatus_len : (s.writeStatus v).len = s.len := by
  unfold State.writeStatus; cases v.getLsbD 1 <;> cases v.getLsbD 2 <;> simp
@[simp] theorem State.writeStatus_keyLen : (s.writeStatus v).keyLen = s.keyLen := by
  unfold State.writeStatus; cases v.getLsbD 1 <;> cases v.getLsbD 2 <;> simp
@[simp] theorem State.writeStatus_kcur : (s.writeStatus v).kcur = s.kcur := by
  unfold State.writeStatus; cases v.getLsbD 1 <;> cases v.getLsbD 2 <;> simp
@[simp] theorem State.writeStatus_refLen : (s.writeStatus v).refLen = s.refLen := by
  unfold State.writeStatus; cases v.getLsbD 1 <;> cases v.getLsbD 2 <;> simp
@[simp] theorem State.writeStatus_hist : (s.writeStatus v).hist = s.hist := by
  unfold State.writeStatus; cases v.getLsbD 1 <;> cases v.getLsbD 2 <;> simp
@[simp] theorem State.writeStatus_total : (s.writeStatus v).total = s.total := by
  unfold State.writeStatus; cases v.getLsbD 1 <;> cases v.getLsbD 2 <;> simp
@[simp] theorem State.writeStatus_bestKey : (s.writeStatus v).bestKey = s.bestKey := by
  unfold State.writeStatus; cases v.getLsbD 1 <;> cases v.getLsbD 2 <;> simp
@[simp] theorem State.writeStatus_bestScore : (s.writeStatus v).bestScore = s.bestScore := by
  unfold State.writeStatus; cases v.getLsbD 1 <;> cases v.getLsbD 2 <;> simp
@[simp] theorem State.writeStatus_score : (s.writeStatus v).score = s.score := by
  unfold State.writeStatus; cases v.getLsbD 1 <;> cases v.getLsbD 2 <;> simp
@[simp] theorem State.writeStatus_pend : (s.writeStatus v).pend = s.pend := by
  unfold State.writeStatus; cases v.getLsbD 1 <;> cases v.getLsbD 2 <;> simp
@[simp] theorem State.writeStatus_done : (s.writeStatus v).done = (s.done && !v.getLsbD 1) := by
  unfold State.writeStatus; cases v.getLsbD 1 <;> cases v.getLsbD 2 <;> simp
@[simp] theorem State.writeStatus_err : (s.writeStatus v).err = (s.err && !v.getLsbD 2) := by
  unfold State.writeStatus; cases v.getLsbD 1 <;> cases v.getLsbD 2 <;> simp
@[simp] theorem State.writeStatus_errCode : (s.writeStatus v).errCode = if v.getLsbD 2 then none else s.errCode := by
  unfold State.writeStatus; cases v.getLsbD 1 <;> cases v.getLsbD 2 <;> simp
@[simp] theorem State.writeStatus_errInfo : (s.writeStatus v).errInfo = if v.getLsbD 2 then 0 else s.errInfo := by
  unfold State.writeStatus; cases v.getLsbD 1 <;> cases v.getLsbD 2 <;> simp
@[simp] theorem State.writeStatus_doneIe : (s.writeStatus v).doneIe = s.doneIe := by
  unfold State.writeStatus; cases v.getLsbD 1 <;> cases v.getLsbD 2 <;> simp
@[simp] theorem State.writeStatus_errIe : (s.writeStatus v).errIe = s.errIe := by
  unfold State.writeStatus; cases v.getLsbD 1 <;> cases v.getLsbD 2 <;> simp
@[simp] theorem State.writeStatus_mem : (s.writeStatus v).mem = s.mem := by
  unfold State.writeStatus; cases v.getLsbD 1 <;> cases v.getLsbD 2 <;> simp
@[simp] theorem State.writeStatus_inputs : (s.writeStatus v).inputs = s.inputs := by
  unfold State.writeStatus; cases v.getLsbD 1 <;> cases v.getLsbD 2 <;> simp
@[simp] theorem State.writeStatus_responses : (s.writeStatus v).responses = s.responses := by
  unfold State.writeStatus; cases v.getLsbD 1 <;> cases v.getLsbD 2 <;> simp

end

end Sys2Proof.Machine
end

