-- ==== Sys2Proof/Laws/Ops.lean ====
section
/-! SUPPORT. What the completion of a command can do, said once (60_exceptions.md R300, R302), and the reads of the RAM
arrays after the updates. -/

namespace Sys2Proof.Machine

@[simp] theorem State.complete_ok (s t : State) : s.complete (.ok t) = .next t.finish := rfl

@[simp] theorem State.complete_error (s : State) (c : ErrCode) (x : Word) :
    s.complete (.error (.error c x)) = .next (s.raiseError c x) := rfl

@[simp] theorem State.complete_unwritten (s : State) (w : RamWord) :
    s.complete (.error (.unwritten w)) = .fault (.unwrittenRead w) := rfl

/-- The next states of a completion: the body's state finished, or the error entry in the state the command found. -/
theorem State.complete_eq_next {s t : State} {r : Except Stop State} (h : s.complete r = .next t) :
    (∃ u, r = .ok u ∧ t = u.finish) ∨ ∃ c x, r = .error (.error c x) ∧ t = s.raiseError c x := by
  match r, h with
  | .ok u, h => exact .inl ⟨u, rfl, by simpa using h.symm⟩
  | .error (.error c x), h => exact .inr ⟨c, x, rfl, by simpa using h.symm⟩

/-- A completion never refuses. -/
theorem State.complete_ne_refused (s : State) (r : Except Stop State) (q : Refusal) : s.complete r ≠ .refused q := by
  match r with
  | .ok u => simp
  | .error (.error c x) => simp
  | .error (.unwritten w) => simp

/-- A completion faults only on a word not written since reset. -/
theorem State.complete_eq_fault {s : State} {r : Except Stop State} {f : Fault} (h : s.complete r = .fault f) :
    ∃ w, r = .error (.unwritten w) ∧ f = .unwrittenRead w := by
  match r, h with
  | .error (.unwritten w), h => exact ⟨w, rfl, by simpa using h.symm⟩

section
variable (s : State) (w : RamWord)

@[simp] theorem State.raiseError_ram (c : ErrCode) (x : Word) : (s.raiseError c x).ram w = s.ram w := rfl
@[simp] theorem State.finish_ram : s.finish.ram w = s.ram w := rfl
@[simp] theorem State.searchKeys_ram (r : List RefEntry) : (s.searchKeys r).ram w = s.ram w := rfl
@[simp] theorem State.raiseError_busy (c : ErrCode) (x : Word) : (s.raiseError c x).busy = false := rfl
@[simp] theorem State.finish_busy : s.finish.busy = false := rfl

end

theorem RamWord.addr_mod (w : RamWord) : w.addr % 4 = 0 := by
  cases w <;> simp only [RamWord.addr] <;> omega

end Sys2Proof.Machine
end

