-- ==== Sys2Proof/Laws/Operands.lean ====
section
/-! SUPPORT. The operand scans, said once: when each gives its values, and where each stops (60_exceptions.md R303,
93_implementation_defined.md U1). -/

namespace Sys2Proof.Machine

@[simp] theorem Except.okBind {ε α β : Type} (a : α) (f : α → Except ε β) : (Except.ok a >>= f) = f a := rfl

@[simp] theorem Except.errorBind {ε α β : Type} (e : ε) (f : α → Except ε β) :
    ((Except.error e : Except ε α) >>= f) = .error e := rfl

/-- A bind answers ok only through an ok of its first part. -/
theorem Except.bind_eq_ok {ε α β : Type} {x : Except ε α} {f : α → Except ε β} {b : β} (h : (x >>= f) = .ok b) :
    ∃ a, x = .ok a ∧ f a = .ok b := by
  match x, h with
  | .ok a, h => exact ⟨a, rfl, h⟩

/-- A bind answers an error of its first part, or of the rest. -/
theorem Except.bind_eq_error {ε α β : Type} {x : Except ε α} {f : α → Except ε β} {e : ε} (h : (x >>= f) = .error e) :
    x = .error e ∨ ∃ a, x = .ok a ∧ f a = .error e := by
  match x, h with
  | .ok a, h => exact .inr ⟨a, rfl, h⟩
  | .error e', h =>
    have h' : Except.error e' = (Except.error e : Except ε β) := h
    cases h'
    exact .inl rfl

theorem State.ramOperand_of_some {s : State} {w : RamWord} {v : Word} (h : s.ram w = some v) :
    s.ramOperand w = .ok v := by simp [State.ramOperand, h]

theorem State.ramOperand_of_none {s : State} {w : RamWord} (h : s.ram w = none) :
    s.ramOperand w = .error (.unwritten w) := by simp [State.ramOperand, h]

theorem State.ramOperand_eq_ok_iff {s : State} {w : RamWord} {v : Word} : s.ramOperand w = .ok v ↔ s.ram w = some v := by
  unfold State.ramOperand
  cases s.ram w <;> simp

theorem maxSymbol_lt_iff {c : Word} : maxSymbol < c ↔ 0x10FFFF < c.toNat := by
  rw [BitVec.lt_def]; rfl

theorem maxFreq_lt_iff {c : Word} : maxFreq < c ↔ 2 ^ 31 < c.toNat := by
  rw [BitVec.lt_def]; rfl

/-! ### TEXT -/

/-- One legal symbol of a text scan. -/
theorem State.scanText_succ_of_legal {s : State} {i n : Nat} {c : Word} (h : s.ram (.text i) = some c)
    (hc : c.toNat ≤ 0x10FFFF) :
    s.scanText i (n + 1) = (s.scanText (i + 1) n >>= fun cs => .ok (c :: cs)) := by
  rw [State.scanText, State.ramOperand_of_some h, Except.okBind, if_neg (by rw [maxSymbol_lt_iff]; omega)]

theorem State.scanText_eq_ok_iff {s : State} {i n : Nat} {cs : List Word} :
    s.scanText i n = .ok cs ↔
      cs.length = n ∧ ∀ k (h : k < cs.length), s.ram (.text (i + k)) = some cs[k] ∧ cs[k].toNat ≤ 0x10FFFF := by
  induction n generalizing i cs with
  | zero =>
    constructor
    · intro h
      cases h
      simp
    · rintro ⟨h, -⟩
      rw [List.length_eq_zero_iff] at h
      subst h; rfl
  | succ n ih =>
    constructor
    · intro h
      rw [State.scanText] at h
      obtain ⟨c, hc, h⟩ := Except.bind_eq_ok h
      rw [State.ramOperand_eq_ok_iff] at hc
      split at h
      · cases h
      rename_i hm
      rw [maxSymbol_lt_iff] at hm
      obtain ⟨cs', hcs, h⟩ := Except.bind_eq_ok h
      cases h
      obtain ⟨hl, hk⟩ := ih.1 hcs
      refine ⟨by simp [hl], fun k hk' => ?_⟩
      cases k with
      | zero => exact ⟨by simpa using hc, by simpa using hm⟩
      | succ k =>
        have := hk k (by simpa using hk')
        rw [show i + (k + 1) = i + 1 + k by ring]
        simpa using this
    · rintro ⟨hl, hk⟩
      cases cs with
      | nil => simp at hl
      | cons c cs =>
        have h0 := hk 0 (by simp)
        rw [State.scanText_succ_of_legal (c := c) (by simpa using h0.1) (by simpa using h0.2)]
        rw [ih.2 ⟨by simpa using hl, fun k hk' => by
          have := hk (k + 1) (by simpa using hk')
          rw [show i + (k + 1) = i + 1 + k by ring] at this
          simpa using this⟩]
        rfl

/-- The text operand is there exactly when the text is loaded. -/
theorem State.textOperand_eq_ok_iff {s : State} {text : List Word} :
    s.textOperand = .ok text ↔ s.textLoaded text := by
  unfold State.textOperand State.textLoaded
  split
  · simp only [reduceCtorEq, false_iff]
    rintro ⟨h1, h2, -⟩
    omega
  · rw [State.scanText_eq_ok_iff]
    simp only [Nat.zero_add]
    constructor
    · rintro ⟨h1, h2⟩; exact ⟨h1.symm, by omega, h2⟩
    · rintro ⟨h1, -, h2⟩; exact ⟨h1.symm, h2⟩

/-- A text scan whose first `k` symbols are written and legal goes on at the symbol after them. -/
theorem State.scanText_skip {s : State} (k : Nat) {i n : Nat} {r : Stop} (hk : k ≤ n)
    (h : ∀ j, j < k → ∃ c, s.ram (.text (i + j)) = some c ∧ c.toNat ≤ 0x10FFFF)
    (hr : s.scanText (i + k) (n - k) = .error r) : s.scanText i n = .error r := by
  induction k generalizing i n with
  | zero => simpa using hr
  | succ k ih =>
    obtain ⟨c, hc, hl⟩ := h 0 (by omega)
    obtain ⟨n, rfl⟩ : ∃ m, n = m + 1 := ⟨n - 1, by omega⟩
    rw [State.scanText_succ_of_legal (c := c) (by simpa using hc) hl, ih (by omega) ?_ ?_, Except.errorBind]
    · intro j hj
      rw [show i + 1 + j = i + (j + 1) by ring]
      exact h (j + 1) (by omega)
    · rw [show i + 1 + k = i + (k + 1) by ring, show n - k = n + 1 - (k + 1) by omega]
      exact hr

/-- Where a text scan stops at an illegal symbol (code 0x31). -/
theorem State.textOperand_illegal {s : State} {k : Nat} {c : Word} (hl : s.len.toNat ≤ s.cfg.textDepth)
    (hk : k < s.len.toNat) (h : ∀ j, j < k → ∃ c, s.ram (.text j) = some c ∧ c.toNat ≤ 0x10FFFF)
    (hc : s.ram (.text k) = some c) (hm : 0x10FFFF < c.toNat) :
    s.textOperand = .error (.error .inputSymbol (BitVec.ofNat 32 k)) := by
  rw [State.textOperand, if_neg (by omega)]
  refine State.scanText_skip k (by omega) (fun j hj => by simpa using h j hj) ?_
  obtain ⟨m, hn⟩ : ∃ m, s.len.toNat - k = m + 1 := ⟨s.len.toNat - k - 1, by omega⟩
  rw [hn, State.scanText, Nat.zero_add, State.ramOperand_of_some hc, Except.okBind, if_pos (by rwa [maxSymbol_lt_iff])]

/-- Where a text scan stops at a symbol not written since reset. -/
theorem State.textOperand_unwritten {s : State} {k : Nat} (hl : s.len.toNat ≤ s.cfg.textDepth)
    (hk : k < s.len.toNat) (h : ∀ j, j < k → ∃ c, s.ram (.text j) = some c ∧ c.toNat ≤ 0x10FFFF)
    (hc : s.ram (.text k) = none) : s.textOperand = .error (.unwritten (.text k)) := by
  rw [State.textOperand, if_neg (by omega)]
  refine State.scanText_skip k (by omega) (fun j hj => by simpa using h j hj) ?_
  obtain ⟨m, hn⟩ : ∃ m, s.len.toNat - k = m + 1 := ⟨s.len.toNat - k - 1, by omega⟩
  rw [hn, State.scanText, Nat.zero_add, State.ramOperand_of_none hc, Except.errorBind]

/-- LEN above the depth (code 0x30). -/
theorem State.textOperand_range {s : State} (h : s.cfg.textDepth < s.len.toNat) :
    s.textOperand = .error (.error .inputLenRange (s.len.setWidth 32)) := by
  rw [State.textOperand, if_pos h]

/-! ### KEY -/

/-- One letter of a key scan. -/
theorem State.scanKey_succ_of_letter {s : State} {j n : Nat} {c : Word} (h : s.ram (.key j) = some c)
    (hc : (alphaIndex c).isSome) :
    s.scanKey j (n + 1) = (s.scanKey (j + 1) n >>= fun cs => .ok (c :: cs)) := by
  rw [State.scanKey, State.ramOperand_of_some h, Except.okBind, if_neg]
  cases hx : alphaIndex c <;> simp_all

theorem State.scanKey_eq_ok_iff {s : State} {j n : Nat} {cs : List Word} :
    s.scanKey j n = .ok cs ↔
      cs.length = n ∧ ∀ k (h : k < cs.length), s.ram (.key (j + k)) = some cs[k] ∧ (alphaIndex cs[k]).isSome := by
  induction n generalizing j cs with
  | zero =>
    constructor
    · intro h
      cases h
      simp
    · rintro ⟨h, -⟩
      rw [List.length_eq_zero_iff] at h
      subst h; rfl
  | succ n ih =>
    constructor
    · intro h
      rw [State.scanKey] at h
      obtain ⟨c, hc, h⟩ := Except.bind_eq_ok h
      rw [State.ramOperand_eq_ok_iff] at hc
      split at h
      · cases h
      rename_i hm
      obtain ⟨cs', hcs, h⟩ := Except.bind_eq_ok h
      cases h
      obtain ⟨hl, hk⟩ := ih.1 hcs
      refine ⟨by simp [hl], fun k hk' => ?_⟩
      cases k with
      | zero =>
        refine ⟨by simpa using hc, ?_⟩
        cases hx : alphaIndex c <;> simp_all
      | succ k =>
        have := hk k (by simpa using hk')
        rw [show j + (k + 1) = j + 1 + k by ring]
        simpa using this
    · rintro ⟨hl, hk⟩
      cases cs with
      | nil => simp at hl
      | cons c cs =>
        have h0 := hk 0 (by simp)
        rw [State.scanKey_succ_of_letter (c := c) (by simpa using h0.1) (by simpa using h0.2)]
        rw [ih.2 ⟨by simpa using hl, fun k hk' => by
          have := hk (k + 1) (by simpa using hk')
          rw [show j + (k + 1) = j + 1 + k by ring] at this
          simpa using this⟩]
        rfl

/-- The key operand is there exactly when the key is loaded and, with CONT, the cursor lies below its length. -/
theorem State.keyOperand_eq_ok_iff {s : State} {cont : Bool} {key : List Word} :
    s.keyOperand cont = .ok key ↔ s.keyLoaded key ∧ s.cursorLegal cont := by
  unfold State.keyOperand State.keyLoaded State.cursorLegal
  split
  · rename_i h
    simp only [reduceCtorEq, false_iff]
    rintro ⟨⟨h1, h2, -⟩, -⟩
    rw [h] at h1
    simp at h1
    omega
  · rename_i h0
    have h0' : s.keyLen.toNat ≠ 0 := fun h => h0 (BitVec.eq_of_toNat_eq h)
    split
    · simp only [reduceCtorEq, false_iff]
      rintro ⟨⟨h1, -, h2, -⟩, -⟩
      omega
    · constructor
      · intro h
        obtain ⟨k, hk, h⟩ := Except.bind_eq_ok h
        split at h
        · cases h
        rename_i hcur
        cases h
        rw [State.scanKey_eq_ok_iff] at hk
        simp only [Nat.zero_add] at hk
        refine ⟨⟨hk.1.symm, by omega, by omega, hk.2⟩, fun hc => ?_⟩
        subst hc
        simpa using hcur
      · rintro ⟨⟨h1, h2, h3, h4⟩, hcur⟩
        rw [State.scanKey_eq_ok_iff.2 ⟨h1.symm, by simpa using h4⟩, Except.okBind, if_neg]
        simp only [Bool.and_eq_true, decide_eq_true_eq, not_and]
        intro hc
        have := hcur hc
        omega

theorem State.scanKey_skip {s : State} (k : Nat) {j n : Nat} {r : Stop} (hk : k ≤ n)
    (h : ∀ i, i < k → ∃ c, s.ram (.key (j + i)) = some c ∧ (alphaIndex c).isSome)
    (hr : s.scanKey (j + k) (n - k) = .error r) : s.scanKey j n = .error r := by
  induction k generalizing j n with
  | zero => simpa using hr
  | succ k ih =>
    obtain ⟨c, hc, hl⟩ := h 0 (by omega)
    obtain ⟨n, rfl⟩ : ∃ m, n = m + 1 := ⟨n - 1, by omega⟩
    rw [State.scanKey_succ_of_letter (c := c) (by simpa using hc) hl, ih (by omega) ?_ ?_, Except.errorBind]
    · intro i hi
      rw [show j + 1 + i = j + (i + 1) by ring]
      exact h (i + 1) (by omega)
    · rw [show j + 1 + k = j + (k + 1) by ring, show n - k = n + 1 - (k + 1) by omega]
      exact hr

/-- KEY_LEN = 0 (code 0x10). -/
theorem State.keyOperand_empty {s : State} (cont : Bool) (h : s.keyLen = 0) :
    s.keyOperand cont = .error (.error .keyEmpty 0) := by
  rw [State.keyOperand, if_pos h]

/-- KEY_LEN above the depth (code 0x11). -/
theorem State.keyOperand_range {s : State} (cont : Bool) (h0 : s.keyLen ≠ 0) (h : s.cfg.keyDepth < s.keyLen.toNat) :
    s.keyOperand cont = .error (.error .keyLenRange (s.keyLen.setWidth 32)) := by
  rw [State.keyOperand, if_neg h0, if_pos h]

/-- Where a key scan stops at a symbol that is no letter (code 0x12). -/
theorem State.keyOperand_symbol {s : State} (cont : Bool) {k : Nat} {c : Word} (hd : s.keyLen.toNat ≤ s.cfg.keyDepth)
    (hk : k < s.keyLen.toNat) (h : ∀ j, j < k → ∃ c, s.ram (.key j) = some c ∧ (alphaIndex c).isSome)
    (hc : s.ram (.key k) = some c) (hn : alphaIndex c = none) :
    s.keyOperand cont = .error (.error .keySymbol (BitVec.ofNat 32 k)) := by
  have h0 : s.keyLen ≠ 0 := fun h => by simp [h] at hk
  rw [State.keyOperand, if_neg h0, if_neg (by omega), State.scanKey_skip k (by omega) (by simpa using h) ?_,
    Except.errorBind]
  obtain ⟨m, hm⟩ : ∃ m, s.keyLen.toNat - k = m + 1 := ⟨s.keyLen.toNat - k - 1, by omega⟩
  rw [hm, State.scanKey, Nat.zero_add, State.ramOperand_of_some hc, Except.okBind, hn]
  rfl

/-- Where a key scan stops at a symbol not written since reset. -/
theorem State.keyOperand_unwritten {s : State} (cont : Bool) {k : Nat} (hd : s.keyLen.toNat ≤ s.cfg.keyDepth)
    (hk : k < s.keyLen.toNat) (h : ∀ j, j < k → ∃ c, s.ram (.key j) = some c ∧ (alphaIndex c).isSome)
    (hc : s.ram (.key k) = none) : s.keyOperand cont = .error (.unwritten (.key k)) := by
  have h0 : s.keyLen ≠ 0 := fun h => by simp [h] at hk
  rw [State.keyOperand, if_neg h0, if_neg (by omega), State.scanKey_skip k (by omega) (by simpa using h) ?_,
    Except.errorBind]
  obtain ⟨m, hm⟩ : ∃ m, s.keyLen.toNat - k = m + 1 := ⟨s.keyLen.toNat - k - 1, by omega⟩
  rw [hm, State.scanKey, Nat.zero_add, State.ramOperand_of_none hc, Except.errorBind]

/-- CONT = 1 with the cursor at or above the key length (code 0x13). -/
theorem State.keyOperand_cursor {s : State} {key : List Word} (h : s.keyLoaded key)
    (hc : s.keyLen.toNat ≤ s.kcur.toNat) :
    s.keyOperand true = .error (.error .keyCursor (s.kcur.setWidth 32)) := by
  obtain ⟨h1, h2, h3, h4⟩ := h
  have h0 : s.keyLen ≠ 0 := fun h => by simp [h] at h1; omega
  rw [State.keyOperand, if_neg h0, if_neg (by omega),
    State.scanKey_eq_ok_iff.2 ⟨h1.symm, by simpa using h4⟩, Except.okBind, if_pos (by simpa using hc)]

/-! ### REF -/

/-- One legal entry of a model scan. -/
theorem State.scanRef_succ_of_legal {s : State} {seen : List Word} {j n : Nat} {e : RefEntry}
    (h1 : s.ram (.refSym j) = some e.sym) (h2 : s.ram (.refFreq j) = some e.freq) (h3 : e.sym.toNat ≤ 0x10FFFF)
    (h4 : e.freq.toNat ≤ 2 ^ 31) (h5 : e.sym ∉ seen) :
    s.scanRef seen j (n + 1) = (s.scanRef (e.sym :: seen) (j + 1) n >>= fun es => .ok (e :: es)) := by
  rw [State.scanRef, State.ramOperand_of_some h1, Except.okBind, if_neg (by rw [maxSymbol_lt_iff]; omega),
    State.ramOperand_of_some h2, Except.okBind, if_neg (by rw [maxFreq_lt_iff]; omega), if_neg (by simpa using h5)]

theorem State.scanRef_eq_ok_iff {s : State} {seen : List Word} {j n : Nat} {es : List RefEntry} :
    s.scanRef seen j n = .ok es ↔
      es.length = n ∧ (es.map RefEntry.sym).Nodup ∧ (∀ e ∈ es, e.sym ∉ seen) ∧
        ∀ k (h : k < es.length), s.ram (.refSym (j + k)) = some es[k].sym ∧ s.ram (.refFreq (j + k)) = some es[k].freq ∧
          es[k].sym.toNat ≤ 0x10FFFF ∧ es[k].freq.toNat ≤ 2 ^ 31 := by
  induction n generalizing j es seen with
  | zero =>
    constructor
    · intro h
      cases h
      simp
    · rintro ⟨h, -⟩
      rw [List.length_eq_zero_iff] at h
      subst h; rfl
  | succ n ih =>
    constructor
    · intro h
      rw [State.scanRef] at h
      obtain ⟨c, hc, h⟩ := Except.bind_eq_ok h
      rw [State.ramOperand_eq_ok_iff] at hc
      split at h
      · cases h
      rename_i hm
      rw [maxSymbol_lt_iff] at hm
      obtain ⟨f, hf, h⟩ := Except.bind_eq_ok h
      rw [State.ramOperand_eq_ok_iff] at hf
      split at h
      · cases h
      rename_i hfm
      rw [maxFreq_lt_iff] at hfm
      split at h
      · cases h
      rename_i hseen
      obtain ⟨es', hes, h⟩ := Except.bind_eq_ok h
      cases h
      obtain ⟨hl, hnd, hs, hk⟩ := ih.1 hes
      refine ⟨by simp [hl], ?_, ?_, fun k hk' => ?_⟩
      · rw [List.map_cons, List.nodup_cons]
        refine ⟨fun hmem => ?_, hnd⟩
        obtain ⟨e, he, hes⟩ := List.mem_map.1 hmem
        exact hs e he (by simp [hes])
      · intro e he
        rcases List.mem_cons.1 he with rfl | he
        · simpa using hseen
        · exact fun hin => hs e he (List.mem_cons_of_mem _ hin)
      · cases k with
        | zero => exact ⟨by simpa using hc, by simpa using hf, by simpa using hm, by simpa using hfm⟩
        | succ k =>
          have := hk k (by simpa using hk')
          rw [show j + (k + 1) = j + 1 + k by ring]
          simpa using this
    · rintro ⟨hl, hnd, hs, hk⟩
      cases es with
      | nil => simp at hl
      | cons e es =>
        have h0 := hk 0 (by simp)
        rw [List.map_cons, List.nodup_cons] at hnd
        rw [State.scanRef_succ_of_legal (e := e) (by simpa using h0.1) (by simpa using h0.2.1) (by simpa using h0.2.2.1)
          (by simpa using h0.2.2.2) (hs e (by simp))]
        rw [ih.2 ⟨by simpa using hl, hnd.2, fun e' he' => ?_, fun k hk' => by
          have := hk (k + 1) (by simpa using hk')
          rw [show j + (k + 1) = j + 1 + k by ring] at this
          simpa using this⟩]
        · rfl
        · rw [List.mem_cons, not_or]
          refine ⟨fun heq => hnd.1 ?_, hs e' (by simp [he'])⟩
          rw [← heq]
          exact List.mem_map_of_mem he'

/-- The reference model is there exactly when it is loaded. -/
theorem State.refOperand_eq_ok_iff {s : State} {ref : List RefEntry} :
    s.refOperand = .ok ref ↔ s.refLoaded ref := by
  unfold State.refOperand State.refLoaded
  split
  · simp only [reduceCtorEq, false_iff]
    rintro ⟨h1, h2, -⟩
    omega
  · rw [State.scanRef_eq_ok_iff]
    simp only [Nat.zero_add, List.not_mem_nil, not_false_eq_true, implies_true, true_and]
    constructor
    · rintro ⟨h1, h2, h3⟩; exact ⟨h1.symm, by omega, h2, h3⟩
    · rintro ⟨h1, -, h2, h3⟩; exact ⟨h1.symm, h2, h3⟩

/-- A model scan whose next entries `es` are written, legal and new goes on after them. -/
theorem State.scanRef_skip {s : State} (es : List RefEntry) {seen : List Word} {j n : Nat} {r : Stop}
    (hk : es.length ≤ n) (hnd : (es.map RefEntry.sym).Nodup) (hs : ∀ e ∈ es, e.sym ∉ seen)
    (h : ∀ k (h : k < es.length), s.ram (.refSym (j + k)) = some es[k].sym ∧ s.ram (.refFreq (j + k)) = some es[k].freq ∧
      es[k].sym.toNat ≤ 0x10FFFF ∧ es[k].freq.toNat ≤ 2 ^ 31)
    (hr : s.scanRef ((es.map RefEntry.sym).reverse ++ seen) (j + es.length) (n - es.length) = .error r) :
    s.scanRef seen j n = .error r := by
  induction es generalizing seen j n with
  | nil => simpa using hr
  | cons e es ih =>
    have h0 := h 0 (by simp)
    obtain ⟨n, rfl⟩ : ∃ m, n = m + 1 := ⟨n - 1, by simp at hk; omega⟩
    rw [List.map_cons, List.nodup_cons] at hnd
    rw [State.scanRef_succ_of_legal (e := e) (by simpa using h0.1) (by simpa using h0.2.1) (by simpa using h0.2.2.1)
      (by simpa using h0.2.2.2) (hs e (by simp)), ih (by simpa using hk) hnd.2 ?_ ?_ ?_, Except.errorBind]
    · intro e' he'
      rw [List.mem_cons, not_or]
      refine ⟨fun heq => hnd.1 ?_, hs e' (by simp [he'])⟩
      rw [← heq]
      exact List.mem_map_of_mem he'
    · intro k hk'
      rw [show j + 1 + k = j + (k + 1) by ring]
      have := h (k + 1) (by simpa using hk')
      simp only [List.getElem_cons_succ] at this
      exact this
    · rw [List.length_cons] at hr
      rw [show j + 1 + es.length = j + (es.length + 1) by ring, show n - es.length = n + 1 - (es.length + 1) by omega]
      simpa using hr

/-- A stop of the model scan after a legal prefix is the stop of the whole operand. -/
theorem State.refOperand_after {s : State} {es : List RefEntry} {r : Stop} (hd : s.refLen.toNat ≤ s.cfg.refDepth)
    (hk : es.length < s.refLen.toNat) (h : s.refPrefix es)
    (hr : ∀ m, s.scanRef ((es.map RefEntry.sym).reverse) es.length (m + 1) = .error r) : s.refOperand = .error r := by
  rw [State.refOperand, if_neg (by omega)]
  refine State.scanRef_skip es (by omega) h.1 (by simp) (by simpa using h.2) ?_
  obtain ⟨m, hm⟩ : ∃ m, s.refLen.toNat - es.length = m + 1 := ⟨s.refLen.toNat - es.length - 1, by omega⟩
  rw [hm, List.append_nil, Nat.zero_add]
  exact hr m

/-! ### A word that stops a command as unwritten is one that was not written -/

theorem State.ramOperand_eq_error {s : State} {w : RamWord} {r : Stop} (h : s.ramOperand w = .error r) :
    r = .unwritten w ∧ s.ram w = none := by
  cases hm : s.ram w with
  | some v => rw [State.ramOperand_of_some hm] at h; cases h
  | none => rw [State.ramOperand_of_none hm] at h; cases h; exact ⟨rfl, rfl⟩

theorem State.ram_of_scanText_unwritten {s : State} {i n : Nat} {w : RamWord} (h : s.scanText i n = .error (.unwritten w)) :
    s.ram w = none := by
  induction n generalizing i with
  | zero => cases h
  | succ n ih =>
    rw [State.scanText] at h
    rcases Except.bind_eq_error h with h | ⟨c, -, h⟩
    · obtain ⟨h1, h2⟩ := State.ramOperand_eq_error h; cases h1; exact h2
    · split at h
      · cases h
      · rcases Except.bind_eq_error h with h | ⟨c, -, h⟩
        · exact ih h
        · cases h

theorem State.ram_of_scanKey_unwritten {s : State} {j n : Nat} {w : RamWord} (h : s.scanKey j n = .error (.unwritten w)) :
    s.ram w = none := by
  induction n generalizing j with
  | zero => cases h
  | succ n ih =>
    rw [State.scanKey] at h
    rcases Except.bind_eq_error h with h | ⟨c, -, h⟩
    · obtain ⟨h1, h2⟩ := State.ramOperand_eq_error h; cases h1; exact h2
    · split at h
      · cases h
      · rcases Except.bind_eq_error h with h | ⟨c, -, h⟩
        · exact ih h
        · cases h

theorem State.ram_of_scanRef_unwritten {s : State} {seen : List Word} {j n : Nat} {w : RamWord}
    (h : s.scanRef seen j n = .error (.unwritten w)) : s.ram w = none := by
  induction n generalizing j seen with
  | zero => cases h
  | succ n ih =>
    rw [State.scanRef] at h
    rcases Except.bind_eq_error h with h | ⟨c, -, h⟩
    · obtain ⟨h1, h2⟩ := State.ramOperand_eq_error h; cases h1; exact h2
    split at h
    · cases h
    rcases Except.bind_eq_error h with h | ⟨c, -, h⟩
    · obtain ⟨h1, h2⟩ := State.ramOperand_eq_error h; cases h1; exact h2
    split at h
    · cases h
    split at h
    · cases h
    rcases Except.bind_eq_error h with h | ⟨c, -, h⟩
    · exact ih h
    · cases h

theorem State.ram_of_textOperand_unwritten {s : State} {w : RamWord} (h : s.textOperand = .error (.unwritten w)) :
    s.ram w = none := by
  unfold State.textOperand at h
  split at h
  · cases h
  · exact State.ram_of_scanText_unwritten h

theorem State.ram_of_refOperand_unwritten {s : State} {w : RamWord} (h : s.refOperand = .error (.unwritten w)) :
    s.ram w = none := by
  unfold State.refOperand at h
  split at h
  · cases h
  · exact State.ram_of_scanRef_unwritten h

theorem State.ram_of_keyOperand_unwritten {s : State} {cont : Bool} {w : RamWord}
    (h : s.keyOperand cont = .error (.unwritten w)) : s.ram w = none := by
  unfold State.keyOperand at h
  split at h
  · cases h
  split at h
  · cases h
  rcases Except.bind_eq_error h with h | ⟨c, -, h⟩
  · exact State.ram_of_scanKey_unwritten h
  · split at h <;> cases h

/-- The starting cursor of a command whose checks pass lies below the key length. -/
theorem State.startCursor_lt {s : State} {key : List Word} {cont : Bool} (hk : s.keyLoaded key) (hc : s.cursorLegal cont) :
    s.startCursor cont < key.length := by
  unfold State.startCursor
  cases cont with
  | false => simp; have := hk.2.1; omega
  | true => have := hc rfl; have := hk.1; simp; omega

/-- Every frequency of a loaded model is legal. -/
theorem State.freq_le_of_refLoaded {s : State} {ref : List RefEntry} (hr : s.refLoaded ref) :
    ∀ e ∈ ref, e.freq.toNat ≤ 2 ^ 31 := by
  intro e he
  obtain ⟨j, hj, rfl⟩ := List.getElem_of_mem he
  exact (hr.2.2.2 j hj).2.2.2

end Sys2Proof.Machine
end

