-- ==== Sys2Proof/Laws/Bus.lean ====
section
/-! SUPPORT. The address map and the bus, said once (20_memory.md R92 to R100; 70_reset_and_hazards.md R350). -/

namespace Sys2Proof.Machine

theorem Config.wellFormed_iff {c : Config} :
    c.wellFormed = true ↔ (1 ≤ c.textDepth ∧ c.textDepth ≤ 65536) ∧ (1 ≤ c.keyDepth ∧ c.keyDepth ≤ 1024) ∧
      (1 ≤ c.refDepth ∧ c.refDepth ≤ 1024) ∧ (1 ≤ c.histDepth ∧ c.histDepth ≤ 1024) := by
  simp only [Config.wellFormed, legalTextDepth, legalTableDepth, Bool.and_eq_true, decide_eq_true_eq]
  tauto

/-! ### The address map -/

theorem registerMap_keys : registerMap.map Prod.fst = registerAddresses := rfl

theorem lookup_registerMap_none {a : Nat} (h : a ∉ registerAddresses) : registerMap.lookup a = none := by
  rw [← registerMap_keys] at h
  rw [List.lookup_eq_none_iff]
  intro p hp
  have : p.1 ≠ a := fun e => h (List.mem_map.2 ⟨p, hp, e⟩)
  simpa using Ne.symm this

theorem lt_of_mem_registerAddresses {a : Nat} (h : a ∈ registerAddresses) : a ≤ 0x58 := by
  simp only [registerAddresses, List.mem_cons, List.not_mem_nil, or_false] at h
  omega

theorem locate_register (c : Config) {a : Nat} {l : Location} (h : registerMap.lookup a = some l) :
    locate c a = some l := by
  rw [locate, h]

theorem locate_window (c : Config) {a : Nat} (h : 0x58 < a) : locate c a = windowAt c a := by
  rw [locate, lookup_registerMap_none (fun hm => by have := lt_of_mem_registerAddresses hm; omega)]

theorem windowAt_low (c : Config) {a : Nat} (h : a < 0x800) : windowAt c a = none := by
  simp only [windowAt]
  repeat rw [if_neg (by omega)]

theorem isSome_lookup_of_mem {a : Nat} (h : a ∈ registerAddresses) : (registerMap.lookup a).isSome := by
  simp only [registerAddresses, List.mem_cons, List.not_mem_nil, or_false] at h
  rcases h with h | h | h | h | h | h | h | h | h | h | h | h | h | h | h | h | h | h | h | h | h | h <;> subst h <;> rfl

/-- The address of a mapped location is one of R92's (for a legal configuration, and any address). -/
theorem locate_isSome_iff {c : Config} (hc : c.wellFormed = true) (a : Nat) :
    (locate c a).isSome ↔ mappedAddress c a := by
  rw [Config.wellFormed_iff] at hc
  by_cases hr : a ∈ registerAddresses
  · obtain ⟨l, hl⟩ := Option.isSome_iff_exists.1 (isSome_lookup_of_mem hr)
    rw [locate_register c hl]
    exact ⟨fun _ => .inl hr, fun _ => rfl⟩
  · rw [locate, lookup_registerMap_none hr]
    simp only [windowAt, entryIndex, mappedAddress, ramByte, hr, false_or]
    split
    · rw [dif_pos (by omega)]
      simp only [Option.isSome_some, true_iff]
      omega
    · split
      · split
        · simp only [Option.isSome_some, true_iff]; omega
        · simp only [Option.isSome_none, Bool.false_eq_true, false_iff]; omega
      · split
        · split
          · split
            · simp only [Option.isSome_some, true_iff]; omega
            · simp only [Option.isSome_some, true_iff]; omega
          · simp only [Option.isSome_none, Bool.false_eq_true, false_iff]; omega
        · split
          · split
            · simp only [Option.isSome_some, true_iff]; omega
            · simp only [Option.isSome_none, Bool.false_eq_true, false_iff]; omega
          · split
            · split
              · simp only [Option.isSome_some, true_iff]; omega
              · simp only [Option.isSome_none, Bool.false_eq_true, false_iff]; omega
            · simp only [Option.isSome_none, Bool.false_eq_true, false_iff]; omega

/-- What a window address above the registers selects: never a register. -/
theorem windowAt_cases {c : Config} {a : Nat} {l : Location} (h : windowAt c a = some l) :
    (0x800 ≤ a ∧ a < 0x800 + 16 * 26 ∧ ∃ k w, l = .score k w) ∨
      (0x4000 ≤ a ∧ a < 0x4000 + 16 * c.histDepth ∧ l = .hist ((a - 0x4000) / 16) ((a - 0x4000) % 16 / 4)) ∨
      ∃ w, l = .ram w ∧ (a % 4 = 0 → w.addr = a) ∧ ramByte c a := by
  simp only [windowAt, entryIndex, entryWord] at h
  split at h
  · split at h
    · cases h
      exact .inl ⟨by omega, by omega, _, _, rfl⟩
    · cases h
  · split at h
    · split at h
      · cases h
        exact .inr (.inr ⟨_, rfl, fun _ => by simp only [RamWord.addr]; omega, by omega⟩)
      · cases h
    · split at h
      · split at h
        · split at h
          · cases h
            exact .inr (.inr ⟨_, rfl, fun _ => by simp only [RamWord.addr]; omega, by omega⟩)
          · cases h
            exact .inr (.inr ⟨_, rfl, fun _ => by simp only [RamWord.addr]; omega, by omega⟩)
        · cases h
      · split at h
        · split at h
          · cases h
            exact .inr (.inl ⟨by omega, by omega, rfl⟩)
          · cases h
        · split at h
          · split at h
            · cases h
              exact .inr (.inr ⟨_, rfl, fun _ => by simp only [RamWord.addr]; omega, by omega⟩)
            · cases h
          · cases h

theorem lookup_registerMap_mem {a : Nat} {l : Location} (h : registerMap.lookup a = some l) :
    (a, l) ∈ registerMap := by
  by_cases hm : a ∈ registerAddresses
  · simp only [registerAddresses, List.mem_cons, List.not_mem_nil, or_false] at hm
    rcases hm with hm | hm | hm | hm | hm | hm | hm | hm | hm | hm | hm | hm | hm | hm | hm | hm | hm | hm | hm | hm | hm |
      hm <;> subst hm <;> cases h <;> simp [registerMap]
  · rw [lookup_registerMap_none hm] at h
    cases h

/-- The RAM words a location can name, and where they stand. -/
theorem locate_ram {c : Config} {a : Nat} {w : RamWord} (h : locate c a = some (.ram w)) :
    (a % 4 = 0 → w.addr = a) ∧ ramByte c a := by
  unfold locate at h
  split at h
  · rename_i l hl
    cases h
    have := lookup_registerMap_mem hl
    simp [registerMap] at this
  · rcases windowAt_cases h with ⟨-, -, k, w, h⟩ | ⟨-, -, h⟩ | ⟨w', h, h1, h2⟩
    · cases h
    · cases h
    · cases h
      exact ⟨h1, h2⟩

/-- An aligned address of TEXT, KEY or REF below the depth selects the RAM word there. -/
theorem locate_of_ramByte {c : Config} (hc : c.wellFormed = true) {a : Nat} (ha : a % 4 = 0) (h : ramByte c a) :
    ∃ w, locate c a = some (.ram w) ∧ w.addr = a := by
  have hs := (locate_isSome_iff hc a).2 (.inr (.inr (.inr h)))
  obtain ⟨l, hl⟩ := Option.isSome_iff_exists.1 hs
  rw [Config.wellFormed_iff] at hc
  have hlow : 0x58 < a := by unfold ramByte at h; omega
  have hw := hl
  rw [locate_window c hlow] at hw
  rcases windowAt_cases hw with ⟨h1, h2, -⟩ | ⟨h1, h2, -⟩ | ⟨w, rfl, h1, -⟩
  · unfold ramByte at h; omega
  · unfold ramByte at h; omega
  · exact ⟨w, hl, h1 ha⟩

/-- HIST's window (10_state.md R63). -/
theorem locate_hist {c : Config} (hc : c.wellFormed = true) {j w : Nat} (hj : j < c.histDepth) (hw : w < 4) :
    locate c (0x4000 + 16 * j + 4 * w) = some (.hist j w) := by
  rw [Config.wellFormed_iff] at hc
  rw [locate_window c (by omega)]
  simp only [windowAt, entryIndex, entryWord]
  rw [if_neg (by omega), if_neg (by omega), if_neg (by omega), if_pos (by omega), if_pos (by omega)]
  congr 2 <;> omega

/-- SCORE's window (10_state.md R64). -/
theorem locate_score {c : Config} (k : Fin 26) {w : Nat} (hw : w < 4) :
    locate c (0x800 + 16 * k.val + 4 * w) = some (.score k w) := by
  have := k.isLt
  rw [locate_window c (by omega)]
  simp only [windowAt, entryIndex, entryWord]
  rw [if_pos (by omega), dif_pos (by omega)]
  have e1 : (0x800 + 16 * k.val + 4 * w - 0x800) / 16 = k.val := by omega
  have e2 : (0x800 + 16 * k.val + 4 * w - 0x800) % 16 / 4 = w := by omega
  simp only [e1, e2, Fin.eta]

/-- The locations readable while BUSY = 1 are those at R350's addresses. -/
theorem readableWhileBusy_iff {c : Config} {a : Nat} {l : Location} (h : locate c a = some l) :
    l.readableWhileBusy = true ↔ a ∈ readableWhileBusy := by
  unfold locate at h
  split at h
  · rename_i l' hl
    cases h
    have := lookup_registerMap_mem hl
    simp only [registerMap, List.mem_cons, Prod.mk.injEq, List.not_mem_nil, or_false] at this
    rcases this with this | this | this | this | this | this | this | this | this | this | this | this | this | this |
      this | this | this | this | this | this | this | this <;> obtain ⟨rfl, rfl⟩ := this <;>
        simp [Location.readableWhileBusy, readableWhileBusy]
  · have hn : a ∉ readableWhileBusy := by
      intro hm
      simp only [readableWhileBusy, List.mem_cons, List.not_mem_nil, or_false] at hm
      rw [windowAt_low c (by omega)] at h
      cases h
    rcases windowAt_cases h with ⟨-, -, k, w, rfl⟩ | ⟨-, -, rfl⟩ | ⟨w', rfl, -, -⟩ <;>
      simp [Location.readableWhileBusy, hn]

/-- The locations writable while BUSY = 1 are those at R350's addresses. -/
theorem writableWhileBusy_iff {c : Config} {a : Nat} {l : Location} (h : locate c a = some l) :
    l.writableWhileBusy = true ↔ a ∈ writableWhileBusy := by
  unfold locate at h
  split at h
  · rename_i l' hl
    cases h
    have := lookup_registerMap_mem hl
    simp only [registerMap, List.mem_cons, Prod.mk.injEq, List.not_mem_nil, or_false] at this
    rcases this with this | this | this | this | this | this | this | this | this | this | this | this | this | this |
      this | this | this | this | this | this | this | this <;> obtain ⟨rfl, rfl⟩ := this <;>
        simp [Location.writableWhileBusy, writableWhileBusy]
  · have hn : a ∉ writableWhileBusy := by
      intro hm
      simp only [writableWhileBusy, List.mem_cons, List.not_mem_nil, or_false] at hm
      rw [windowAt_low c (by omega)] at h
      cases h
    rcases windowAt_cases h with ⟨-, -, k, w, rfl⟩ | ⟨-, -, rfl⟩ | ⟨w', rfl, -, -⟩ <;>
      simp [Location.writableWhileBusy, hn]

/-! ### Transactions -/

/-- A transaction that gets no ERROR response reaches its location. -/
theorem State.target_ok {s : State} {a : BusAddr} {allowed : Location → Bool} {l : Location} (ha : a.toNat % 4 = 0)
    (hl : locate s.cfg a.toNat = some l) (hb : s.busy = true → allowed l = true) : s.target 4 a allowed = .ok l := by
  rw [State.target, if_neg (by simp), if_neg (by simpa using ha), hl]
  simp only
  rw [if_neg]
  cases hs : s.busy with
  | false => simp
  | true => simp [hb hs]

/-- What a transaction that reaches a location satisfies. -/
theorem State.target_eq_ok {s : State} {bytes : Nat} {a : BusAddr} {allowed : Location → Bool} {l : Location}
    (h : s.target bytes a allowed = .ok l) :
    bytes = 4 ∧ a.toNat % 4 = 0 ∧ locate s.cfg a.toNat = some l ∧ (s.busy = true → allowed l = true) := by
  unfold State.target at h
  split at h
  · cases h
  rename_i h1
  split at h
  · cases h
  rename_i h2
  split at h
  · cases h
  rename_i l' hl
  split at h
  · cases h
  rename_i hb
  cases h
  refine ⟨by simpa using h1, by simpa using h2, hl, fun hs => ?_⟩
  simpa [hs] using hb

/-- A transaction that does not reach a location gets an ERROR response. -/
theorem State.target_eq_error {s : State} {bytes : Nat} {a : BusAddr} {allowed : Location → Bool} {f : Fault}
    (h : s.target bytes a allowed = .error f) : ∃ why, f = .busError why := by
  unfold State.target at h
  repeat' (split at h)
  all_goals cases h
  all_goals exact ⟨_, rfl⟩

/-- What a bus write that gets OKAY does: the write of one location. -/
theorem State.busWrite_eq_ok {s t : State} {bytes : Nat} {a : BusAddr} {v : Word} (h : s.busWrite bytes a v = .ok t) :
    ∃ l, s.target bytes a Location.writableWhileBusy = .ok l ∧ t = s.writeLocation v l := by
  obtain ⟨l, hl, h⟩ := Except.bind_eq_ok h
  cases h
  exact ⟨l, hl, rfl⟩

theorem State.busWrite_ok {s : State} {a : BusAddr} {l : Location} (v : Word) (ha : a.toNat % 4 = 0)
    (hl : locate s.cfg a.toNat = some l) (hb : s.busy = true → l.writableWhileBusy = true) :
    s.busWrite 4 a v = .ok (s.writeLocation v l) := by
  rw [State.busWrite, State.target_ok ha hl hb]; rfl

theorem State.busRead_ok {s : State} {a : BusAddr} {l : Location} (ha : a.toNat % 4 = 0)
    (hl : locate s.cfg a.toNat = some l) (hb : s.busy = true → l.readableWhileBusy = true) :
    s.busRead 4 a = s.readLocation l := by
  rw [State.busRead, State.target_ok ha hl hb]; rfl

/-- Transactions at a register's address. -/
theorem State.busRead_register {s : State} {a : BusAddr} {l : Location} (h : registerMap.lookup a.toNat = some l)
    (ha : a.toNat % 4 = 0) (hb : s.busy = true → l.readableWhileBusy = true) : s.busRead 4 a = s.readLocation l :=
  State.busRead_ok ha (locate_register _ h) hb

theorem State.busWrite_register {s : State} {a : BusAddr} {l : Location} (v : Word)
    (h : registerMap.lookup a.toNat = some l) (ha : a.toNat % 4 = 0) (hb : s.busy = true → l.writableWhileBusy = true) :
    s.busWrite 4 a v = .ok (s.writeLocation v l) :=
  State.busWrite_ok v ha (locate_register _ h) hb

/-- A read does not look at the inputs still to come. -/
theorem State.busRead_withInputs (s : State) (rest : List Input) (bytes : Nat) (a : BusAddr) :
    State.busRead { s with inputs := rest } bytes a = s.busRead bytes a := by
  unfold State.busRead
  change (s.target bytes a _ >>= _) = _
  cases s.target bytes a Location.readableWhileBusy with
  | error e => rfl
  | ok l => cases l <;> rfl

/-- HIST_LEN as the bus reads it is the number of valid entries, if they fit a legal depth (10_state.md R45). -/
theorem State.toNat_histLen {s : State} (h : s.hist.length ≤ 1024) : (s.histLen.setWidth 32).toNat = s.hist.length := by
  rw [State.histLen, BitVec.toNat_setWidth, BitVec.toNat_ofNat]
  omega

/-- The three words of a score make the score (10_state.md R48, R64). -/
theorem toNat_eq_scoreWords (v : BitVec 80) :
    v.toNat = (scoreWord v 2).toNat * 2 ^ 64 + (scoreWord v 1).toNat * 2 ^ 32 + (scoreWord v 0).toNat := by
  have := v.isLt
  simp only [scoreWord, BitVec.toNat_setWidth, BitVec.extractLsb'_toNat, Nat.shiftRight_eq_div_pow]
  omega

end Sys2Proof.Machine
end

