-- ==== Sys2Proof/Laws/Cipher.lean ====
section
/-! SUPPORT. The transform, said once (40_cipher.md R158 to R160, R166, R167), and the arrays after it. -/

namespace Sys2Proof.Machine

@[simp] theorem length_transform (d : Direction) (ks : List Int) (cur : Nat) (cs : List Word) :
    (transform d ks cur cs).1.length = cs.length := by
  induction cs generalizing cur with
  | nil => rfl
  | cons c cs ih =>
    unfold transform
    split <;> simp [ih]

theorem letterCount_cons (c : Word) (cs : List Word) :
    letterCount (c :: cs) = letterCount cs + if (alphaIndex c).isSome then 1 else 0 := by
  simp [letterCount, List.countP_cons]

theorem transform_letter {d : Direction} {ks : List Int} {cur : Nat} {c : Word} (cs : List Word)
    (h : (alphaIndex c).isSome) :
    transform d ks cur (c :: cs) = (shift c (d.delta (keyValue ks cur)) ::
      (transform d ks ((cur + 1) % ks.length) cs).1, (transform d ks ((cur + 1) % ks.length) cs).2) := by
  rw [transform, if_pos h]

theorem transform_other {d : Direction} {ks : List Int} {cur : Nat} {c : Word} (cs : List Word)
    (h : ¬(alphaIndex c).isSome) :
    transform d ks cur (c :: cs) = (c :: (transform d ks cur cs).1, (transform d ks cur cs).2) := by
  rw [transform, if_neg h]

/-- The final cursor (R160). -/
theorem transform_cursor {d : Direction} {ks : List Int} {cur : Nat} (cs : List Word) (h : cur < ks.length) :
    (transform d ks cur cs).2 = (cur + letterCount cs) % ks.length := by
  induction cs generalizing cur with
  | nil => simp [transform, letterCount, Nat.mod_eq_of_lt h]
  | cons c cs ih =>
    rw [letterCount_cons]
    by_cases hc : (alphaIndex c).isSome
    · rw [transform_letter cs hc, if_pos hc, ih (Nat.mod_lt _ (by omega)), Nat.mod_add_mod]
      congr 1
      ring
    · rw [transform_other cs hc, if_neg hc, ih h, Nat.add_zero]

/-- The output symbol at each position (R158): the cursor there is the start plus the letters before it. -/
theorem transform_getElem {d : Direction} {ks : List Int} {cur : Nat} (cs : List Word) (h : cur < ks.length) (i : Nat)
    (hi : i < cs.length) :
    (transform d ks cur cs).1[i]'(by simpa using hi) =
      ciphered (d.delta (keyValue ks ((cur + letterCount (cs.take i)) % ks.length))) cs[i] := by
  induction cs generalizing cur i with
  | nil => simp at hi
  | cons c cs ih =>
    by_cases hc : (alphaIndex c).isSome
    · cases i with
      | zero => simp [transform_letter cs hc, ciphered, hc, letterCount, Nat.mod_eq_of_lt h]
      | succ i =>
        have := ih (cur := (cur + 1) % ks.length) (Nat.mod_lt _ (by omega)) i (by simpa using hi)
        simp only [transform_letter cs hc, List.getElem_cons_succ, this, List.take_succ_cons, letterCount_cons, hc,
          if_true, Nat.mod_add_mod]
        congr 4
        ring
    · cases i with
      | zero => simp [transform_other cs hc, ciphered, hc]
      | succ i =>
        have := ih (cur := cur) h i (by simpa using hi)
        simp [transform_other cs hc, this, letterCount_cons, hc]

/-- A text in two pieces (R167): the second piece starts at the first one's final cursor. -/
theorem transform_append (d : Direction) (ks : List Int) (cur : Nat) (as bs : List Word) :
    transform d ks cur (as ++ bs) =
      ((transform d ks cur as).1 ++ (transform d ks (transform d ks cur as).2 bs).1,
        (transform d ks (transform d ks cur as).2 bs).2) := by
  induction as generalizing cur with
  | nil => rfl
  | cons a as ih =>
    by_cases ha : (alphaIndex a).isSome
    · rw [List.cons_append, transform_letter _ ha, transform_letter _ ha, ih]
      rfl
    · rw [List.cons_append, transform_other _ ha, transform_other _ ha, ih]
      rfl

/-- Decoding an encoded text from the same cursor gives the text back (R166). -/
theorem transform_decode_encode (ks : List Int) (cur : Nat) (cs : List Word) :
    transform .decode ks cur (transform .encode ks cur cs).1 = (cs, (transform .encode ks cur cs).2) := by
  induction cs generalizing cur with
  | nil => rfl
  | cons c cs ih =>
    by_cases hc : (alphaIndex c).isSome
    · rw [transform_letter cs hc, transform_letter _ (by rw [alphaIndex_shift_isSome]; exact hc), ih]
      simp [Direction.delta, shift_neg_shift]
    · rw [transform_other cs hc, transform_other _ hc, ih]

/-- The output holds legal symbols when the input does. -/
theorem toNat_ciphered_le {c : Word} (d : Int) (h : c.toNat ≤ 0x10FFFF) : (ciphered d c).toNat ≤ 0x10FFFF := by
  unfold ciphered
  split
  · exact toNat_shift_le d h
  · exact h

theorem ciphered_neg_ciphered (d : Int) (c : Word) : ciphered (-d) (ciphered d c) = c := by
  unfold ciphered
  by_cases h : (alphaIndex c).isSome
  · rw [if_pos h, if_pos (by rw [alphaIndex_shift_isSome]; exact h), shift_neg_shift]
  · rw [if_neg h, if_neg h]

theorem ciphered_ciphered_neg (d : Int) (c : Word) : ciphered d (ciphered (-d) c) = c := by
  simpa using ciphered_neg_ciphered (-d) c

theorem ciphered_injective (d : Int) : Function.Injective (ciphered d) := fun a b h => by
  have := congrArg (ciphered (-d)) h
  simpa only [ciphered_neg_ciphered] using this

/-- A Caesar transform: every position has the one key value. -/
theorem transform_caesar (d : Direction) (k : Int) (cs : List Word) :
    transform d [k] 0 cs = (cs.map (ciphered (d.delta k)), 0) := by
  induction cs with
  | nil => rfl
  | cons c cs ih =>
    by_cases hc : (alphaIndex c).isSome
    · rw [transform_letter cs hc]
      simp [keyValue, ih, ciphered, hc]
    · rw [transform_other cs hc]
      simp [ih, ciphered, hc]

/-! ### The arrays after a cipher -/

section
variable (s : State) (d : Direction) (ks : List Int) (cur : Nat) (cs : List Word)

theorem State.cipherText_ram_text {i : Nat} (h : i < cs.length) :
    (s.cipherText d ks cur cs).ram (.text i) = some ((transform d ks cur cs).1[i]'(by simpa using h)) := by
  simp only [State.ram, State.cipherText_mem, RamWord.addr]
  exact Memory.readWord_writeWords _ _ _ _ (by simpa using h)

theorem State.cipherText_ram_beyond {i : Nat} (h : cs.length ≤ i) :
    (s.cipherText d ks cur cs).ram (.text i) = s.ram (.text i) := by
  simp only [State.ram, State.cipherText_mem, RamWord.addr]
  exact Memory.readWord_writeWords_outside _ _ (by rw [length_transform]; omega)

theorem State.cipherText_ram_below {w : RamWord} (h : w.addr + 4 ≤ 0x40000) :
    (s.cipherText d ks cur cs).ram w = s.ram w := by
  simp only [State.ram, State.cipherText_mem]
  exact Memory.readWord_writeWords_outside _ _ (by omega)

theorem State.cipherText_readByte {a : Nat} (h : a < 0x40000 ∨ 0x40000 + 4 * cs.length ≤ a) :
    Memory.readByte (s.cipherText d ks cur cs).mem a = Memory.readByte s.mem a := by
  rw [State.cipherText_mem]
  exact Memory.readByte_writeWords_outside _ _ _ _ (by rw [length_transform]; exact h)

end

/-- A transform of legal symbols gives legal symbols. -/
theorem toNat_transform_le (d : Direction) (ks : List Int) (cur : Nat) {cs : List Word} (h : ∀ c ∈ cs, c.toNat ≤ 0x10FFFF) :
    ∀ c ∈ (transform d ks cur cs).1, c.toNat ≤ 0x10FFFF := by
  induction cs generalizing cur with
  | nil => simp [transform]
  | cons c cs ih =>
    have ih' := fun cur => ih cur (fun c hc => h c (by simp [hc]))
    by_cases hc : (alphaIndex c).isSome
    · rw [transform_letter _ hc]
      intro x hx
      rcases List.mem_cons.1 hx with rfl | hx
      · exact toNat_shift_le _ (h c (by simp))
      · exact ih' _ x hx
    · rw [transform_other _ hc]
      intro x hx
      rcases List.mem_cons.1 hx with rfl | hx
      · exact h _ (by simp)
      · exact ih' _ x hx

end Sys2Proof.Machine
end

