-- ==== Sys2Proof/Laws/Decode.lean ====
section
/-! SUPPORT. The decoder and the encoder (30_encoding.md R130 to R133): the fields of a word as numbers, and the one word each
command decodes from. -/

namespace Sys2Proof

theorem toNat_opField (w : Word) : (opField w).toNat = w.toNat % 16 := by
  simp [opField, BitVec.extractLsb'_toNat]

theorem toNat_reservedField (w : Word) : (reservedField w).toNat = w.toNat / 128 := by
  have := w.isLt
  simp only [reservedField, BitVec.extractLsb'_toNat, Nat.shiftRight_eq_div_pow]
  omega

theorem getLsbD_eq_decide (w : Word) (k : Nat) : w.getLsbD k = decide (w.toNat / 2 ^ k % 2 = 1) := by
  rw [BitVec.getLsbD, Nat.testBit_eq_decide_div_mod_eq]

theorem cipherBit_eq (w : Word) : cipherBit w = decide (w.toNat / 16 % 2 = 1) := getLsbD_eq_decide w 4

theorem contBit_eq (w : Word) : contBit w = decide (w.toNat / 32 % 2 = 1) := getLsbD_eq_decide w 5

theorem accBit_eq (w : Word) : accBit w = decide (w.toNat / 64 % 2 = 1) := getLsbD_eq_decide w 6

theorem opField_eq_iff (w : Word) {k : Nat} (h : k < 16) : opField w = BitVec.ofNat 4 k ↔ w.toNat % 16 = k := by
  rw [← toNat_opField, ← BitVec.toNat_inj, BitVec.toNat_ofNat, Nat.mod_eq_of_lt (by omega)]

theorem reservedField_eq_zero_iff (w : Word) : reservedField w = 0 ↔ w.toNat < 128 := by
  rw [← BitVec.toNat_inj, toNat_reservedField]
  have : (0 : BitVec 25).toNat = 0 := rfl
  omega

/-- The decoder in terms of the word's number: what `decode` answers for the words below 128, the others being rejected for
their reserved bits. -/
theorem toNat_lt_of_decode {w : Word} {i : Instr} (h : decode w = .ok i) : w.toNat < 128 := by
  by_contra hn
  have : reservedField w ≠ 0 := by rw [Ne, reservedField_eq_zero_iff]; exact hn
  unfold decode at h
  rw [if_pos this] at h
  cases h

theorem decode_encode (i : Instr) : decode (encode i) = .ok i := by
  cases i with
  | encv c => cases c <;> rfl
  | decv c => cases c <;> rfl
  | train c => cases c <;> rfl
  | _ => rfl

/-- Among the 128 words with no reserved bit set, each that decodes is the encoding of what it decodes to. -/
theorem encode_of_decode_small :
    ∀ n : Fin 128, ∀ i, decode (BitVec.ofNat 32 n.val) = .ok i → BitVec.ofNat 32 n.val = encode i := by
  have key : ∀ n : Fin 128, (match decode (BitVec.ofNat 32 n.val) with
      | .ok i => decide (BitVec.ofNat 32 n.val = encode i)
      | .error _ => true) = true := by decide
  intro n i h
  have := key n
  rw [h] at this
  simpa using this

/-- A word that agrees with a pattern under a mask is the pattern and its own bits outside the mask. -/
theorem eq_pattern_or {w mask pattern : Word} (h : w &&& mask = pattern) : w = pattern ||| (w &&& ~~~mask) := by
  subst h
  ext i hi
  simp only [BitVec.getElem_or, BitVec.getElem_and, BitVec.getElem_not]
  cases w[i] <;> cases mask[i] <;> rfl

/-- The two words that agree with a pattern under a mask with one bit, `k`, left free. -/
theorem eq_pattern_or_bit {w mask pattern : Word} {k : Nat} (h : w &&& mask = pattern)
    (hm : ~~~mask = BitVec.twoPow 32 k) :
    w = pattern ||| if w.getLsbD k then BitVec.twoPow 32 k else 0 := by
  have := eq_pattern_or h
  rwa [hm, BitVec.and_twoPow] at this

/-- The words that select a row of the table are encodings of commands of that row. -/
theorem exists_encode_of_selects {w : Word} {j : Instr} (h : w &&& j.row.mask = j.row.pattern) :
    ∃ i, w = encode i ∧ i.row = j.row := by
  cases j with
  | nop => exact ⟨.nop, by simpa [Instr.row, encode] using eq_pattern_or h, rfl⟩
  | encc => exact ⟨.encc, by simpa [Instr.row, encode] using eq_pattern_or h, rfl⟩
  | decc => exact ⟨.decc, by simpa [Instr.row, encode] using eq_pattern_or h, rfl⟩
  | search => exact ⟨.search, by simpa [Instr.row, encode] using eq_pattern_or h, rfl⟩
  | hack => exact ⟨.hack, by simpa [Instr.row, encode] using eq_pattern_or h, rfl⟩
  | encv c =>
    have hm : ~~~(0xFFFFFFDF : Word) = BitVec.twoPow 32 5 := by decide
    have := eq_pattern_or_bit h hm
    generalize w.getLsbD 5 = b at this
    have e : ((0x11 : Word) ||| if b then BitVec.twoPow 32 5 else 0) = encode (.encv b) := by cases b <;> decide
    exact ⟨.encv b, this.trans e, rfl⟩
  | decv c =>
    have hm : ~~~(0xFFFFFFDF : Word) = BitVec.twoPow 32 5 := by decide
    have := eq_pattern_or_bit h hm
    generalize w.getLsbD 5 = b at this
    have e : ((0x12 : Word) ||| if b then BitVec.twoPow 32 5 else 0) = encode (.decv b) := by cases b <;> decide
    exact ⟨.decv b, this.trans e, rfl⟩
  | train a =>
    have hm : ~~~(0xFFFFFFBF : Word) = BitVec.twoPow 32 6 := by decide
    have := eq_pattern_or_bit h hm
    generalize w.getLsbD 6 = b at this
    have e : ((0x03 : Word) ||| if b then BitVec.twoPow 32 6 else 0) = encode (.train b) := by cases b <;> decide
    exact ⟨.train b, this.trans e, rfl⟩

theorem encode_injective : Function.Injective encode := fun i j h => by
  have := decode_encode i
  rw [h, decode_encode] at this
  simpa using this.symm

end Sys2Proof
end

