-- ==== Sys2Proof/Laws/Flags.lean ====
section
/-! SUPPORT. The fields of STATUS and IRQ_EN as a read returns them (10_state.md R36, R38). -/

namespace Sys2Proof.Machine

theorem getLsbD_ofBool (b : Bool) (i : Nat) : (BitVec.ofBool b).getLsbD i = (b && decide (i = 0)) := by
  cases b <;> simp

section
variable (s : State)

theorem State.statusWord_getLsbD (i : Nat) : s.statusWord.getLsbD i =
    if i = 0 then s.busy else if i = 1 then s.done else if i = 2 then s.err
    else if 8 ≤ i ∧ i < 16 then s.errCodeBits.getLsbD (i - 8) else false := by
  simp only [State.statusWord, BitVec.getLsbD_append, getLsbD_ofBool]
  rcases i with _ | _ | _ | i
  · simp
  · simp
  · simp
  · have h1 : ¬ i + 3 < 1 := by omega
    have h2 : ¬ i + 3 - 1 < 1 := by omega
    have h3 : ¬ i + 3 - 1 - 1 < 1 := by omega
    simp only [h1, h2, h3, if_false, show i + 3 - 1 - 1 - 1 = i by omega]
    by_cases h4 : i < 5
    · have : ¬ 8 ≤ i + 3 := by omega
      simp [h4, this]
    · by_cases h5 : i - 5 < 8
      · have h6 : 8 ≤ i + 3 ∧ i + 3 < 16 := by omega
        have h7 : i + 3 - 8 = i - 5 := by omega
        simp [h4, h5, h6, h7]
      · have h6 : ¬(8 ≤ i + 3 ∧ i + 3 < 16) := by omega
        rw [if_neg h4, if_neg h5, if_neg (by omega), if_neg (by omega), if_neg (by omega), if_neg h6]
        exact BitVec.getLsbD_zero

theorem State.irqEnWord_getLsbD (i : Nat) : s.irqEnWord.getLsbD i =
    if i = 1 then s.doneIe else if i = 2 then s.errIe else false := by
  simp only [State.irqEnWord, BitVec.getLsbD_append, getLsbD_ofBool]
  rcases i with _ | _ | _ | i
  · simp
  · simp
  · simp
  · have h1 : ¬ i + 3 < 1 := by omega
    have h2 : ¬ i + 3 - 1 < 1 := by omega
    rw [if_neg h1, if_neg h2]
    simp

end

end Sys2Proof.Machine
end

