-- ==== Sys2Proof/Laws/PerInstr.lean ====
section
/-! SUPPORT. Statements made per instruction, as syntax (LAWS.json "per_instruction"). -/

/-- The encoding of a command selects its own row of the opcode table (30_encoding.md R131), and its two modifier bits stand
where R130 puts them. -/
def Sys2Proof.Laws.TableRow.Statement (i : Sys2Proof.Instr) : Prop :=
  i.row.selects (Sys2Proof.encode i) = true ∧ i.wellFormed = true ∧
    match i with
    | .encv cont => Sys2Proof.contBit (Sys2Proof.encode i) = cont
    | .decv cont => Sys2Proof.contBit (Sys2Proof.encode i) = cont
    | .train acc => Sys2Proof.accBit (Sys2Proof.encode i) = acc
    | _ => Sys2Proof.encode i = i.row.pattern

theorem Sys2Proof.Laws.TableRow.nop : Sys2Proof.Laws.TableRow.Statement .nop := ⟨rfl, rfl, rfl⟩

theorem Sys2Proof.Laws.TableRow.encc : Sys2Proof.Laws.TableRow.Statement .encc := ⟨rfl, rfl, rfl⟩

theorem Sys2Proof.Laws.TableRow.decc : Sys2Proof.Laws.TableRow.Statement .decc := ⟨rfl, rfl, rfl⟩

theorem Sys2Proof.Laws.TableRow.encv (cont : Bool) : Sys2Proof.Laws.TableRow.Statement (.encv cont) := by
  cases cont <;> exact ⟨rfl, rfl, rfl⟩

theorem Sys2Proof.Laws.TableRow.decv (cont : Bool) : Sys2Proof.Laws.TableRow.Statement (.decv cont) := by
  cases cont <;> exact ⟨rfl, rfl, rfl⟩

theorem Sys2Proof.Laws.TableRow.train (acc : Bool) : Sys2Proof.Laws.TableRow.Statement (.train acc) := by
  cases acc <;> exact ⟨rfl, rfl, rfl⟩

theorem Sys2Proof.Laws.TableRow.search : Sys2Proof.Laws.TableRow.Statement .search := ⟨rfl, rfl, rfl⟩

theorem Sys2Proof.Laws.TableRow.hack : Sys2Proof.Laws.TableRow.Statement .hack := ⟨rfl, rfl, rfl⟩
end

