-- ==== Sys2Proof/Laws/Train.lean ====
section
/-! SUPPORT. Counting, said once (41_train.md R200, R201; 60_exceptions.md R303, codes 0x40 and 0x41). -/

namespace Sys2Proof.Machine

theorem histHas_iff {h : List HistEntry} {c : Word} : histHas h c = true ↔ c ∈ h.map HistEntry.sym := by
  simp [histHas]

theorem histHas_eq_false_iff {h : List HistEntry} {c : Word} : histHas h c = false ↔ c ∉ h.map HistEntry.sym := by
  rw [← histHas_iff]; simp

/-- A new symbol at the end of the list of symbols seen (R200's order of first occurrence). -/
abbrev addNew (seen : List Word) (c : Word) : List Word := if c ∈ seen then seen else seen ++ [c]

theorem firstOccurrences_append (a b : List Word) :
    firstOccurrences (a ++ b) = b.foldl addNew (firstOccurrences a) := by
  simp [firstOccurrences, List.foldl_append]

theorem toFinset_foldl_addNew (cs seen : List Word) : (cs.foldl addNew seen).toFinset = (seen ++ cs).toFinset := by
  induction cs generalizing seen with
  | nil => simp
  | cons c cs ih =>
    rw [List.foldl_cons, ih]
    unfold addNew
    split
    · rename_i h
      ext x
      simp only [List.toFinset_append, Finset.mem_union, List.mem_toFinset, List.mem_cons]
      constructor
      · rintro (h | h) <;> simp [h]
      · rintro (hx | rfl | hx) <;> simp [*]
    · simp

theorem nodup_foldl_addNew (cs seen : List Word) (h : seen.Nodup) : (cs.foldl addNew seen).Nodup := by
  induction cs generalizing seen with
  | nil => exact h
  | cons c cs ih =>
    rw [List.foldl_cons]
    apply ih
    unfold addNew
    split
    · exact h
    · rename_i hc
      rw [List.nodup_append]
      refine ⟨h, by simp, ?_⟩
      intro a ha b hb
      rw [List.mem_singleton] at hb
      subst hb
      exact fun e => hc (e ▸ ha)

theorem length_foldl_addNew {cs seen : List Word} (h : seen.Nodup) :
    (cs.foldl addNew seen).length = distinct (seen ++ cs) := by
  rw [distinct, ← toFinset_foldl_addNew, List.toFinset_card_of_nodup (nodup_foldl_addNew _ _ h)]

theorem foldl_addNew_of_nodup (seen : List Word) (cs : List Word) (h : (seen ++ cs).Nodup) :
    cs.foldl addNew seen = seen ++ cs := by
  induction cs generalizing seen with
  | nil => simp
  | cons c cs ih =>
    have hc : c ∉ seen := by
      rw [List.nodup_append] at h
      intro hin
      exact h.2.2 c hin c (by simp) rfl
    rw [List.foldl_cons, addNew, if_neg hc, ih _ (by simpa using h)]
    simp

theorem firstOccurrences_of_nodup {l : List Word} (h : l.Nodup) : firstOccurrences l = l := by
  have := foldl_addNew_of_nodup [] l (by simpa using h)
  simpa [firstOccurrences] using this

theorem distinct_mono {a b : List Word} (h : ∀ x ∈ a, x ∈ b) : distinct a ≤ distinct b :=
  Finset.card_le_card fun x hx => by
    rw [List.mem_toFinset] at hx ⊢
    exact h x hx

/-! ### Counting one symbol -/

theorem countSymbol_syms (h : List HistEntry) (c : Word) :
    (countSymbol h c).map HistEntry.sym = addNew (h.map HistEntry.sym) c := by
  induction h with
  | nil => simp [countSymbol, addNew]
  | cons e es ih =>
    unfold countSymbol
    by_cases he : e.sym = c
    · simp [he]
    · rw [if_neg he, List.map_cons, ih]
      by_cases hc : c ∈ es.map HistEntry.sym
      · rw [addNew, if_pos hc, addNew, if_pos (by simp [hc]), List.map_cons]
      · have hne : ¬c = e.sym := fun h => he h.symm
        rw [addNew, if_neg hc, addNew, if_neg (by rw [List.map_cons, List.mem_cons]; tauto)]
        simp

theorem histCount_cons (e : HistEntry) (es : List HistEntry) (d : Word) :
    histCount (e :: es) d = (if e.sym = d then e.count.toNat else 0) + histCount es d := by
  unfold histCount
  by_cases h : e.sym = d <;> simp [h]

theorem histCount_of_not_mem {h : List HistEntry} {d : Word} (hd : d ∉ h.map HistEntry.sym) : histCount h d = 0 := by
  induction h with
  | nil => rfl
  | cons e es ih =>
    rw [List.map_cons, List.mem_cons, not_or] at hd
    rw [histCount_cons, if_neg (fun h => hd.1 h.symm), ih hd.2]

theorem histSum_cons (e : HistEntry) (es : List HistEntry) : histSum (e :: es) = e.count.toNat + histSum es := by
  simp [histSum]

theorem histCount_le_histSum (h : List HistEntry) (c : Word) : histCount h c ≤ histSum h := by
  induction h with
  | nil => simp [histCount, histSum]
  | cons e es ih =>
    rw [histCount_cons, histSum_cons]
    split <;> omega

theorem toNat_add_one {v : Word} (h : v.toNat < 2 ^ 32 - 1) : (v + 1).toNat = v.toNat + 1 := by
  rw [BitVec.toNat_add]
  have : (1 : Word).toNat = 1 := rfl
  rw [this, Nat.mod_eq_of_lt (by omega)]

/-- Counting a symbol adds 1 to the sum of the counts, below the limit of TOTAL. -/
theorem histSum_countSymbol {h : List HistEntry} (c : Word) (hs : histSum h < 2 ^ 32 - 1) :
    histSum (countSymbol h c) = histSum h + 1 := by
  induction h with
  | nil => rfl
  | cons e es ih =>
    rw [histSum_cons] at hs
    unfold countSymbol
    split
    · rw [histSum_cons, histSum_cons, toNat_add_one (by omega)]; omega
    · rw [histSum_cons, histSum_cons, ih (by omega)]; omega

/-- Counting a symbol adds 1 to its count and to no other. -/
theorem histCount_countSymbol {h : List HistEntry} (c d : Word) (hnd : (h.map HistEntry.sym).Nodup)
    (hs : histSum h < 2 ^ 32 - 1) :
    histCount (countSymbol h c) d = histCount h d + if c = d then 1 else 0 := by
  induction h with
  | nil => by_cases hcd : c = d <;> simp [countSymbol, histCount, hcd]
  | cons e es ih =>
    rw [List.map_cons, List.nodup_cons] at hnd
    rw [histSum_cons] at hs
    unfold countSymbol
    by_cases he : e.sym = c
    · rw [if_pos he, histCount_cons, histCount_cons]
      by_cases hcd : c = d
      · subst hcd
        simp only [he, if_true]
        rw [toNat_add_one (by omega)]; omega
      · have : ¬e.sym = d := fun h => hcd (he.symm.trans h)
        simp [this, hcd]
    · rw [if_neg he, histCount_cons, histCount_cons, ih hnd.2 (by omega)]; omega

theorem one_le_count_countSymbol {h : List HistEntry} {c : Word} (hs : histSum h < 2 ^ 32 - 1)
    (h1 : ∀ e ∈ h, 1 ≤ e.count.toNat) : ∀ e ∈ countSymbol h c, 1 ≤ e.count.toNat := by
  induction h with
  | nil =>
    intro e he
    have : e = ⟨c, 1⟩ := by simpa [countSymbol] using he
    subst this
    exact Nat.le_refl 1
  | cons e es ih =>
    rw [histSum_cons] at hs
    intro x hx
    unfold countSymbol at hx
    split at hx
    · rcases List.mem_cons.1 hx with rfl | hx
      · change 1 ≤ (e.count + 1).toNat
        rw [toNat_add_one (by omega)]; omega
      · exact h1 x (by simp [hx])
    · rcases List.mem_cons.1 hx with rfl | hx
      · exact h1 x (by simp)
      · exact ih (by omega) (fun y hy => h1 y (by simp [hy])) x hx

/-- A histogram and a total that agree (R201, without the depth). -/
abbrev modelAgrees (h : List HistEntry) (t : Word) : Prop :=
  t.toNat = histSum h ∧ (∀ e ∈ h, 1 ≤ e.count.toNat) ∧ (h.map HistEntry.sym).Nodup

theorem modelAgrees_empty : modelAgrees [] 0 := ⟨rfl, by simp, by simp⟩

theorem modelAgrees_countSymbol {h : List HistEntry} {t : Word} (c : Word) (ha : modelAgrees h t) (ht : t ≠ maxTotal) :
    modelAgrees (countSymbol h c) (t + 1) ∧ (t + 1).toNat = t.toNat + 1 := by
  obtain ⟨h1, h2, h3⟩ := ha
  have hlt : t.toNat < 2 ^ 32 - 1 := by
    have := t.isLt
    have hne : t.toNat ≠ maxTotal.toNat := fun h => ht (BitVec.eq_of_toNat_eq h)
    have : maxTotal.toNat = 2 ^ 32 - 1 := rfl
    omega
  refine ⟨⟨?_, one_le_count_countSymbol (by omega) h2, ?_⟩, toNat_add_one hlt⟩
  · rw [toNat_add_one hlt, histSum_countSymbol c (by omega), h1]
  · rw [countSymbol_syms]
    exact nodup_foldl_addNew [c] _ h3

theorem length_countSymbol (h : List HistEntry) (c : Word) :
    (countSymbol h c).length = h.length + if histHas h c then 0 else 1 := by
  have := congrArg List.length (countSymbol_syms h c)
  simp only [List.length_map] at this
  rw [this, addNew]
  by_cases hc : c ∈ h.map HistEntry.sym
  · rw [if_pos hc, if_pos (histHas_iff.2 hc)]; simp
  · rw [if_neg hc, if_neg (by rw [histHas_iff]; exact hc)]; simp

/-! ### Counting a text -/

/-- One symbol of a count that passes both capacity checks. -/
theorem trainBody_cons_of_fits {depth i : Nat} {h : List HistEntry} {t : Word} {c : Word} (cs : List Word)
    (h1 : c ∈ h.map HistEntry.sym ∨ h.length ≠ depth) (h2 : t ≠ maxTotal) :
    trainBody depth i h t (c :: cs) = trainBody depth (i + 1) (countSymbol h c) (t + 1) cs := by
  rw [trainBody, if_neg, if_neg h2]
  intro hc
  simp only [Bool.and_eq_true, Bool.not_eq_true', beq_iff_eq, histHas_eq_false_iff] at hc
  tauto

/-- A count of a text in two pieces. -/
theorem trainBody_append (depth i : Nat) (h : List HistEntry) (t : Word) (as bs : List Word) :
    trainBody depth i h t (as ++ bs) =
      (trainBody depth i h t as >>= fun r => trainBody depth (i + as.length) r.1 r.2 bs) := by
  induction as generalizing i h t with
  | nil => simp [trainBody]
  | cons a as ih =>
    rw [List.cons_append, trainBody, trainBody]
    split
    · rfl
    · split
      · rfl
      · rw [ih, List.length_cons, show i + 1 + as.length = i + (as.length + 1) by ring]

/-- What a count that succeeds gives (R200, R201). -/
theorem trainBody_ok {depth i : Nat} {h h' : List HistEntry} {t t' : Word} {cs : List Word}
    (ha : modelAgrees h t) (hd : h.length ≤ depth) (hr : trainBody depth i h t cs = .ok (h', t')) :
    modelAgrees h' t' ∧ h'.length ≤ depth ∧ t'.toNat = t.toNat + cs.length ∧
      h'.map HistEntry.sym = cs.foldl addNew (h.map HistEntry.sym) ∧
      ∀ c, histCount h' c = histCount h c + cs.count c := by
  induction cs generalizing i h t with
  | nil =>
    cases hr
    exact ⟨ha, hd, rfl, rfl, fun c => by simp⟩
  | cons c cs ih =>
    rw [trainBody] at hr
    split at hr
    · cases hr
    rename_i hnew
    split at hr
    · cases hr
    rename_i ht
    simp only [Bool.and_eq_true, Bool.not_eq_true', beq_iff_eq, not_and] at hnew
    obtain ⟨ha', ht'⟩ := modelAgrees_countSymbol c ha ht
    have hlt : histSum h < 2 ^ 32 - 1 := by
      have := (t + 1).isLt
      have := ha.1
      omega
    have hd' : (countSymbol h c).length ≤ depth := by
      rw [length_countSymbol]
      cases hh : histHas h c with
      | true => simpa using hd
      | false => have := hnew hh; simp; omega
    obtain ⟨r1, r2, r3, r4, r5⟩ := ih ha' hd' hr
    refine ⟨r1, r2, by rw [r3, ht', List.length_cons]; omega, by rw [r4, countSymbol_syms]; rfl, fun d => ?_⟩
    rw [r5, histCount_countSymbol c d ha.2.2 hlt, List.count_cons]
    by_cases hcd : c = d
    · simp [hcd]; omega
    · simp [hcd]

/-- When a count succeeds: the distinct symbols fit the depth and the total stays in range. -/
theorem trainBody_fits {depth : Nat} (i : Nat) {h : List HistEntry} {t : Word} {cs : List Word}
    (ha : modelAgrees h t) (hf : distinct (h.map HistEntry.sym ++ cs) ≤ depth)
    (ht : t.toNat + cs.length ≤ 2 ^ 32 - 1) : ∃ r, trainBody depth i h t cs = .ok r := by
  induction cs generalizing i h t with
  | nil => exact ⟨_, rfl⟩
  | cons c cs ih =>
    rw [List.length_cons] at ht
    have htm : t ≠ maxTotal := by
      intro h
      rw [h] at ht
      have : maxTotal.toNat = 2 ^ 32 - 1 := rfl
      omega
    obtain ⟨ha', ht'⟩ := modelAgrees_countSymbol c ha htm
    have hfit : c ∈ h.map HistEntry.sym ∨ h.length ≠ depth := by
      by_cases hc : c ∈ h.map HistEntry.sym
      · exact .inl hc
      · right
        have hnd : (h.map HistEntry.sym ++ [c]).Nodup := by
          have := nodup_foldl_addNew [c] _ ha.2.2
          simpa [addNew, hc] using this
        have h1 : distinct (h.map HistEntry.sym ++ [c]) = h.length + 1 := by
          rw [distinct, List.toFinset_card_of_nodup hnd]; simp
        have h2 : distinct (h.map HistEntry.sym ++ [c]) ≤ distinct (h.map HistEntry.sym ++ c :: cs) :=
          distinct_mono (by
            intro x hx; simp only [List.mem_append, List.mem_cons, List.not_mem_nil, or_false] at hx ⊢; tauto)
        omega
    rw [trainBody_cons_of_fits cs hfit htm]
    refine ih (i + 1) ha' ?_ (by omega)
    refine le_trans (distinct_mono ?_) hf
    rw [countSymbol_syms]
    intro x hx
    unfold addNew at hx
    split at hx <;> simp only [List.mem_append, List.mem_cons, List.not_mem_nil, or_false] at hx ⊢ <;> tauto

/-- The number of entries after a count that succeeds: the distinct symbols so far. -/
theorem trainBody_ok_length {depth i : Nat} {h h' : List HistEntry} {t t' : Word} {cs : List Word}
    (ha : modelAgrees h t) (hd : h.length ≤ depth) (hr : trainBody depth i h t cs = .ok (h', t')) :
    h'.length = distinct (h.map HistEntry.sym ++ cs) := by
  have := congrArg List.length (trainBody_ok ha hd hr).2.2.2.1
  rw [List.length_map, length_foldl_addNew ha.2.2] at this
  exact this

/-- Where a count stops for want of an entry (code 0x40). -/
theorem trainBody_capacityHist {depth i : Nat} {h : List HistEntry} {t : Word} {as bs : List Word} {c : Word}
    (ha : modelAgrees h t) (hd : h.length ≤ depth) (hf : distinct (h.map HistEntry.sym ++ as) = depth)
    (hc : c ∉ h.map HistEntry.sym ++ as) (ht : t.toNat + as.length ≤ 2 ^ 32 - 1) :
    trainBody depth i h t (as ++ c :: bs) = .error (.error .capacityHist (BitVec.ofNat 32 (i + as.length))) := by
  obtain ⟨⟨h', t'⟩, hr⟩ := trainBody_fits i ha (le_of_eq hf) ht
  rw [trainBody_append, hr, Except.okBind, trainBody, if_pos]
  have hl := trainBody_ok_length ha hd hr
  have hm : c ∉ h'.map HistEntry.sym := by
    rw [(trainBody_ok ha hd hr).2.2.2.1, ← List.mem_toFinset, toFinset_foldl_addNew, List.mem_toFinset]
    exact hc
  simp only [Bool.and_eq_true, Bool.not_eq_true', beq_iff_eq, histHas_eq_false_iff]
  exact ⟨hm, by rw [hl, hf]⟩

/-- Where a count stops because TOTAL is at its limit (code 0x41). -/
theorem trainBody_capacityTotal {depth i : Nat} {h : List HistEntry} {t : Word} {as bs : List Word} {c : Word}
    (ha : modelAgrees h t) (hd : h.length ≤ depth) (hf : distinct (h.map HistEntry.sym ++ (as ++ [c])) ≤ depth)
    (ht : t.toNat + as.length = 2 ^ 32 - 1) :
    trainBody depth i h t (as ++ c :: bs) = .error (.error .capacityTotal (BitVec.ofNat 32 (i + as.length))) := by
  have hf' : distinct (h.map HistEntry.sym ++ as) ≤ depth :=
    le_trans (distinct_mono (by
            intro x hx; simp only [List.mem_append, List.mem_cons, List.not_mem_nil, or_false] at hx ⊢; tauto)) hf
  obtain ⟨⟨h', t'⟩, hr⟩ := trainBody_fits i ha hf' (le_of_eq ht)
  obtain ⟨-, -, r3, r4, -⟩ := trainBody_ok ha hd hr
  have hl := trainBody_ok_length ha hd hr
  rw [trainBody_append, hr, Except.okBind, trainBody, if_neg, if_pos]
  · apply BitVec.eq_of_toNat_eq
    change t'.toNat = 2 ^ 32 - 1
    omega
  · simp only [Bool.and_eq_true, Bool.not_eq_true', beq_iff_eq, histHas_eq_false_iff, not_and]
    intro hm hl'
    rw [r4, ← List.mem_toFinset, toFinset_foldl_addNew, List.mem_toFinset] at hm
    have : distinct (h.map HistEntry.sym ++ (as ++ [c])) = distinct (h.map HistEntry.sym ++ as) + 1 := by
      unfold distinct
      rw [← List.append_assoc, List.toFinset_append, Finset.union_comm]
      simp only [List.toFinset_cons, List.toFinset_nil, LawfulSingleton.insert_empty_eq, Finset.singleton_union]
      rw [Finset.card_insert_of_notMem (by rwa [List.mem_toFinset])]
    omega

/-- A count never reads the RAM. -/
theorem trainBody_ne_unwritten {depth i : Nat} {h : List HistEntry} {t : Word} {cs : List Word} {w : RamWord} :
    trainBody depth i h t cs ≠ .error (.unwritten w) := by
  induction cs generalizing i h t with
  | nil => intro h; cases h
  | cons c cs ih =>
    rw [trainBody]
    split
    · simp
    · split
      · simp
      · exact ih

/-- A count that succeeds does not look at the index it starts from. -/
theorem trainBody_ok_index {depth i : Nat} (j : Nat) {h : List HistEntry} {t : Word} {cs : List Word}
    {r : List HistEntry × Word} (hr : trainBody depth i h t cs = .ok r) : trainBody depth j h t cs = .ok r := by
  induction cs generalizing i j h t with
  | nil => exact hr
  | cons c cs ih =>
    rw [trainBody] at hr ⊢
    split at hr
    · cases hr
    rename_i h1
    split at hr
    · cases hr
    rename_i h2
    rw [if_neg h1, if_neg h2]
    exact ih _ hr

/-! ### Where a TRAIN starts -/

theorem State.trainStart_syms (s : State) (acc : Bool) : (s.trainStart acc).1.map HistEntry.sym = s.startSymbols acc := by
  cases acc <;> rfl

theorem State.trainStart_total (s : State) (acc : Bool) : (s.trainStart acc).2.toNat = s.startTotal acc := by
  cases acc <;> rfl

theorem State.trainStart_count (s : State) (acc : Bool) (c : Word) :
    histCount (s.trainStart acc).1 c = s.startCount acc c := by
  cases acc <;> rfl

theorem State.trainStart_agrees {s : State} {acc : Bool} (h : acc = true → s.histCoherent) :
    modelAgrees (s.trainStart acc).1 (s.trainStart acc).2 := by
  cases acc with
  | false => exact modelAgrees_empty
  | true => exact ⟨(h rfl).1, (h rfl).2.1, (h rfl).2.2.2⟩

theorem State.trainStart_length {s : State} {acc : Bool} (h : acc = true → s.histCoherent) :
    (s.trainStart acc).1.length ≤ s.cfg.histDepth := by
  cases acc with
  | false => simp [State.trainStart]
  | true => exact (h rfl).2.2.1

theorem State.startSymbols_nodup {s : State} {acc : Bool} (h : acc = true → s.histCoherent) : (s.startSymbols acc).Nodup := by
  cases acc with
  | false => simp [State.startSymbols]
  | true => exact (h rfl).2.2.2

/-! ### Counts of single entries -/

theorem histCount_of_mem {h : List HistEntry} (hn : (h.map HistEntry.sym).Nodup) {e : HistEntry} (he : e ∈ h) :
    histCount h e.sym = e.count.toNat := by
  induction h with
  | nil => cases he
  | cons a as ih =>
    rw [List.map_cons, List.nodup_cons] at hn
    rw [histCount_cons]
    rcases List.mem_cons.1 he with rfl | he
    · rw [if_pos rfl, histCount_of_not_mem hn.1]; rfl
    · have hne : a.sym ≠ e.sym := fun h => hn.1 (h ▸ List.mem_map.2 ⟨e, he, rfl⟩)
      rw [if_neg hne, ih hn.2 he, Nat.zero_add]

theorem count_le_histSum {h : List HistEntry} {e : HistEntry} (he : e ∈ h) : e.count.toNat ≤ histSum h :=
  List.single_le_sum (fun _ _ => Nat.zero_le _) _ (List.mem_map.2 ⟨e, he, rfl⟩)

theorem length_le_histSum {h : List HistEntry} (h1 : ∀ e ∈ h, 1 ≤ e.count.toNat) : h.length ≤ histSum h := by
  induction h with
  | nil => exact Nat.le_refl 0
  | cons e es ih =>
    have := h1 e (by simp)
    have := ih (fun x hx => h1 x (by simp [hx]))
    rw [histSum_cons, List.length_cons]; omega

/-- The readout of a count that is at most the total does not overflow its word. -/
theorem toNat_freqReadout {count total : Word} (h : count.toNat ≤ total.toNat) :
    (freqReadout count total).toNat = count.toNat * 2 ^ 31 / total.toNat := by
  have : count.toNat * 2 ^ 31 / total.toNat ≤ 2 ^ 31 := Nat.div_le_of_le_mul (Nat.mul_le_mul_right _ h)
  rw [freqReadout, BitVec.toNat_ofNat, Nat.mod_eq_of_lt (by omega)]

end Sys2Proof.Machine
end

