-- ==== Sys2Proof/Laws/Search.lean ====
section
/-! SUPPORT. Scores and the first minimum, said once (42_keysearch.md R230 to R235). -/

namespace Sys2Proof.Machine

theorem toNat_refFreq (ref : List RefEntry) (c : Word) : (refFreq ref c).toNat = referenceFrequency ref c := by
  induction ref with
  | nil => rfl
  | cons e es ih =>
    unfold refFreq referenceFrequency
    by_cases h : e.sym = c
    · simp [h]
    · have hb : (e.sym == c) = false := by simpa using h
      rw [if_neg h, ih, List.find?_cons, hb]
      rfl

theorem decodedSymbol_eq (k : Nat) (c : Word) : decodedSymbol k c = ciphered (-(k : Int)) c := rfl

/-- The machine's score is the exact one. -/
theorem candidateScore_eq (h : List HistEntry) (t : Word) (ref : List RefEntry) (k : Nat) :
    candidateScore h t ref k = exactScore h t.toNat ref k := by
  unfold candidateScore exactScore
  congr 1
  apply List.map_congr_left
  intro e _
  simp only [scoreTerm, toNat_refFreq, decodedSymbol_eq]

theorem referenceFrequency_le {ref : List RefEntry} (h : ∀ e ∈ ref, e.freq.toNat ≤ 2 ^ 31) (c : Word) :
    referenceFrequency ref c ≤ 2 ^ 31 := by
  unfold referenceFrequency
  split
  · rename_i e he
    exact h e (List.mem_of_find?_eq_some he)
  · omega

/-- Each term of a score is below 2^63 (R235). -/
theorem scoreTerm_lt {ref : List RefEntry} (h : ∀ e ∈ ref, e.freq.toNat ≤ 2 ^ 31) (t : Word) (k : Nat) (e : HistEntry) :
    scoreTerm t ref k e < 2 ^ 63 := by
  unfold scoreTerm
  rw [toNat_refFreq]
  have h1 := referenceFrequency_le h (decodedSymbol k e.sym)
  have h2 := t.isLt
  have h3 := e.count.isLt
  have h4 : t.toNat * referenceFrequency ref (decodedSymbol k e.sym) ≤ (2 ^ 32 - 1) * 2 ^ 31 :=
    Nat.mul_le_mul (by omega) h1
  have h5 : (t.toNat : Int) * (referenceFrequency ref (decodedSymbol k e.sym) : Int) =
      ((t.toNat * referenceFrequency ref (decodedSymbol k e.sym) : Nat) : Int) := by push_cast; ring
  rw [h5]
  omega

theorem sum_map_lt {α : Type} (l : List α) (f : α → Nat) (b : Nat) (h : ∀ x ∈ l, f x < b) :
    (l.map f).sum ≤ l.length * b := by
  induction l with
  | nil => simp
  | cons x xs ih =>
    have h1 := h x (by simp)
    have h2 := ih (fun y hy => h y (by simp [hy]))
    rw [List.map_cons, List.sum_cons, List.length_cons, Nat.succ_mul]
    omega

/-- A score of at most 1024 terms fits 80 bits (R235). -/
theorem candidateScore_lt {h : List HistEntry} {ref : List RefEntry} (hl : h.length ≤ 1024)
    (hr : ∀ e ∈ ref, e.freq.toNat ≤ 2 ^ 31) (t : Word) (k : Nat) : candidateScore h t ref k < 2 ^ 80 := by
  have h1 := sum_map_lt h (scoreTerm t ref k) (2 ^ 63) (fun e _ => scoreTerm_lt hr t k e)
  have h2 : h.length * 2 ^ 63 ≤ 1024 * 2 ^ 63 := Nat.mul_le_mul_right _ hl
  unfold candidateScore
  omega

/-- The fold of R233 over shifts n, n+1, ... keeps the first minimum. -/
theorem foldl_firstMinimum (f : Nat → Nat) (m n b : Nat) (hb : b < n) (h1 : ∀ k < n, f b ≤ f k) (h2 : ∀ k < b, f b < f k) :
    let r := (List.range' n m).foldl (fun best k => if f k < f best then k else best) b
    r < n + m ∧ (∀ k < n + m, f r ≤ f k) ∧ ∀ k < r, f r < f k := by
  induction m generalizing n b with
  | zero => exact ⟨by simpa using hb, by simpa using h1, by simpa using h2⟩
  | succ m ih =>
    rw [List.range'_succ, List.foldl_cons]
    by_cases hn : f n < f b
    · rw [if_pos hn]
      have := ih (n + 1) n (by omega)
        (fun k hk => by
          rcases Nat.lt_succ_iff_lt_or_eq.1 hk with hk | rfl
          · exact le_trans (le_of_lt hn) (h1 k hk)
          · exact le_rfl)
        (fun k hk => lt_of_lt_of_le hn (h1 k hk))
      rwa [show n + 1 + m = n + (m + 1) by ring] at this
    · rw [if_neg hn]
      have := ih (n + 1) b (by omega)
        (fun k hk => by
          rcases Nat.lt_succ_iff_lt_or_eq.1 hk with hk | rfl
          · exact h1 k hk
          · omega)
        h2
      rwa [show n + 1 + m = n + (m + 1) by ring] at this

/-- The first minimum of 26 scores (R233). -/
theorem firstMinimum_spec (f : Nat → Nat) :
    firstMinimum f < 26 ∧ (∀ k < 26, f (firstMinimum f) ≤ f k) ∧ ∀ k < firstMinimum f, f (firstMinimum f) < f k :=
  foldl_firstMinimum f 25 1 0 (by omega) (fun k hk => by
    have : k = 0 := by omega
    subst this; exact le_rfl) (fun k hk => by omega)

/-- The result registers after a search whose scores fit 80 bits. -/
theorem State.searchKeys_holds (s : State) (ref : List RefEntry)
    (h : ∀ k, candidateScore s.hist s.total ref k < 2 ^ 80) :
    (s.searchKeys ref).holdsSearchOf (candidateScore s.hist s.total ref) := by
  obtain ⟨h1, h2, h3⟩ := firstMinimum_spec (candidateScore s.hist s.total ref)
  have hk : (s.searchKeys ref).bestKey.toNat = firstMinimum (candidateScore s.hist s.total ref) := by
    rw [State.searchKeys_bestKey, BitVec.toNat_ofNat, Nat.mod_eq_of_lt (by omega)]
  refine ⟨fun k => ?_, by omega, ?_, by rw [hk]; exact h2, by rw [hk]; exact h3⟩
  · simp only [State.searchKeys_score, Fin.getElem_fin, Vector.getElem_ofFn, BitVec.toNat_ofNat]
    exact Nat.mod_eq_of_lt (h k.val)
  · rw [hk, State.searchKeys_bestScore, BitVec.toNat_ofNat, Nat.mod_eq_of_lt (h _)]

/-- A search whose scores fit leaves the result registers in agreement. -/
theorem State.bestCoherent_of_holdsSearchOf {s : State} {S : Nat → Nat} (h : s.holdsSearchOf S) : s.bestCoherent := by
  obtain ⟨h1, h2, h3, h4, h5⟩ := h
  have e := h1 ⟨_, h2⟩
  refine ⟨⟨_, h2⟩, rfl, BitVec.eq_of_toNat_eq (by rw [h3, e]), fun k => ?_, fun k hk => ?_⟩
  · rw [e, h1 k]; exact h4 _ k.isLt
  · rw [e, h1 k]; exact h5 _ hk

end Sys2Proof.Machine
end

