-- ==== Sys2Proof/Laws/Step.lean ====
section
/-! SUPPORT. What a command and a step can do, said once: every next state is one of the cases here, and an invariant is
proved by one small goal per case. -/

namespace Sys2Proof.Machine

/-- What a command's body does when its checks pass: the operands it read and the state it leaves before completion. -/
def commandBody (s u : State) : Instr → Prop
  | .nop => u = s
  | .encc => ∃ text, s.textLoaded text ∧ u = s.cipherText .encode [signed32 s.ckey] 0 text
  | .decc => ∃ text, s.textLoaded text ∧ u = s.cipherText .decode [signed32 s.ckey] 0 text
  | .encv cont => ∃ key text, s.keyLoaded key ∧ s.cursorLegal cont ∧ s.textLoaded text ∧
      u = s.cipherText .encode (key.map fun c => (subkey c : Int)) (s.startCursor cont) text
  | .decv cont => ∃ key text, s.keyLoaded key ∧ s.cursorLegal cont ∧ s.textLoaded text ∧
      u = s.cipherText .decode (key.map fun c => (subkey c : Int)) (s.startCursor cont) text
  | .train acc => ∃ text r, s.textLoaded text ∧
      trainBody s.cfg.histDepth 0 (s.trainStart acc).1 (s.trainStart acc).2 text = .ok r ∧
      u = { s with hist := r.1, total := r.2 }
  | .search => ∃ ref, s.refLoaded ref ∧ u = s.searchKeys ref
  | .hack => ∃ ref text r, s.refLoaded ref ∧ s.textLoaded text ∧ trainBody s.cfg.histDepth 0 [] 0 text = .ok r ∧
      u = (State.searchKeys { s with hist := r.1, total := r.2 } ref).cipherText .decode
        [((State.searchKeys { s with hist := r.1, total := r.2 } ref).bestKey.toNat : Int)] 0 text

/-! ### A command completes when its operands are there -/

theorem execNop_eq (s : State) : exec .nop s = .next s.finish := rfl

theorem State.caesar_of_loaded {s : State} {text : List Word} (h : s.textLoaded text) (d : Direction) :
    s.caesar d = .next (s.cipherText d [signed32 s.ckey] 0 text).finish := by
  rw [State.caesar, State.textOperand_eq_ok_iff.2 h]; rfl

theorem State.vigenere_of_loaded {s : State} {key text : List Word} {cont : Bool} (hk : s.keyLoaded key)
    (hc : s.cursorLegal cont) (h : s.textLoaded text) (d : Direction) :
    s.vigenere d cont =
      .next (s.cipherText d (key.map fun c => (subkey c : Int)) (s.startCursor cont) text).finish := by
  rw [State.vigenere, State.keyOperand_eq_ok_iff.2 ⟨hk, hc⟩, State.textOperand_eq_ok_iff.2 h]; rfl

theorem execTrain_of_loaded {s : State} {text : List Word} {acc : Bool} {r : List HistEntry × Word} (h : s.textLoaded text)
    (hr : trainBody s.cfg.histDepth 0 (s.trainStart acc).1 (s.trainStart acc).2 text = .ok r) :
    exec (.train acc) s = .next (State.finish { s with hist := r.1, total := r.2 }) := by
  change execTrain acc s = _
  rw [execTrain, State.textOperand_eq_ok_iff.2 h, Except.okBind, hr]; rfl

theorem execSearch_of_loaded {s : State} {ref : List RefEntry} (h : s.refLoaded ref) :
    exec .search s = .next (s.searchKeys ref).finish := by
  change execSearch s = _
  rw [execSearch, State.refOperand_eq_ok_iff.2 h]; rfl

theorem execHack_of_loaded {s : State} {ref : List RefEntry} {text : List Word} {r : List HistEntry × Word}
    (hf : s.refLoaded ref) (h : s.textLoaded text) (hr : trainBody s.cfg.histDepth 0 [] 0 text = .ok r) :
    exec .hack s = .next ((State.searchKeys { s with hist := r.1, total := r.2 } ref).cipherText .decode
        [((State.searchKeys { s with hist := r.1, total := r.2 } ref).bestKey.toNat : Int)] 0 text).finish := by
  change execHack s = _
  rw [execHack, State.refOperand_eq_ok_iff.2 hf, Except.okBind, State.textOperand_eq_ok_iff.2 h, Except.okBind, hr]; rfl

/-! ### Every next state of a command -/

/-- A command's next state: the error entry in the state it found, or its body finished. -/
theorem exec_eq_next {i : Instr} {s t : State} (h : exec i s = .next t) :
    (∃ c x, t = s.raiseError c x) ∨ ∃ u, t = u.finish ∧ commandBody s u i := by
  cases i with
  | nop => exact .inr ⟨s, by simpa [execNop_eq] using h.symm, rfl⟩
  | encc =>
    rcases State.complete_eq_next h with ⟨u, hu, rfl⟩ | ⟨c, x, -, rfl⟩
    · obtain ⟨text, ht, hu⟩ := Except.bind_eq_ok hu
      cases hu
      exact .inr ⟨_, rfl, text, State.textOperand_eq_ok_iff.1 ht, rfl⟩
    · exact .inl ⟨c, x, rfl⟩
  | decc =>
    rcases State.complete_eq_next h with ⟨u, hu, rfl⟩ | ⟨c, x, -, rfl⟩
    · obtain ⟨text, ht, hu⟩ := Except.bind_eq_ok hu
      cases hu
      exact .inr ⟨_, rfl, text, State.textOperand_eq_ok_iff.1 ht, rfl⟩
    · exact .inl ⟨c, x, rfl⟩
  | encv cont =>
    rcases State.complete_eq_next h with ⟨u, hu, rfl⟩ | ⟨c, x, -, rfl⟩
    · obtain ⟨key, hk, hu⟩ := Except.bind_eq_ok hu
      obtain ⟨text, ht, hu⟩ := Except.bind_eq_ok hu
      cases hu
      obtain ⟨hk, hc⟩ := State.keyOperand_eq_ok_iff.1 hk
      exact .inr ⟨_, rfl, key, text, hk, hc, State.textOperand_eq_ok_iff.1 ht, rfl⟩
    · exact .inl ⟨c, x, rfl⟩
  | decv cont =>
    rcases State.complete_eq_next h with ⟨u, hu, rfl⟩ | ⟨c, x, -, rfl⟩
    · obtain ⟨key, hk, hu⟩ := Except.bind_eq_ok hu
      obtain ⟨text, ht, hu⟩ := Except.bind_eq_ok hu
      cases hu
      obtain ⟨hk, hc⟩ := State.keyOperand_eq_ok_iff.1 hk
      exact .inr ⟨_, rfl, key, text, hk, hc, State.textOperand_eq_ok_iff.1 ht, rfl⟩
    · exact .inl ⟨c, x, rfl⟩
  | train acc =>
    rcases State.complete_eq_next h with ⟨u, hu, rfl⟩ | ⟨c, x, -, rfl⟩
    · obtain ⟨text, ht, hu⟩ := Except.bind_eq_ok hu
      obtain ⟨r, hr, hu⟩ := Except.bind_eq_ok hu
      cases hu
      exact .inr ⟨_, rfl, text, r, State.textOperand_eq_ok_iff.1 ht, hr, rfl⟩
    · exact .inl ⟨c, x, rfl⟩
  | search =>
    rcases State.complete_eq_next h with ⟨u, hu, rfl⟩ | ⟨c, x, -, rfl⟩
    · obtain ⟨ref, hf, hu⟩ := Except.bind_eq_ok hu
      cases hu
      exact .inr ⟨_, rfl, ref, State.refOperand_eq_ok_iff.1 hf, rfl⟩
    · exact .inl ⟨c, x, rfl⟩
  | hack =>
    rcases State.complete_eq_next h with ⟨u, hu, rfl⟩ | ⟨c, x, -, rfl⟩
    · obtain ⟨ref, hf, hu⟩ := Except.bind_eq_ok hu
      obtain ⟨text, ht, hu⟩ := Except.bind_eq_ok hu
      obtain ⟨r, hr, hu⟩ := Except.bind_eq_ok hu
      cases hu
      exact .inr ⟨_, rfl, ref, text, r, State.refOperand_eq_ok_iff.1 hf, State.textOperand_eq_ok_iff.1 ht, hr, rfl⟩
    · exact .inl ⟨c, x, rfl⟩

/-- Every command is the completion of some checks and body. -/
theorem exec_eq_complete (i : Instr) (s : State) : ∃ r, exec i s = s.complete r := by
  cases i with
  | nop => exact ⟨.ok s, rfl⟩
  | _ => exact ⟨_, rfl⟩

/-! ### Every next state of the engine, of a transaction and of a step -/

/-- The engine's turn, by what is in flight. -/
theorem State.engineTurn_none {s : State} (h : s.pend = none) : s.engineTurn = .next s := by
  rw [State.engineTurn, h]

theorem State.engineTurn_legal {s : State} {w : Word} {i : Instr} (h : s.pend = some w) (hd : decode w = .ok i) :
    s.engineTurn = exec i s := by
  rw [State.engineTurn, h]; simp only; rw [hd]

theorem State.engineTurn_illegal {s : State} {w : Word} {r : Reject} (h : s.pend = some w) (hd : decode w = .error r) :
    s.engineTurn = .next (s.raiseError .illegalCmd w) := by
  rw [State.engineTurn, h]; simp only; rw [hd]

theorem State.engineTurn_eq_next {s t : State} (h : s.engineTurn = .next t) :
    (s.pend = none ∧ t = s) ∨
      (∃ w, s.pend = some w ∧ ((∃ c x, t = s.raiseError c x) ∨ ∃ i u, decode w = .ok i ∧ t = u.finish ∧ commandBody s u i)) := by
  cases hp : s.pend with
  | none =>
    rw [State.engineTurn_none hp] at h
    exact .inl ⟨rfl, by simpa using h.symm⟩
  | some w =>
    cases hd : decode w with
    | error r =>
      rw [State.engineTurn_illegal hp hd] at h
      exact .inr ⟨w, rfl, .inl ⟨_, _, by simpa using h.symm⟩⟩
    | ok i =>
      rw [State.engineTurn_legal hp hd] at h
      rcases exec_eq_next h with h | ⟨u, h1, h2⟩
      · exact .inr ⟨w, rfl, .inl h⟩
      · exact .inr ⟨w, rfl, .inr ⟨i, u, hd, h1, h2⟩⟩

theorem State.hostRead_eq_next {s t : State} {bytes : Nat} {a : BusAddr} (h : s.hostRead bytes a = .next t) :
    ∃ v, s.busRead bytes a = .ok v ∧ t = { s with responses := .readOkay v :: s.responses } := by
  unfold State.hostRead at h
  split at h
  · rename_i v hv
    exact ⟨v, hv, by simpa using h.symm⟩
  · cases h

theorem State.hostWrite_eq_next {s t : State} {bytes : Nat} {a : BusAddr} {v : Word} (h : s.hostWrite bytes a v = .next t) :
    ∃ l, s.target bytes a Location.writableWhileBusy = .ok l ∧
      t = { s.writeLocation v l with responses := .writeOkay :: (s.writeLocation v l).responses } := by
  unfold State.hostWrite at h
  split at h
  · rename_i u hu
    obtain ⟨l, hl, rfl⟩ := State.busWrite_eq_ok hu
    exact ⟨l, hl, by simpa using h.symm⟩
  · cases h

theorem step_of_nil {s : State} (h : s.inputs = []) : step s = s.engineTurn := by
  rw [step, h]

theorem step_of_cons {s : State} {i : Input} {rest : List Input} (h : s.inputs = i :: rest) :
    step s = State.takeInput { s with inputs := rest } i := by
  rw [step, h]

/-- An invariant that every case keeps is kept by the step: `P` does not look at the inputs and responses, and holds after
reset, a write of one location, an error entry, and a finished body. -/
theorem step_keeps {P : State → Prop}
    (hio : ∀ s ins rs, P s → P { s with inputs := ins, responses := rs })
    (hreset : ∀ s, P s → P s.applyReset)
    (hwrite : ∀ s v l a, P s → a % 4 = 0 → locate s.cfg a = some l → P (s.writeLocation v l))
    (herr : ∀ s c x, P s → P (s.raiseError c x))
    (hbody : ∀ s u i, P s → commandBody s u i → P u.finish)
    {s t : State} (hs : P s) (h : step s = .next t) : P t := by
  have engine : ∀ s t : State, P s → s.engineTurn = .next t → P t := by
    intro s t hs h
    rcases State.engineTurn_eq_next h with ⟨-, rfl⟩ | ⟨w, -, ⟨c, x, rfl⟩ | ⟨i, u, -, rfl, hb⟩⟩
    · exact hs
    · exact herr _ _ _ hs
    · exact hbody _ _ _ hs hb
  cases hi : s.inputs with
  | nil =>
    rw [step_of_nil hi] at h
    exact engine _ _ hs h
  | cons i rest =>
    rw [step_of_cons hi] at h
    have hs' : P { s with inputs := rest } := hio s rest s.responses hs
    cases i with
    | engine => exact engine _ _ hs' h
    | reset =>
      simp only [State.takeInput, Host.Outcome.next.injEq] at h
      exact h ▸ hreset _ hs'
    | read bytes a =>
      obtain ⟨v, -, rfl⟩ := State.hostRead_eq_next h
      exact hio s rest _ hs
    | write bytes a v =>
      obtain ⟨l, hl, rfl⟩ := State.hostWrite_eq_next h
      obtain ⟨-, ha, hl, -⟩ := State.target_eq_ok hl
      exact hio _ _ _ (hwrite _ v l _ hs' ha hl)

/-- A step faults or goes on; it never refuses. -/
theorem State.engineTurn_ne_refused (s : State) (q : Refusal) : s.engineTurn ≠ .refused q := by
  unfold State.engineTurn
  split
  · simp
  · split
    · rename_i i hi
      obtain ⟨r, hr⟩ := exec_eq_complete i s
      rw [hr]
      exact State.complete_ne_refused _ _ _
    · simp

theorem step_of_read {s : State} {bytes : Nat} {a : BusAddr} {rest : List Input} (h : s.inputs = .read bytes a :: rest) :
    step s = State.hostRead { s with inputs := rest } bytes a := by
  rw [step_of_cons h]; rfl

theorem step_of_write {s : State} {bytes : Nat} {a : BusAddr} {v : Word} {rest : List Input}
    (h : s.inputs = .write bytes a v :: rest) : step s = State.hostWrite { s with inputs := rest } bytes a v := by
  rw [step_of_cons h]; rfl

/-- What every command body leaves alone. -/
theorem commandBody_frame {i : Instr} {s u : State} (h : commandBody s u i) :
    u.done = s.done ∧ u.err = s.err ∧ u.errCode = s.errCode ∧ u.errInfo = s.errInfo ∧ u.doneIe = s.doneIe ∧
      u.errIe = s.errIe ∧ u.cfg = s.cfg ∧ u.inputs = s.inputs ∧ u.responses = s.responses := by
  cases i with
  | nop => cases h; simp
  | encc => obtain ⟨_, _, rfl⟩ := h; simp
  | decc => obtain ⟨_, _, rfl⟩ := h; simp
  | encv c => obtain ⟨_, _, _, _, _, rfl⟩ := h; simp
  | decv c => obtain ⟨_, _, _, _, _, rfl⟩ := h; simp
  | train a => obtain ⟨_, _, _, _, rfl⟩ := h; simp
  | search => obtain ⟨_, _, rfl⟩ := h; simp
  | hack => obtain ⟨_, _, _, _, _, _, rfl⟩ := h; simp

/-- A command faults only on a word that was not written since reset. -/
theorem exec_eq_fault {i : Instr} {s : State} {f : Fault} (h : exec i s = .fault f) :
    ∃ w, f = .unwrittenRead w ∧ s.ram w = none := by
  cases i with
  | nop => cases h
  | encc =>
    obtain ⟨w, hr, rfl⟩ := State.complete_eq_fault h
    rcases Except.bind_eq_error hr with h | ⟨_, -, h⟩
    · exact ⟨w, rfl, State.ram_of_textOperand_unwritten h⟩
    · cases h
  | decc =>
    obtain ⟨w, hr, rfl⟩ := State.complete_eq_fault h
    rcases Except.bind_eq_error hr with h | ⟨_, -, h⟩
    · exact ⟨w, rfl, State.ram_of_textOperand_unwritten h⟩
    · cases h
  | encv c =>
    obtain ⟨w, hr, rfl⟩ := State.complete_eq_fault h
    rcases Except.bind_eq_error hr with h | ⟨_, -, h⟩
    · exact ⟨w, rfl, State.ram_of_keyOperand_unwritten h⟩
    rcases Except.bind_eq_error h with h | ⟨_, -, h⟩
    · exact ⟨w, rfl, State.ram_of_textOperand_unwritten h⟩
    · cases h
  | decv c =>
    obtain ⟨w, hr, rfl⟩ := State.complete_eq_fault h
    rcases Except.bind_eq_error hr with h | ⟨_, -, h⟩
    · exact ⟨w, rfl, State.ram_of_keyOperand_unwritten h⟩
    rcases Except.bind_eq_error h with h | ⟨_, -, h⟩
    · exact ⟨w, rfl, State.ram_of_textOperand_unwritten h⟩
    · cases h
  | train a =>
    obtain ⟨w, hr, rfl⟩ := State.complete_eq_fault h
    rcases Except.bind_eq_error hr with h | ⟨_, -, h⟩
    · exact ⟨w, rfl, State.ram_of_textOperand_unwritten h⟩
    rcases Except.bind_eq_error h with h | ⟨_, -, h⟩
    · exact absurd h trainBody_ne_unwritten
    · cases h
  | search =>
    obtain ⟨w, hr, rfl⟩ := State.complete_eq_fault h
    rcases Except.bind_eq_error hr with h | ⟨_, -, h⟩
    · exact ⟨w, rfl, State.ram_of_refOperand_unwritten h⟩
    · cases h
  | hack =>
    obtain ⟨w, hr, rfl⟩ := State.complete_eq_fault h
    rcases Except.bind_eq_error hr with h | ⟨_, -, h⟩
    · exact ⟨w, rfl, State.ram_of_refOperand_unwritten h⟩
    rcases Except.bind_eq_error h with h | ⟨_, -, h⟩
    · exact ⟨w, rfl, State.ram_of_textOperand_unwritten h⟩
    rcases Except.bind_eq_error h with h | ⟨_, -, h⟩
    · exact absurd h trainBody_ne_unwritten
    · cases h

/-- So does the engine. -/
theorem State.engineTurn_eq_fault {s : State} {f : Fault} (h : s.engineTurn = .fault f) :
    ∃ w, f = .unwrittenRead w ∧ s.ram w = none := by
  unfold State.engineTurn at h
  split at h
  · cases h
  · split at h
    · exact exec_eq_fault h
    · cases h

end Sys2Proof.Machine
end

