-- ==== Sys2Proof/Machine/HostProgram.lean ====
section
/-! DEFINITION. The host's notation (30_encoding.md R137, R138): each primitive form is one bus transaction, each
pseudo-instruction a list of them. -/

namespace Sys2Proof.Machine

/-- `wr A, v`: MemWrite(A, 4, v) (R137). -/
def hostWr (a : Nat) (v : Word) : Input := .write 4 (BitVec.ofNat 20 a) v

/-- `rd A`: MemRead(A, 4) (R137). -/
def hostRd (a : Nat) : Input := .read 4 (BitVec.ofNat 20 a)

/-- `cmd M`: the write of M's command word to CMD (R137). -/
def hostCmd (i : Instr) : Input := hostWr 0x00020 (encode i)

/-- `clr`: wr STATUS, 0x6 (R138). -/
def hostClr : List Input := [hostWr 0x00024 0x6]

/-- `wait` (R138): reads of STATUS until bit 0 is 0. `n` of them come before the completion step, one after it. -/
def hostWait (n : Nat) : List Input := List.replicate n (hostRd 0x00024) ++ [.engine, hostRd 0x00024]

/-- The writes of `ws` to consecutive words from byte address `a` on. -/
def hostWords : Nat → List Word → List Input
  | _, [] => []
  | a, w :: ws => hostWr a w :: hostWords (a + 4) ws

/-- `text "s"`: the symbols to TEXT, then their number to LEN (R138). -/
def hostText (s : List Word) : List Input := hostWords (RamWord.text 0).addr s ++ [hostWr 0x00030 (BitVec.ofNat 32 s.length)]

/-- `key "s"`: the symbols to KEY, then their number to KEY_LEN (R138). -/
def hostKey (s : List Word) : List Input := hostWords (RamWord.key 0).addr s ++ [hostWr 0x00038 (BitVec.ofNat 32 s.length)]

/-- `ref`: each entry's SYM and FREQ, then the number of entries to REF_LEN (R138). -/
def hostRef (r : List RefEntry) : List Input :=
  hostWords (RamWord.refSym 0).addr (r.flatMap fun e => [e.sym, e.freq]) ++ [hostWr 0x00040 (BitVec.ofNat 32 r.length)]

/-- The four host-level operations of ENC §6 that R138 gives as sequences; `n` is the delay of `wait`. -/
def hostCaesar (i : Instr) (key : Word) (text : List Word) (n : Nat) : List Input :=
  [hostWr 0x00034 key] ++ hostText text ++ [hostCmd i] ++ hostWait n

/-- `encode(vigenere, k, t)` and `decode(vigenere, k, t)` (R138). -/
def hostVigenere (i : Instr) (key text : List Word) (n : Nat) : List Input :=
  hostKey key ++ hostText text ++ [hostCmd i] ++ hostWait n

/-- `train(t)` up to its reads of the results (R138). -/
def hostTrain (text : List Word) (n : Nat) : List Input := hostText text ++ [hostCmd (.train false)] ++ hostWait n

/-- `hack(m, t)` up to its reads of TEXT (R138). -/
def hostHack (ref : List RefEntry) (text : List Word) (n : Nat) : List Input :=
  hostRef ref ++ hostText text ++ [hostCmd .hack] ++ hostWait n

end Sys2Proof.Machine
end

