-- ==== Sys2Proof/Tests/Slice0.lean ====
section
/-! SUPPORT. Tests against the worked vectors of spec/95_test_vectors.md, the words of the opcode table written out by
hand, the smoke tests of WellFormed, and for every statement with hypotheses a witness that meets them. -/

namespace Sys2Proof.Tests
open Sys2Proof.Machine

/-! ### Small states -/

/-- The state a step gave (the reset state where it gave none). -/
def after (o : Host.Outcome State Fault Refusal) : State :=
  match o with
  | .next t => t
  | _ => State.reset

/-- `text` in TEXT and its length in LEN. -/
def withText (s : State) (text : List Word) : State :=
  { s with len := BitVec.ofNat 17 text.length, mem := Memory.writeWords s.mem 0x40000 text }

/-- `key` in KEY and its length in KEY_LEN. -/
def withKey (s : State) (key : List Word) : State :=
  { s with keyLen := BitVec.ofNat 11 key.length, mem := Memory.writeWords s.mem 0x01000 key }

/-- The entries `ref` in REF and their number in REF_LEN. -/
def withRef (s : State) (ref : List RefEntry) : State :=
  { s with
    refLen := BitVec.ofNat 11 ref.length
    mem := Memory.writeWords s.mem 0x02000 (ref.flatMap fun e => [e.sym, e.freq]) }

/-- TEXT[0..n-1] as the machine holds it. -/
def textOf (s : State) (n : Nat) : List (Option Word) := (List.range n).map fun i => s.ram (.text i)

/-- HIST as pairs of symbol and count. -/
def histOf (s : State) : List (Word × Word) := s.hist.map fun e => (e.sym, e.count)

/-- `s` with one input left. -/
def withInput (s : State) (i : Input) : State := { s with inputs := [i] }

/-! ### WellFormed: an ill-formed term for each check, which the check refuses (00_scope.md R8) -/

theorem test_config_legal : Config.encCore.wellFormed = true ∧
    Config.wellFormed ⟨65536, 1024, 1024, 1024⟩ = true ∧ Config.wellFormed ⟨1, 1, 1, 1⟩ = true := by decide

theorem test_config_refuses_text_depth :
    Config.wellFormed ⟨0, 256, 256, 256⟩ = false ∧ Config.wellFormed ⟨65537, 256, 256, 256⟩ = false := by decide

theorem test_config_refuses_key_depth :
    Config.wellFormed ⟨4096, 0, 256, 256⟩ = false ∧ Config.wellFormed ⟨4096, 1025, 256, 256⟩ = false := by decide

theorem test_config_refuses_ref_depth :
    Config.wellFormed ⟨4096, 256, 0, 256⟩ = false ∧ Config.wellFormed ⟨4096, 256, 1025, 256⟩ = false := by decide

theorem test_config_refuses_hist_depth :
    Config.wellFormed ⟨4096, 256, 256, 0⟩ = false ∧ Config.wellFormed ⟨4096, 256, 256, 1025⟩ = false := by decide

/-! ### Decoding: words written out from the fields of 30_encoding.md R130, and 95_test_vectors.md section 9.
Bits, from the left: reserved [31:7], ACC, CONT, CIPHER, OP[3:0]. -/

theorem test_decode_nop : decode 0b00000000000000000000000000000000 = .ok .nop := by decide

theorem test_decode_encc : decode 0b00000000000000000000000000000001 = .ok .encc := by decide

theorem test_decode_decc : decode 0b00000000000000000000000000000010 = .ok .decc := by decide

theorem test_decode_encv : decode 0b00000000000000000000000000010001 = .ok (.encv false) ∧
    decode 0b00000000000000000000000000110001 = .ok (.encv true) := by decide

theorem test_decode_decv : decode 0b00000000000000000000000000010010 = .ok (.decv false) ∧
    decode 0b00000000000000000000000000110010 = .ok (.decv true) := by decide

theorem test_decode_train : decode 0b00000000000000000000000000000011 = .ok (.train false) ∧
    decode 0b00000000000000000000000001000011 = .ok (.train true) := by decide

theorem test_decode_search : decode 0b00000000000000000000000000000100 = .ok .search := by decide

theorem test_decode_hack : decode 0b00000000000000000000000000000101 = .ok .hack := by decide

theorem test_decode_refuses : decode 0x06 = .error .reservedOp ∧ decode 0x0F = .error .reservedOp ∧
    decode 0x10 = .error .cipherBitMisplaced ∧ decode 0x13 = .error .cipherBitMisplaced ∧
    decode 0x20 = .error .contBitMisplaced ∧ decode 0x21 = .error .contBitMisplaced ∧
    decode 0x41 = .error .accBitMisplaced ∧ decode 0x44 = .error .accBitMisplaced ∧
    decode 0x51 = .error .accBitMisplaced ∧ decode 0x71 = .error .accBitMisplaced ∧
    decode 0x80 = .error .reservedBits ∧ decode 0x80000001 = .error .reservedBits := by decide

theorem test_decodeTableWord : decodeTableWord 32 0x31 = some (.encv true) ∧ decodeTableWord 32 0x51 = none ∧
    decodeTableWord 8 0x105 = some .hack := by decide

theorem test_withFetchWord_runs_the_word :
    after (step (State.reset.withFetchWord 32 0x00)) = { State.reset with done := true } := by decide

/-! ### The shifter (95_test_vectors.md section 2) -/

theorem test_shift_wraps : shift 0x61 (-1) = 0x7A ∧ shift 0x7A 1 = 0x61 ∧ shift 0x41 (-1) = 0x5A := by decide

theorem test_shift_extremes : shift 0x63 (-2147483648) = 0x65 ∧ shift 0x61 2147483647 = 0x78 ∧
    signed32 0x80000000 = -2147483648 ∧ signed32 0x7FFFFFFF = 2147483647 := by decide

/-! ### The commands, one step each -/

/-- V-E24, V-R4: NOP keeps an earlier error. -/
theorem test_nop_keeps_error :
    (after (exec .nop (State.reset.raiseError .keyEmpty 0))).statusWord = 0x1006 := by decide

/-- V-C1: ENCC of "abc xyz" with key 3 gives "def abc". -/
theorem test_encc_wraps :
    textOf (after (exec .encc (withText { State.reset with ckey := 3, kcur := 5 } [0x61, 0x62, 0x63, 0x20, 0x78, 0x79, 0x7A]))) 7 =
      [some 0x64, some 0x65, some 0x66, some 0x20, some 0x61, some 0x62, some 0x63] ∧
    (after (exec .encc (withText { State.reset with kcur := 5 } [0x61]))).kcur = 0 := by decide

/-- V-C6, V-C13: the most negative key, and a letter outside the alphabet. -/
theorem test_encc_signed_key :
    textOf (after (exec .encc (withText { State.reset with ckey := 0x80000000 } [0x61, 0xE9]))) 2 =
      [some 0x63, some 0xE9] := by decide

/-- V-C11: DECC of "abc" with key -3 gives "def". -/
theorem test_decc_negative_key :
    textOf (after (exec .decc (withText { State.reset with ckey := 0xFFFFFFFD } [0x61, 0x62, 0x63]))) 3 =
      [some 0x64, some 0x65, some 0x66] := by decide

/-- V-V6: ENCV.CONT of "hello" with KEY "abc" from cursor 2 gives "jemno" and cursor 1. -/
theorem test_encv_cont :
    textOf (after (exec (.encv true) (withText (withKey { State.reset with kcur := 2 } [0x61, 0x62, 0x63])
      [0x68, 0x65, 0x6C, 0x6C, 0x6F]))) 5 = [some 0x6A, some 0x65, some 0x6D, some 0x6E, some 0x6F] ∧
    (after (exec (.encv true) (withText (withKey { State.reset with kcur := 2 } [0x61, 0x62, 0x63])
      [0x68, 0x65, 0x6C, 0x6C, 0x6F]))).kcur = 1 := by decide

/-- V-V3: a space consumes no cursor slot. -/
theorem test_encv_skips_space :
    textOf (after (exec (.encv false) (withText (withKey { State.reset with kcur := 7 } [0x61, 0x62]) [0x61, 0x20, 0x62]))) 3 =
      [some 0x61, some 0x20, some 0x63] := by decide

/-- V-V9: DECV of "kxrkg" with KEY "key" gives "attac" and cursor 2. -/
theorem test_decv :
    textOf (after (exec (.decv false) (withText (withKey State.reset [0x6B, 0x65, 0x79]) [0x6B, 0x78, 0x72, 0x6B, 0x67]))) 5 =
      [some 0x61, some 0x74, some 0x74, some 0x61, some 0x63] ∧
    (after (exec (.decv false) (withText (withKey State.reset [0x6B, 0x65, 0x79]) [0x6B, 0x78, 0x72, 0x6B, 0x67]))).kcur =
      2 := by decide

/-- V-T1, V-T6: TRAIN of "aab", and TRAIN.ACC of "ba!" after "ab". -/
theorem test_train_first_occurrence :
    histOf (after (exec (.train false) (withText State.reset [0x61, 0x61, 0x62]))) = [(0x61, 2), (0x62, 1)] ∧
    histOf (after (exec (.train true) (withText { State.reset with hist := [⟨0x61, 1⟩, ⟨0x62, 1⟩], total := 2 }
      [0x62, 0x61, 0x21]))) = [(0x61, 2), (0x62, 2), (0x21, 1)] := by decide

/-- V-T1, V-T5: the frequency readouts. -/
theorem test_train_readout : freqReadout 2 3 = 0x55555555 ∧ freqReadout 1 3 = 0x2AAAAAAA ∧
    freqReadout 3 3 = 0x80000000 ∧ freqReadout 3 11 = 0x22E8BA2E := by decide

/-- V-S1: of two equal minima the smaller key wins. -/
theorem test_search_tie :
    (after (exec .search (withRef { State.reset with hist := [⟨0x61, 1⟩], total := 1 }
      [⟨0x62, 0x40000000⟩, ⟨0x63, 0x40000000⟩]))).bestKey = 24 ∧
    (after (exec .search (withRef { State.reset with hist := [⟨0x61, 1⟩], total := 1 }
      [⟨0x62, 0x40000000⟩, ⟨0x63, 0x40000000⟩]))).bestScore = 0x40000000 := by decide +kernel

/-- V-S2: with an empty reference every score is TOTAL * 2^31. -/
theorem test_search_empty_reference :
    (after (exec .search { State.reset with hist := [⟨0x6B, 1⟩, ⟨0x68, 1⟩, ⟨0x6F, 2⟩, ⟨0x72, 1⟩], total := 5 })).score[25] =
      0x280000000 := by decide

/-- The "hello world" model of V-H1. -/
def helloModel : List RefEntry :=
  [⟨0x68, 0x0BA2E8BA⟩, ⟨0x65, 0x0BA2E8BA⟩, ⟨0x6C, 0x22E8BA2E⟩, ⟨0x6F, 0x1745D174⟩, ⟨0x20, 0x0BA2E8BA⟩,
    ⟨0x77, 0x0BA2E8BA⟩, ⟨0x72, 0x0BA2E8BA⟩, ⟨0x64, 0x0BA2E8BA⟩]

/-- V-H5: HACK of "khoor" with the "hello world" model gives "hello" with key 3. -/
theorem test_hack_text :
    textOf (after (exec .hack (withText (withRef State.reset helloModel) [0x6B, 0x68, 0x6F, 0x6F, 0x72]))) 5 =
      [some 0x68, some 0x65, some 0x6C, some 0x6C, some 0x6F] := by decide +kernel

theorem test_hack_score :
    (after (exec .hack (withText (withRef State.reset helloModel) [0x6B, 0x68, 0x6F, 0x6F, 0x72]))).bestScore =
      3904515730 := by decide +kernel

/-! ### Errors (95_test_vectors.md section 8) -/

/-- V-E8, V-E9. -/
theorem test_key_errors :
    (after (exec (.encv false) (withKey State.reset [0x6B, 0x33, 0x79]))).statusWord = 0x1204 ∧
    (after (exec (.encv false) (withKey State.reset [0x6B, 0x33, 0x79]))).errInfo = 1 ∧
    (after (exec (.encv true) (withKey { State.reset with kcur := 3 } [0x6B, 0x65, 0x79]))).statusWord = 0x1304 := by decide

/-- V-E13, V-E20. -/
theorem test_model_errors :
    (after (exec .search (withRef State.reset [⟨0x61, 1⟩, ⟨0x62, 2⟩, ⟨0x61, 3⟩]))).statusWord = 0x2304 ∧
    (after (exec .search (withRef State.reset [⟨0x61, 1⟩, ⟨0x62, 2⟩, ⟨0x61, 3⟩]))).errInfo = 2 ∧
    (after (exec .search (withRef State.reset [⟨0x110000, 0x80000001⟩]))).statusWord = 0x2104 := by decide

/-- V-E14, V-E15, V-E17, V-E18. -/
theorem test_text_errors :
    (after (exec .encc { State.reset with len := 4097 })).statusWord = 0x3004 ∧
    (after (exec (.train false) (withText State.reset [0x61, 0x61, 0x110000]))).errInfo = 2 ∧
    (after (exec (.train true) (withText { State.reset with hist := [⟨0x61, 0xFFFFFFFF⟩], total := 0xFFFFFFFF }
      [0x61]))).statusWord = 0x4104 ∧
    (after (exec (.encv false) { State.reset with len := 5000 })).statusWord = 0x1004 := by decide

/-! ### The bus, the interrupt and reset (95_test_vectors.md section 10), and the host's notation -/

/-- V-B1, V-B4, V-B5, V-B8, V-B15. -/
theorem test_bus_map : State.reset.busRead 4 0x00000 = .ok 0x454E4331 ∧ State.reset.busRead 4 0x0000C = .ok 4096 ∧
    State.reset.busRead 4 0x0001C = .error (.busError .unmapped) ∧
    State.reset.busRead 4 0x44000 = .error (.busError .unmapped) ∧
    State.reset.busRead 4 0x009A0 = .error (.busError .unmapped) := by decide

/-- V-B6, V-B7, V-B17. -/
theorem test_bus_errors : State.reset.busRead 4 0x00002 = .error (.busError .misaligned) ∧
    State.reset.busRead 1 0x00024 = .error (.busError .width) ∧
    State.busRead { State.reset with pend := some 1 } 4 0x00030 = .error (.busError .busy) := by decide

/-- V-B11, V-B12: registers keep their low bits. -/
theorem test_bus_truncates :
    (after (step (withInput State.reset (.write 4 0x00030 0xFFFFFFFF)))).busRead 4 0x00030 = .ok 0x0001FFFF ∧
    (after (step (withInput State.reset (.write 4 0x0003C 0x405)))).busRead 4 0x0003C = .ok 5 := by decide

/-- V-B13, V-B14: HIST at and above HIST_LEN, and the fourth word of a score, read 0. -/
theorem test_bus_zero_words :
    State.busRead { State.reset with hist := [⟨0x61, 2⟩, ⟨0x62, 1⟩], total := 3 } 4 0x04054 = .ok 0 ∧
    State.busRead { State.reset with hist := [⟨0x61, 2⟩, ⟨0x62, 1⟩], total := 3 } 4 0x04008 = .ok 0x55555555 ∧
    State.reset.busRead 4 0x0083C = .ok 0 := by decide

/-- V-I1, V-I4: the level of irq. -/
theorem test_irq : State.irq { State.reset with done := true, doneIe := true } = true ∧
    State.irq { State.reset with err := true, doneIe := true } = false ∧
    State.irq { State.reset with done := true, err := true, errIe := true } = true := by decide

/-- V-R2: TEXT[0] is not readable before it is written. -/
theorem test_reset_text_unwritten : State.reset.busRead 4 0x40000 = .error (.unwrittenRead (.text 0)) := by decide

/-- P2, step 1: `key "key"`. -/
theorem test_host_key : hostKey [0x6B, 0x65, 0x79] =
    [.write 4 0x01000 0x6B, .write 4 0x01004 0x65, .write 4 0x01008 0x79, .write 4 0x00038 3] := by decide

/-! ### Witnesses: concrete states and operands that meet the hypotheses of each statement, at the boundaries -/

/-- "ab" in TEXT. -/
def twoLetters : State := withText State.reset [0x61, 0x62]

/-- "key" in KEY and "a b" in TEXT, the cursor at 2. -/
def keyed : State := withText (withKey { State.reset with kcur := 2 } [0x6B, 0x65, 0x79]) [0x61, 0x20, 0x62]

/-- The reference of one half "a" and one half "b", and the text "de". -/
def modelled : State := withText (withRef State.reset [⟨0x61, 0x40000000⟩, ⟨0x62, 0x40000000⟩]) [0x64, 0x65]

/-- The model of "aab" in HIST. -/
def counted : State := { State.reset with hist := [⟨0x61, 2⟩, ⟨0x62, 1⟩], total := 3 }

/-- A command in flight. -/
def flying : State := { State.reset with pend := some 0x01 }

/-- `s` with HIST_DEPTH = 1. -/
def oneEntry (s : State) : State := { s with cfg := { s.cfg with histDepth := 1 } }

theorem witness_DecodeInvertsEncode : decode 0x43 = .ok (.train true) ∧ (0x43 : Word) = encode (.train true) := by decide

theorem witness_OpcodeTableSelectsCommands :
    (0x31 : Word) &&& (Instr.encv false).row.mask = (Instr.encv false).row.pattern ∧
    (0x43 : Word) &&& (Instr.train false).row.mask = (Instr.train false).row.pattern := by decide

theorem witness_IllegalWordCompletesAsIllegalCmd :
    (∀ w ∈ ([0x06, 0x80, 0x10, 0x21, 0x41] : List Word), ∀ i : Instr, w &&& i.row.mask ≠ i.row.pattern) ∧
    State.reset.busy = false ∧ (withInput State.reset (.write 4 0x00020 0x06)).inputs = .write 4 0x00020 0x06 :: [] ∧
    (withInput { State.reset with pend := some 0x06 } .engine).pend = some 0x06 := by
  refine ⟨fun w hw i => ?_, by decide⟩
  simp only [List.mem_cons, List.not_mem_nil, or_false] at hw
  rcases hw with rfl | rfl | rfl | rfl | rfl <;> cases i <;> simp [Instr.row]

theorem witness_StepRunsTheCommandInFlight :
    flying.pend = some 0x01 ∧ decode 0x01 = .ok .encc ∧ flying.inputs = [] ∧
    (withInput flying .engine).inputs = .engine :: [] := by decide

/-- For AlphaSymbolInvertsAlphaIndex, ShiftIsModularWithinThePartition and ShifterProperties: the ends of both partitions. -/
theorem witness_alphabet : alphaIndex 0x61 = some 0 ∧ alphaIndex 0x7A = some 25 ∧ alphaIndex 0x41 = some 26 ∧
    alphaIndex 0x5A = some 51 ∧ alphaIndex 0x60 = none ∧ alphaIndex 0x7B = none ∧ alphaIndex 0x40 = none ∧
    alphaIndex 0x5B = none := by decide

theorem witness_NopOnlyCompletes : (0x10 : Word).toNat % 16 = 0 ∧ (0x10 : Word) ≠ 0 ∧ State.reset.statusWord = 0 := by
  decide

/-- For the two Caesar statements and the second clause of DecodeAfterEncodeRestoresTheText. -/
theorem witness_Caesar : twoLetters.textLoaded [0x61, 0x62] ∧ State.reset.textLoaded [] := by decide

/-- For the two Vigenère statements and the first clause of DecodeAfterEncodeRestoresTheText. -/
theorem witness_Vigenere : keyed.cfg.wellFormed = true ∧ keyed.keyLoaded [0x6B, 0x65, 0x79] ∧
    keyed.textLoaded [0x61, 0x20, 0x62] ∧ keyed.cursorLegal true ∧ keyed.cursorLegal false := by decide

theorem witness_CipherCommandsChangeOnlyTextAndCursor :
    (∃ t, exec .encc twoLetters = .next t ∧ t.done = true) ∧
    (∃ t, exec (.decv true) keyed = .next t ∧ t.done = true) ∧
    ∃ t, exec (.encv false) twoLetters = .next t ∧ t.err = true :=
  ⟨⟨_, rfl, rfl⟩, ⟨_, rfl, rfl⟩, ⟨_, rfl, rfl⟩⟩

/-- V-V7 and V-V8 with shorter pieces: "at" and "k" with KEY "key". -/
theorem witness_ContinuedPiecesEqualOneCommand :
    ∃ t₁, exec (.encv false) (withText (withKey State.reset [0x6B, 0x65, 0x79]) [0x61, 0x74]) = .next t₁ ∧
      t₁.kcur = 2 ∧
      (withText (withKey State.reset [0x6B, 0x65, 0x79]) [0x61, 0x74]).keyLoaded [0x6B, 0x65, 0x79] ∧
      (withText (withKey State.reset [0x6B, 0x65, 0x79]) [0x61, 0x74]).textLoaded [0x61, 0x74] ∧
      (withText (withKey { State.reset with kcur := 2 } [0x6B, 0x65, 0x79]) [0x6B]).textLoaded [0x6B] ∧
      (withText (withKey { State.reset with kcur := 2 } [0x6B, 0x65, 0x79]) [0x6B]).keyLoaded [0x6B, 0x65, 0x79] ∧
      (withText (withKey State.reset [0x6B, 0x65, 0x79]) [0x61, 0x74, 0x6B]).keyLoaded [0x6B, 0x65, 0x79] ∧
      (withText (withKey State.reset [0x6B, 0x65, 0x79]) [0x61, 0x74, 0x6B]).textLoaded ([0x61, 0x74] ++ [0x6B]) :=
  ⟨_, rfl, by decide, by decide, by decide, by decide, by decide, by decide, by decide⟩

theorem witness_ErrorsArePreciseAndAtomic :
    (∃ t, step (withInput flying .engine) = .next t ∧ t.done = true) ∧
    ∃ t, step (withInput { flying with pend := some 0x11 } .engine) = .next t ∧ t.err = true :=
  ⟨⟨_, rfl, rfl⟩, ⟨_, rfl, rfl⟩⟩

theorem witness_VigenereKeyErrors :
    State.reset.keyLen = 0 ∧
    (State.keyLen { State.reset with keyLen := 257 } ≠ 0 ∧ State.reset.cfg.keyDepth < (257 : BitVec 11).toNat) ∧
    ((withKey State.reset [0x6B, 0x33]).keyLen.toNat ≤ State.reset.cfg.keyDepth ∧
      (withKey State.reset [0x6B, 0x33]).ram (.key 0) = some 0x6B ∧ (alphaIndex 0x6B).isSome ∧
      (withKey State.reset [0x6B, 0x33]).ram (.key 1) = some 0x33 ∧ alphaIndex 0x33 = none) ∧
    (withKey { State.reset with kcur := 2 } [0x6B, 0x65]).keyLoaded [0x6B, 0x65] ∧
      (withKey { State.reset with kcur := 2 } [0x6B, 0x65]).keyLen.toNat ≤ (2 : BitVec 10).toNat := by decide

theorem witness_ReferenceModelErrors :
    State.reset.cfg.refDepth < (257 : BitVec 11).toNat ∧
    ((withRef State.reset [⟨0x61, 0x80000000⟩, ⟨0x110000, 1⟩]).refPrefix [⟨0x61, 0x80000000⟩] ∧
      (withRef State.reset [⟨0x61, 0x80000000⟩, ⟨0x110000, 1⟩]).ram (.refSym 1) = some 0x110000) ∧
    ((withRef State.reset [⟨0x61, 0x80000000⟩, ⟨0x10FFFF, 0x80000001⟩]).ram (.refSym 1) = some 0x10FFFF ∧
      (withRef State.reset [⟨0x61, 0x80000000⟩, ⟨0x10FFFF, 0x80000001⟩]).ram (.refFreq 1) = some 0x80000001) ∧
    (withRef State.reset [⟨0x61, 0x80000000⟩, ⟨0x61, 0x80000000⟩]).ram (.refFreq 1) = some 0x80000000 ∧
      (0x61 : Word) ∈ ([⟨0x61, 0x80000000⟩] : List RefEntry).map RefEntry.sym := by decide

theorem witness_reachesTextCheck :
    twoLetters.reachesTextCheck .encc ∧ keyed.reachesTextCheck (.decv true) ∧ twoLetters.reachesTextCheck (.train true) ∧
    modelled.reachesTextCheck .hack :=
  ⟨trivial, ⟨by decide, [0x6B, 0x65, 0x79], by decide⟩, trivial, [⟨0x61, 0x40000000⟩, ⟨0x62, 0x40000000⟩], by decide⟩

theorem witness_TextErrors :
    State.reset.cfg.textDepth < (4097 : BitVec 17).toNat ∧
    (withText State.reset [0x10FFFF, 0x110000]).ram (.text 0) = some 0x10FFFF ∧
    (withText State.reset [0x10FFFF, 0x110000]).ram (.text 1) = some 0x110000 ∧
    (withText State.reset [0x10FFFF, 0x110000]).len.toNat = 2 := by decide

theorem witness_CapacityErrors :
    ((oneEntry twoLetters).histCoherent ∧ (oneEntry twoLetters).textLoaded [0x61, 0x62] ∧
      distinct ((oneEntry twoLetters).startSymbols false ++ [0x61, 0x62].take 1) = 1 ∧
      (0x62 : Word) ∉ (oneEntry twoLetters).startSymbols false ++ [0x61, 0x62].take 1) ∧
    (State.histCoherent { twoLetters with hist := [⟨0x61, 0xFFFFFFFF⟩], total := 0xFFFFFFFF } ∧
      distinct (State.startSymbols { twoLetters with hist := [⟨0x61, 0xFFFFFFFF⟩], total := 0xFFFFFFFF } true ++
        [0x61, 0x62].take 1) = 1 ∧
      State.startTotal { twoLetters with hist := [⟨0x61, 0xFFFFFFFF⟩], total := 0xFFFFFFFF } true + 0 = 2 ^ 32 - 1) ∧
    (oneEntry modelled).refLoaded [⟨0x61, 0x40000000⟩, ⟨0x62, 0x40000000⟩] ∧ (oneEntry modelled).textLoaded [0x64, 0x65] ∧
      distinct ([0x64, 0x65].take 1 : List Word) = (oneEntry modelled).cfg.histDepth ∧
      (0x65 : Word) ∉ ([0x64, 0x65].take 1 : List Word) := by decide

theorem witness_UnwrittenReadsFault :
    (State.reachesTextCheck { twoLetters with len := 3 } .encc ∧ twoLetters.ram (.text 1) = some 0x62 ∧
      twoLetters.ram (.text 2) = none) ∧
    (keyed.ram (.key 2) = some 0x79 ∧ keyed.ram (.key 3) = none) ∧
    (modelled.refPrefix [⟨0x61, 0x40000000⟩, ⟨0x62, 0x40000000⟩] ∧ modelled.ram (.refSym 2) = none) ∧
    (State.ram { modelled with mem := Memory.writeWord modelled.mem 0x02010 0x63 } (.refSym 2) = some 0x63 ∧
      State.ram { modelled with mem := Memory.writeWord modelled.mem 0x02010 0x63 } (.refFreq 2) = none) ∧
    ramByte State.reset.cfg (0x43FFC : BusAddr).toNat ∧ Memory.readWord State.reset.mem 0x43FFC = none :=
  ⟨⟨trivial, by decide⟩, by decide⟩

theorem witness_TrainCountsEverySymbol :
    (withText counted [0x62, 0x63]).histCoherent ∧ (withText counted [0x62, 0x63]).textLoaded [0x62, 0x63] ∧
    distinct ((withText counted [0x62, 0x63]).startSymbols true ++ [0x62, 0x63]) = 3 ∧
    (withText counted [0x62, 0x63]).startTotal true = 3 := by decide

theorem witness_EmptyTextTrainsTheEmptyModel : counted.len = 0 ∧ counted.histCoherent ∧ 1 < counted.hist.length := by decide

/-- V-T6 with shorter pieces: "a", then "b". -/
theorem witness_AccumulatedPiecesEqualOneTrain :
    (∃ t₁, exec (.train false) (withText State.reset [0x61]) = .next t₁ ∧ t₁.done = true ∧
      t₁.hist = [⟨0x61, 1⟩] ∧ t₁.total = 1) ∧
    (∃ t₂, exec (.train true) (withText { State.reset with hist := [⟨0x61, 1⟩], total := 1 } [0x62]) = .next t₂ ∧
      t₂.done = true) ∧
    twoLetters.textLoaded ([0x61] ++ [0x62]) ∧ (withText State.reset [0x61]).textLoaded [0x61] ∧
      (withText State.reset [0x62]).textLoaded [0x62] :=
  ⟨⟨_, rfl, rfl, rfl, rfl⟩, ⟨_, rfl, rfl⟩, by decide⟩

theorem witness_FrequencyModelInvariant :
    counted.histCoherent ∧ ∃ t, step (withInput { withText counted [0x63] with pend := some 0x43 } .engine) = .next t ∧
      t.total = 4 :=
  ⟨by decide, _, rfl, by decide⟩

theorem witness_FrequencyReadout : 1 < counted.hist.length ∧ counted.cfg.wellFormed = true ∧ counted.histCoherent ∧
    counted.busy = false ∧ (0x04018 : BusAddr).toNat = 0x04000 + 16 * 1 + 8 := by decide

theorem witness_FrequenciesSumToOne :
    ∃ t, exec (.train true) (withText counted [0x63]) = .next t ∧ 1 ≤ t.total.toNat ∧ t.hist.length = 3 :=
  ⟨_, rfl, by decide, by decide⟩

theorem witness_ScoresFitEightyBits : counted.hist.length ≤ 1024 ∧
    ∀ e ∈ ([⟨0x61, 0x80000000⟩, ⟨0x62, 0⟩] : List RefEntry), e.freq.toNat ≤ 2 ^ 31 := by decide

/-- For SearchScoresEveryShift and ExactScoreOrdersAsTheRealScore, with TOTAL at least 1 and with TOTAL = 0. -/
theorem witness_SearchScoresEveryShift :
    (withRef counted [⟨0x61, 0x80000000⟩]).cfg.wellFormed = true ∧ (withRef counted [⟨0x61, 0x80000000⟩]).histCoherent ∧
    (withRef counted [⟨0x61, 0x80000000⟩]).refLoaded [⟨0x61, 0x80000000⟩] ∧ 1 ≤ counted.total.toNat ∧
    State.reset.histCoherent ∧ State.reset.refLoaded [] ∧ State.reset.total.toNat = 0 := by decide

/-- For HackCountsSearchesAndDecodes and HackEqualsTrainSearchDecode. -/
theorem witness_Hack : modelled.cfg.wellFormed = true ∧
    modelled.refLoaded [⟨0x61, 0x40000000⟩, ⟨0x62, 0x40000000⟩] ∧ modelled.textLoaded [0x64, 0x65] ∧
    distinct [0x64, 0x65] ≤ modelled.cfg.histDepth := by decide

/-- "d", then "e", against the text "de" in one HACK. -/
theorem witness_ChunkedHackEqualsOneHack :
    (withText State.reset [0x64]).textLoaded [0x64] ∧ (withText State.reset [0x65]).textLoaded [0x65] ∧
    modelled.textLoaded ([0x64] ++ [0x65]) ∧ distinct ([0x64] ++ [0x65] : List Word) ≤ modelled.cfg.histDepth ∧
    modelled.refLoaded [⟨0x61, 0x40000000⟩, ⟨0x62, 0x40000000⟩] ∧
    (∃ t₁, exec (.train false) (withText State.reset [0x64]) = .next t₁ ∧ t₁.hist = [⟨0x64, 1⟩] ∧ t₁.total = 1) ∧
    ∃ t₂, exec (.train true) (withText { State.reset with hist := [⟨0x64, 1⟩], total := 1 } [0x65]) = .next t₂ ∧
      t₂.hist = [⟨0x64, 1⟩, ⟨0x65, 1⟩] ∧ t₂.total = 2 :=
  ⟨by decide, by decide, by decide, by decide, by decide, ⟨_, rfl, rfl, rfl⟩, ⟨_, rfl, rfl, rfl⟩⟩

/-- The plaintext "ab" under key 3 is the text "de"; half "a" and half "b" is its exact model. -/
theorem witness_HackRecoversTheKeyOfAnExactModel :
    ([0x61, 0x62] : List Word).map (ciphered ((3 : Fin 26).val : Int)) = [0x64, 0x65] ∧
    (∀ c ∈ ([0x61, 0x62] : List Word), 2 * referenceFrequency [⟨0x61, 0x40000000⟩, ⟨0x62, 0x40000000⟩] c =
      ([0x61, 0x62] : List Word).count c * 2 ^ 31) ∧
    (∀ c ∈ ([0x61, 0x62] : List Word), referenceFrequency [⟨0x61, 0x40000000⟩, ⟨0x62, 0x40000000⟩] c =
      ([0x61, 0x62] : List Word).count c * 2 ^ 31 / 2) ∧
    ∀ k < 3, exactScore [⟨0x64, 1⟩, ⟨0x65, 1⟩] 2 [⟨0x61, 0x40000000⟩, ⟨0x62, 0x40000000⟩] k ≠ 0 :=
  ⟨by decide, by simp; decide, by simp; decide, by decide⟩

theorem witness_BestKeyStaysTheFirstMinimum :
    State.reset.cfg.wellFormed = true ∧ counted.histCoherent ∧ counted.bestCoherent ∧
    ∃ t, step (withInput { counted with pend := some 0x04 } .engine) = .next t ∧ t.done = true :=
  ⟨by decide, by decide, by decide, _, rfl, rfl⟩

theorem witness_TrainSearchHackFrame :
    (∃ t, exec (.train true) (withText counted [0x63]) = .next t ∧ t.done = true) ∧
    (∃ t, exec .search counted = .next t ∧ t.done = true) ∧ (∃ t, exec .hack modelled = .next t ∧ t.done = true) ∧
    ∃ t, exec .hack { modelled with refLen := 257 } = .next t ∧ t.err = true :=
  ⟨⟨_, rfl, rfl⟩, ⟨_, rfl, rfl⟩, ⟨_, rfl, rfl⟩, ⟨_, rfl, rfl⟩⟩

theorem witness_ResetAbandonsTheCommand : (withInput flying .reset).inputs = .reset :: [] ∧ flying.busy = true := by decide

/-- For the first clauses of ReadsGetErrorExactlyWhenForbidden and WritesGetErrorExactlyWhenForbidden. -/
theorem witness_transactionsWithError :
    ¬mappedAddress Config.encCore 0x0001C ∧ ¬mappedAddress Config.encCore 0x009A0 ∧ ¬mappedAddress Config.encCore 0x44000 ∧
    (0x00022 : BusAddr).toNat % 4 ≠ 0 ∧ flying.busy = true ∧ 0x00030 ∉ readableWhileBusy ∧ 0x00020 ∉ writableWhileBusy := by
  decide

/-- For their second clauses. -/
theorem witness_transactionsWithoutError :
    mappedAddress Config.encCore 0x0099C ∧ mappedAddress Config.encCore 0x43FFC ∧ mappedAddress Config.encCore 0x00058 ∧
    (0x00024 : BusAddr).toNat ∈ readableWhileBusy ∧ (0x00028 : BusAddr).toNat ∈ writableWhileBusy ∧
    (withInput flying (.read 4 0x00024)).inputs = .read 4 0x00024 :: [] ∧
    (withInput flying (.write 4 0x00028 6)).inputs = .write 4 0x00028 6 :: [] := by decide

/-- For IdentificationRegisters, StatusWriteClearsByBits and OperandRegisterReadWrite. -/
theorem witness_registerWrites : State.reset.busy = false ∧
    (0x00018 : BusAddr) ∈ ([0x00000, 0x00004, 0x00008, 0x0000C, 0x00010, 0x00014, 0x00018] : List BusAddr) ∧
    (withInput flying (.write 4 0x00024 6)).inputs = .write 4 0x00024 6 :: [] ∧
    ((0x00040, 11) : BusAddr × Nat) ∈ ([(0x00030, 17), (0x00034, 32), (0x00038, 11), (0x0003C, 10), (0x00040, 11)] :
      List (BusAddr × Nat)) := by decide

theorem witness_CmdWriteStartsACommand :
    State.reset.busy = false ∧ flying.busy = true ∧
    (withInput flying (.write 4 0x00020 1)).inputs = .write 4 0x00020 1 :: [] := by decide

theorem witness_StatusReadShowsItsFields : State.reset.errCode = none ∧
    (State.reset.raiseError .keyCursor 3).errCode = some .keyCursor := by decide

theorem witness_InterruptSourcesClearOnlyByHostOrReset :
    (∃ t, step (withInput { flying with done := true } (.write 4 0x00024 2)) = .next t ∧ t.done = false ∧ t.busy = true) ∧
    ∃ t, step (withInput (flying.raiseError .keyEmpty 0) (.write 4 0x00024 4)) = .next t ∧ t.err = false :=
  ⟨⟨_, rfl, rfl, rfl⟩, ⟨_, rfl, rfl⟩⟩

theorem witness_ArrayReadAfterWrite : ramByte Config.encCore 0x40000 ∧ ramByte Config.encCore 0x43FFC ∧
    ramByte Config.encCore 0x013FC ∧ ramByte Config.encCore 0x027FC ∧ (0x027FC : BusAddr).toNat % 4 = 0 := by decide

theorem witness_ReadOnlyWritesAreIgnored : readOnlyAddress Config.encCore 0x00058 ∧
    readOnlyAddress Config.encCore 0x0099C ∧ readOnlyAddress Config.encCore 0x04FFC ∧
    ¬readOnlyAddress Config.encCore 0x00024 := by decide

theorem witness_ResultWindowsReadTheResults : counted.busy = false ∧ counted.cfg.wellFormed = true ∧
    (0x00990 : BusAddr).toNat = 0x00800 + 16 * (25 : Fin 26).val ∧ (0x04010 : BusAddr).toNat = 0x04000 + 16 * 1 ∧
    counted.hist.length ≤ counted.cfg.histDepth ∧ counted.hist.length ≤ 255 ∧ (0x04FFC : BusAddr).toNat = 0x04000 + 16 * 255 + 4 * 3 := by decide

theorem witness_OperandsHoldWhileBusy : flying.busy = true ∧
    (∃ t, step (withInput flying (.write 4 0x00028 6)) = .next t ∧ t.errIe = true) ∧
    Input.write 4 0x00028 6 ≠ .engine ∧ Input.write 4 0x00028 6 ≠ .reset :=
  ⟨rfl, ⟨_, rfl, rfl⟩, by decide, by decide⟩

theorem witness_EngineTurnEndsTheCommand : flying.busy = true ∧ flying.inputs = [] ∧
    (withInput flying .engine).inputs = .engine :: [] ∧
    step { flying with len := 1 } = .fault (.unwrittenRead (.text 0)) :=
  ⟨rfl, rfl, rfl, rfl⟩

theorem witness_StepsNeverRefuse :
    step (withInput State.reset (.read 4 0x0001C)) = .fault (.busError .unmapped) := rfl

/-- For ConfigurationIsConstant, RamInvariant and ErrorRegistersInvariant. -/
theorem witness_invariants : twoLetters.ramCoherent ∧ twoLetters.errorsCoherent ∧
    (∃ t, step (withInput twoLetters (.write 4 0x40008 0x63)) = .next t ∧ t.cfg = twoLetters.cfg) ∧
    (State.reset.raiseError .keyEmpty 0).errorsCoherent ∧
    ∃ t, step (withInput (State.reset.raiseError .keyEmpty 0) (.write 4 0x00024 4)) = .next t ∧ t.err = false :=
  ⟨by decide, by decide, ⟨_, rfl, rfl⟩, by decide, _, rfl, rfl⟩

end Sys2Proof.Tests
end

section
/-! SUPPORT. Register transactions: what the step of a host write does when the bus accepts or refuses it, the status
registers as one update each, and the statements about them (10_state.md R31, R32, R35, R37, R38). -/

namespace Sys2Proof.Machine

/-! ### The step of a host write -/

/-- The step of an accepted write: the write's effect, then its OKAY response (20_memory.md R96). -/
theorem step_of_write_ok {s t : State} {bytes : Nat} {a : BusAddr} {v : Word} {rest : List Input}
    (h : s.inputs = .write bytes a v :: rest) (hw : State.busWrite { s with inputs := rest } bytes a v = .ok t) :
    step s = .next { t with responses := .writeOkay :: t.responses } := by
  rw [step_of_write h, State.hostWrite, hw]

/-- The step of a write that gets an ERROR response (20_memory.md R100). -/
theorem step_of_write_error {s : State} {bytes : Nat} {a : BusAddr} {v : Word} {rest : List Input} {f : Fault}
    (h : s.inputs = .write bytes a v :: rest) (hw : State.busWrite { s with inputs := rest } bytes a v = .error f) :
    step s = .fault f := by
  rw [step_of_write h, State.hostWrite, hw]

/-- The busy rule (70_reset_and_hazards.md R350): while BUSY = 1 a location that is not allowed answers ERROR. -/
theorem State.target_busy {s : State} {a : BusAddr} {allowed : Location → Bool} {l : Location} (ha : a.toNat % 4 = 0)
    (hl : locate s.cfg a.toNat = some l) (hb : s.busy = true) (hn : allowed l = false) :
    s.target 4 a allowed = .error (.busError .busy) := by
  rw [State.target, if_neg (by simp), if_neg (by simpa using ha), hl]
  simp [hb, hn]

/-- The busy rule for a write at a register's address. -/
theorem State.busWrite_register_busy {s : State} {a : BusAddr} {l : Location} (v : Word)
    (h : registerMap.lookup a.toNat = some l) (ha : a.toNat % 4 = 0) (hb : s.busy = true)
    (hn : l.writableWhileBusy = false) : s.busWrite 4 a v = .error (.busError .busy) := by
  rw [State.busWrite, State.target_busy ha (locate_register _ h) hb hn]; rfl

/-! ### STATUS and IRQ_EN -/

/-- A STATUS write as one update of the four fields it can clear (R37). -/
theorem State.writeStatus_eq (s : State) (v : Word) : s.writeStatus v = { s with
    done := if v.getLsbD 1 then false else s.done
    err := if v.getLsbD 2 then false else s.err
    errCode := if v.getLsbD 2 then none else s.errCode
    errInfo := if v.getLsbD 2 then 0 else s.errInfo } := by
  unfold State.writeStatus
  cases v.getLsbD 1 with
  | false => cases v.getLsbD 2 <;> rfl
  | true => cases v.getLsbD 2 <;> rfl

/-- The bits of the mask of IRQ_EN's two fields. -/
theorem getLsbD_irqEnMask :
    ∀ i < 32, (0x00000006 : Word).getLsbD i = (decide (i = 1) || decide (i = 2)) := by decide

/-- IRQ_EN reads back the bits 1 and 2 that were written, every reserved bit 0 (R38). -/
theorem State.irqEnWord_writeIrqEn (s : State) (v : Word) : (s.writeIrqEn v).irqEnWord = v &&& 0x00000006 := by
  apply BitVec.eq_of_getLsbD_eq
  intro i hi
  rw [State.irqEnWord_getLsbD, BitVec.getLsbD_and, getLsbD_irqEnMask i hi]
  by_cases h1 : i = 1
  · simp [h1]
  · by_cases h2 : i = 2
    · simp [h2]
    · simp [h1, h2]

/-- Settles O46: IRQ_EN may be written and read while BUSY = 1, so both transactions reach the register in every state. -/
theorem irqEnableReadWrite : Obligations.IrqEnableReadWrite := by
  refine ⟨rfl, fun s v => ?_⟩
  have hw : s.busWrite 4 0x00028 v = .ok (s.writeIrqEn v) :=
    State.busWrite_register (l := .irqEn) v rfl rfl fun _ => rfl
  have hr : (s.writeIrqEn v).busRead 4 0x00028 = .ok (s.writeIrqEn v).irqEnWord :=
    State.busRead_register (l := .irqEn) rfl rfl fun _ => rfl
  exact ⟨hw, _, hw, by rw [hr, State.irqEnWord_writeIrqEn]⟩

/-- Settles O44: STATUS may be written while BUSY = 1, and its write is the update of `State.writeStatus_eq`. -/
theorem statusWriteClearsByBits : Obligations.StatusWriteClearsByBits := by
  intro s v rest h
  have hw : State.busWrite { s with inputs := rest } 4 0x00024 v = .ok (State.writeStatus { s with inputs := rest } v) :=
    State.busWrite_register (l := .status) v rfl rfl fun _ => rfl
  rw [step_of_write_ok h hw, State.writeStatus_eq]

/-! ### CMD -/

/-- Settles O43: an idle write latches the word, the busy rule refuses it while BUSY = 1, and CMD reads as 0. -/
theorem cmdWriteStartsACommand : Obligations.CmdWriteStartsACommand := by
  intro s v rest
  refine ⟨fun hidle h => ?_, fun hbusy h => ?_, fun hidle => ?_⟩
  · have hidle' : State.busy { s with inputs := rest } = false := hidle
    have hw : State.busWrite { s with inputs := rest } 4 0x00020 v = .ok { s with inputs := rest, pend := some v } :=
      State.busWrite_register (l := .cmd) v rfl rfl (by simp [hidle'])
    exact ⟨_, step_of_write_ok h hw, rfl, rfl⟩
  · exact step_of_write_error h (State.busWrite_register_busy (l := .cmd) v rfl rfl hbusy rfl)
  · exact State.busRead_register (l := .cmd) rfl rfl (by simp [hidle])

/-! ### The identification and configuration registers -/

/-- Settles O42: every one of the seven registers may be read while BUSY = 1, and its location ignores a write. -/
theorem identificationRegisters : Obligations.IdentificationRegisters := by
  intro s
  refine ⟨State.busRead_register (l := .id) rfl rfl fun _ => rfl,
    State.busRead_register (l := .version) rfl rfl fun _ => rfl,
    State.busRead_register (l := .alphaN) rfl rfl fun _ => rfl,
    State.busRead_register (l := .textDepth) rfl rfl fun _ => rfl,
    State.busRead_register (l := .keyDepth) rfl rfl fun _ => rfl,
    State.busRead_register (l := .refDepth) rfl rfl fun _ => rfl,
    State.busRead_register (l := .histDepth) rfl rfl fun _ => rfl, fun a ha v hidle => ?_⟩
  simp only [List.mem_cons, List.not_mem_nil, or_false] at ha
  rcases ha with rfl | rfl | rfl | rfl | rfl | rfl | rfl
  · exact State.busWrite_register (l := .id) v rfl rfl (by simp [hidle])
  · exact State.busWrite_register (l := .version) v rfl rfl (by simp [hidle])
  · exact State.busWrite_register (l := .alphaN) v rfl rfl (by simp [hidle])
  · exact State.busWrite_register (l := .textDepth) v rfl rfl (by simp [hidle])
  · exact State.busWrite_register (l := .keyDepth) v rfl rfl (by simp [hidle])
  · exact State.busWrite_register (l := .refDepth) v rfl rfl (by simp [hidle])
  · exact State.busWrite_register (l := .histDepth) v rfl rfl (by simp [hidle])

end Sys2Proof.Machine
end

section
/-! SUPPORT. The opcode table: the words a row selects, the eleven legal words, and what an illegal word does
(30_encoding.md R131, R133). -/

namespace Sys2Proof

/-! ### The opcode table -/

/-- A command is decoded from its own encoding and from no other word. -/
theorem decode_eq_ok_iff {w : Word} {i : Instr} : decode w = .ok i ↔ w = encode i := by
  constructor
  · intro h
    have hsmall := encode_of_decode_small ⟨w.toNat, toNat_lt_of_decode h⟩ i
    simp only [BitVec.ofNat_toNat, BitVec.setWidth_eq] at hsmall
    exact hsmall h
  · rintro rfl
    exact decode_encode i

theorem encode_selects_row (i : Instr) : encode i &&& i.row.mask = i.row.pattern := by
  cases i with
  | encv c => cases c <;> rfl
  | decv c => cases c <;> rfl
  | train a => cases a <;> rfl
  | _ => rfl

/-- A word decodes to a command of every row it selects. -/
theorem exists_decode_of_selects {w : Word} {j : Instr} (h : w &&& j.row.mask = j.row.pattern) :
    ∃ i, decode w = .ok i ∧ i.row = j.row := by
  obtain ⟨i, rfl, hrow⟩ := exists_encode_of_selects h
  exact ⟨i, decode_encode i, hrow⟩

/-- The rows are disjoint: both rows that a word selects are the row of the one command it decodes to. -/
theorem row_eq_of_selects {w : Word} {i j : Instr} (hi : w &&& i.row.mask = i.row.pattern)
    (hj : w &&& j.row.mask = j.row.pattern) : i.row = j.row := by
  obtain ⟨a, ha, hai⟩ := exists_decode_of_selects hi
  obtain ⟨b, hb, hbj⟩ := exists_decode_of_selects hj
  have hab : a = b := by simpa using ha.symm.trans hb
  rw [← hai, hab, hbj]

/-- Every command with every value of its modifier bit. -/
def allCommands : List Instr :=
  [.nop, .encc, .decc, .encv false, .encv true, .decv false, .decv true, .train false, .train true, .search, .hack]

theorem mem_allCommands (i : Instr) : i ∈ allCommands := by
  cases i with
  | encv c => cases c <;> decide
  | decv c => cases c <;> decide
  | train a => cases a <;> decide
  | _ => decide

/-- The eleven legal words of R131 are the encodings of the commands. -/
theorem exists_decode_iff_mem_legalWords {w : Word} : (∃ i, decode w = .ok i) ↔
    w ∈ ([0x00, 0x01, 0x02, 0x11, 0x31, 0x12, 0x32, 0x03, 0x43, 0x04, 0x05] : List Word) := by
  change _ ↔ w ∈ allCommands.map encode
  simp only [decode_eq_ok_iff, List.mem_map, mem_allCommands, true_and]
  exact exists_congr fun i => eq_comm

/-- Settles O2: a word selects a row exactly when it is the encoding of a command of that row, and the eleven encodings are
the legal words. -/
theorem opcodeTableSelectsCommands : Obligations.OpcodeTableSelectsCommands := by
  refine ⟨⟨rfl, rfl, rfl, fun _ => rfl, fun _ => rfl, fun _ => rfl, rfl, rfl⟩, fun w i hw => ?_,
    fun w j => exists_decode_of_selects, fun i j w => row_eq_of_selects, fun w c hw => ?_, fun w c hw => ?_,
    fun w a hw => ?_, fun w => exists_decode_iff_mem_legalWords⟩
  · rw [decode_eq_ok_iff.1 hw]
    exact encode_selects_row i
  · rw [decode_eq_ok_iff.1 hw]
    obtain ⟨-, -, hbit⟩ := Laws.TableRow.encv c
    exact hbit
  · rw [decode_eq_ok_iff.1 hw]
    obtain ⟨-, -, hbit⟩ := Laws.TableRow.decv c
    exact hbit
  · rw [decode_eq_ok_iff.1 hw]
    obtain ⟨-, -, hbit⟩ := Laws.TableRow.train a
    exact hbit

/-! ### Illegal words -/

/-- No encoding is on R133's list of illegal words. -/
theorem encode_not_listedIllegal (i : Instr) :
    ¬(6 ≤ (encode i).toNat % 16 ∨ 128 ≤ (encode i).toNat ∨
      ((encode i).getLsbD 4 = true ∧ (encode i).toNat % 16 ≠ 1 ∧ (encode i).toNat % 16 ≠ 2) ∨
      ((encode i).getLsbD 5 = true ∧
        ¬(((encode i).toNat % 16 = 1 ∨ (encode i).toNat % 16 = 2) ∧ (encode i).getLsbD 4 = true)) ∨
      ((encode i).getLsbD 6 = true ∧ (encode i).toNat % 16 ≠ 3)) := by
  cases i with
  | encv c => cases c <;> decide
  | decv c => cases c <;> decide
  | train a => cases a <;> decide
  | _ => decide

/-- The decoder rejects a word that selects no row. -/
theorem exists_decode_error_of_selects_none {w : Word} (h : ∀ i : Instr, w &&& i.row.mask ≠ i.row.pattern) :
    ∃ r, decode w = .error r := by
  cases hd : decode w with
  | error r => exact ⟨r, rfl⟩
  | ok i =>
    have hsel := encode_selects_row i
    rw [← decode_eq_ok_iff.1 hd] at hsel
    exact absurd hsel (h i)

end Sys2Proof

namespace Sys2Proof.Machine

/-- The step of a CMD write while BUSY = 0: it latches the word, legal or not (R133; 10_state.md R35). -/
theorem step_of_cmdWrite_idle {s : State} {w : Word} {rest : List Input} (hidle : s.busy = false)
    (h : s.inputs = .write 4 0x00020 w :: rest) :
    step s = .next { s with pend := some w, inputs := rest, responses := .writeOkay :: s.responses } := by
  obtain ⟨latch, -, -⟩ := cmdWriteStartsACommand s w rest
  obtain ⟨t, ht, -, rfl⟩ := latch hidle h
  exact ht

/-- The engine's step with a word in flight that the decoder rejects (R133; 60_exceptions.md R300, R302). -/
theorem step_of_engine_illegal {s : State} {w : Word} {r : Reject} {rest : List Input} (hp : s.pend = some w)
    (hd : decode w = .error r) (h : s.inputs = .engine :: rest) :
    step s = .next (State.raiseError { s with inputs := rest } .illegalCmd w) := by
  rw [step_of_cons h]
  exact State.engineTurn_illegal hp hd

/-- Settles O3: a word that selects a row is legal and so not on R133's list; one that selects none is latched as any word
is, and the decoder rejects it when the engine's turn comes. -/
theorem illegalWordCompletesAsIllegalCmd : Obligations.IllegalWordCompletesAsIllegalCmd := by
  refine ⟨fun w hlisted i hsel => ?_, fun s rest w hnone => ⟨step_of_cmdWrite_idle, fun hp h => ?_⟩⟩
  · obtain ⟨k, rfl, -⟩ := exists_encode_of_selects hsel
    exact encode_not_listedIllegal k hlisted
  · obtain ⟨r, hd⟩ := exists_decode_error_of_selects_none hnone
    exact step_of_engine_illegal hp hd h

end Sys2Proof.Machine
end

section
/-! SUPPORT. The alphabet and the shifter as R152 to R154 state them, NOP (R161), and the round trip of the cipher commands
(40_cipher.md R166). -/

namespace Sys2Proof.Machine

/-! ### The shifter -/

/-- An offset below 26 does not leave the partition of its base (R150). -/
theorem partitionBase_add_lt_iff (i : Nat) {r : Nat} (h : r < 26) : partitionBase i + r < 26 ↔ i < 26 := by
  unfold partitionBase
  split <;> omega

/-- Where the shifter moves a letter (R153): to the offset `r` of its own partition, `r` the residue below 26 of the letter's
offset and the delta together. -/
theorem exists_shift_offset {c : Word} {i : Nat} (h : alphaIndex c = some i) (d : Int) :
    ∃ r : Nat, r < 26 ∧ (26 : Int) ∣ ((i : Int) - partitionBase i + d) - r ∧
      shift c d = alphaSymbol (partitionBase i + r) ∧ alphaIndex (shift c d) = some (partitionBase i + r) :=
  ⟨((i - partitionBase i + d) % 26).toNat, by omega, by omega, shift_eq h d, alphaIndex_shift h d⟩

/-- Only the residue of the delta matters (R154 (b)). -/
theorem shift_emod (c : Word) (d : Int) : shift c (d % 26) = shift c d := by
  rw [← shift_add_mul c (d % 26) (d / 26), Int.emod_add_mul_ediv]

/-- Settles O6: an index below 52 is that of its own symbol, and a letter is the symbol of its own index. -/
theorem alphaSymbolInvertsAlphaIndex : Obligations.AlphaSymbolInvertsAlphaIndex := by
  refine ⟨fun i hi => ?_, fun i hlow hi => ?_, fun i hi => alphaIndex_alphaSymbol (by omega), fun c i h => ?_⟩
  · rw [toNat_alphaSymbol (by omega), if_pos hi]
  · rw [toNat_alphaSymbol (by omega), if_neg (by omega)]
  · exact ⟨Nat.le_of_lt_succ (alphaIndex_lt h), alphaSymbol_alphaIndex h⟩

/-- Settles O7: the base is the letter's partition base, the rest is its shift offset. -/
theorem shiftIsModularWithinThePartition : Obligations.ShiftIsModularWithinThePartition := by
  refine ⟨fun c d i h => ?_, fun dir ks cur c h => ?_⟩
  · obtain ⟨r, hr, hdvd, hshift, hindex⟩ := exists_shift_offset h d
    exact ⟨partitionBase i, r, rfl, hr, hdvd, hshift, hindex⟩
  · rw [transform_other [] (by simp [h])]
    rfl

/-- Settles O8: the shifted letter lies in the partition of its base, and the laws of `shift` hold for every symbol. -/
theorem shifterProperties : Obligations.ShifterProperties := by
  refine ⟨fun c d i h => ⟨?_, (shift_emod c d).symm, fun q => (shift_add_mul c d q).symm, shift_neg_shift c d,
    shift_zero c⟩, by decide⟩
  obtain ⟨r, hr, -, -, hindex⟩ := exists_shift_offset h d
  exact ⟨_, hindex, partitionBase_add_lt_iff i hr⟩

/-! ### NOP -/

/-- NOP's is the only encoding with OP = 0 (R161). -/
theorem eq_nop_of_op_zero {i : Instr} (h : (encode i).toNat % 16 = 0) : i = .nop := by
  cases i with
  | nop => rfl
  | encv c => cases c <;> simp [encode] at h
  | decv c => cases c <;> simp [encode] at h
  | train a => cases a <;> simp [encode] at h
  | _ => simp [encode] at h

/-- STATUS after a completion without error (60_exceptions.md R300): bit 0 cleared, bit 1 set, the others as they were. -/
theorem State.finish_statusWord_getLsbD (s : State) (k : Nat) :
    s.finish.statusWord.getLsbD k = if k = 0 then false else if k = 1 then true else s.statusWord.getLsbD k := by
  rw [State.statusWord_getLsbD, State.statusWord_getLsbD]
  by_cases h0 : k = 0
  · rw [if_pos h0, if_pos h0, State.finish_busy]
  · rw [if_neg h0, if_neg h0, if_neg h0]
    by_cases h1 : k = 1
    · rw [if_pos h1, if_pos h1]; rfl
    · rw [if_neg h1, if_neg h1, if_neg h1]; rfl

/-- A completion without error takes STATUS from 0 to the DONE bit alone. -/
theorem State.finish_statusWord_of_zero {s : State} (h : s.statusWord = 0) : s.finish.statusWord = 0x00000002 := by
  have hdone : (0x00000002 : Word) = BitVec.twoPow 32 1 := rfl
  rw [hdone]
  apply BitVec.eq_of_getLsbD_eq
  intro k hk
  rw [State.finish_statusWord_getLsbD, BitVec.getLsbD_twoPow, h]
  by_cases h1 : k = 1
  · simp [h1]
  · simp [h1, Ne.symm h1]

/-- Settles O9: NOP is the completion alone, and a word that decodes is an encoding, of which one has OP = 0. -/
theorem nopOnlyCompletes : Obligations.NopOnlyCompletes := by
  refine ⟨rfl, execNop_eq, fun w hop hne i hd => ?_, fun s h => ⟨_, execNop_eq s, State.finish_statusWord_of_zero h⟩⟩
  obtain rfl := decode_eq_ok_iff.1 hd
  obtain rfl := eq_nop_of_op_zero hop
  exact hne rfl

/-! ### The operands after a cipher command, and the round trip -/

/-- The output of a cipher command is a loaded text (R159). -/
theorem State.cipherText_textLoaded {s : State} {text : List Word} (h : s.textLoaded text) (d : Direction)
    (ks : List Int) (cur : Nat) : (s.cipherText d ks cur text).textLoaded (transform d ks cur text).1 := by
  obtain ⟨hlen, hdepth, hsyms⟩ := h
  have hlegal : ∀ c ∈ text, c.toNat ≤ 0x10FFFF := fun c hc => by
    obtain ⟨i, hi, rfl⟩ := List.getElem_of_mem hc
    exact (hsyms i hi).2
  refine ⟨by simpa using hlen, by simpa using hdepth, fun i hi => ⟨?_, ?_⟩⟩
  · exact State.cipherText_ram_text s d ks cur text (by simpa using hi)
  · exact toNat_transform_le d ks cur hlegal _ (List.getElem_mem hi)

/-- A cipher command leaves the loaded key: with legal depths the KEY window ends below TEXT (20_memory.md R92). -/
theorem State.cipherText_keyLoaded {s : State} {key : List Word} (hcfg : s.cfg.wellFormed = true) (h : s.keyLoaded key)
    (d : Direction) (ks : List Int) (cur : Nat) (text : List Word) : (s.cipherText d ks cur text).keyLoaded key := by
  obtain ⟨hlen, hpos, hdepth, hletters⟩ := h
  refine ⟨hlen, hpos, hdepth, fun j hj => ?_⟩
  have hbelow : (RamWord.key j).addr + 4 ≤ 0x40000 := by
    have hlegal := Config.wellFormed_iff.1 hcfg
    simp only [RamWord.addr]
    omega
  rw [State.cipherText_ram_below s d ks cur text hbelow]
  exact hletters j hj

/-- Decoding from the same cursor the symbols an encode gave writes the encoded text back (R166), in any state. -/
theorem State.cipherText_decode_encode_ram (s : State) (ks : List Int) (cur : Nat) (text : List Word) {i : Nat}
    (h : i < text.length) :
    (s.cipherText .decode ks cur (transform .encode ks cur text).1).ram (.text i) = some text[i] := by
  rw [State.cipherText_ram_text _ _ _ _ _ (by simpa using h)]
  simp only [transform_decode_encode]

/-- ENCV completes and leaves its key loaded, and its output as the loaded text (R164). -/
theorem exists_encv_loaded {s : State} {cont : Bool} {key text : List Word} (hcfg : s.cfg.wellFormed = true)
    (hkey : s.keyLoaded key) (hcur : s.cursorLegal cont) (htext : s.textLoaded text) :
    ∃ t, exec (.encv cont) s = .next t ∧ t.keyLen = s.keyLen ∧ t.keyLoaded key ∧
      t.textLoaded (transform .encode (key.map fun c => (subkey c : Int)) (s.startCursor cont) text).1 :=
  ⟨_, State.vigenere_of_loaded hkey hcur htext .encode, rfl, State.cipherText_keyLoaded hcfg hkey _ _ _ _,
    State.cipherText_textLoaded htext _ _ _⟩

/-- ENCC completes and leaves its key, and its output as the loaded text (R162). -/
theorem exists_encc_loaded {s : State} {text : List Word} (htext : s.textLoaded text) :
    ∃ t, exec .encc s = .next t ∧ t.ckey = s.ckey ∧ t.textLoaded (transform .encode [signed32 s.ckey] 0 text).1 :=
  ⟨_, State.caesar_of_loaded htext .encode, rfl, State.cipherText_textLoaded htext _ _ _⟩

/-- DECV over the output of ENCV with the same key and starting cursor completes and restores the text (R166). -/
theorem exists_decv_restores {t : State} {cont : Bool} {key text : List Word} (hkey : t.keyLoaded key)
    (hcur : t.cursorLegal cont)
    (htext : t.textLoaded (transform .encode (key.map fun c => (subkey c : Int)) (t.startCursor cont) text).1) :
    ∃ u, exec (.decv cont) t = .next u ∧ ∀ i (h : i < text.length), u.ram (.text i) = some text[i] :=
  ⟨_, State.vigenere_of_loaded hkey hcur htext .decode, fun _ => State.cipherText_decode_encode_ram t _ _ text⟩

/-- DECC over the output of ENCC with the same key completes and restores the text (R166). -/
theorem exists_decc_restores {t : State} {text : List Word}
    (htext : t.textLoaded (transform .encode [signed32 t.ckey] 0 text).1) :
    ∃ u, exec .decc t = .next u ∧ ∀ i (h : i < text.length), u.ram (.text i) = some text[i] :=
  ⟨_, State.caesar_of_loaded htext .decode, fun _ => State.cipherText_decode_encode_ram t _ _ text⟩

/-- Settles O15: the encode leaves its key and its output loaded, so that the decode completes and runs the same schedule
from the same cursor over that output. -/
theorem decodeAfterEncodeRestoresTheText : Obligations.DecodeAfterEncodeRestoresTheText := by
  refine ⟨fun s cont key text hcfg hkey hcur htext => ?_, fun s text htext => ?_⟩
  · obtain ⟨t, ht, hkeyLen, hkey', htext'⟩ := exists_encv_loaded hcfg hkey hcur htext
    have hcur' : State.cursorLegal { t with kcur := s.kcur } cont := fun hcont => by
      simpa only [hkeyLen] using hcur hcont
    obtain ⟨u, hu, hrestored⟩ := exists_decv_restores (t := { t with kcur := s.kcur }) hkey' hcur' htext'
    exact ⟨t, u, ht, hu, hrestored⟩
  · obtain ⟨t, ht, hckey, htext'⟩ := exists_encc_loaded htext
    rw [← hckey] at htext'
    obtain ⟨u, hu, hrestored⟩ := exists_decc_restores htext'
    exact ⟨t, u, ht, hu, hrestored⟩

end Sys2Proof.Machine
end

section
/-! SUPPORT. The frequency model after TRAIN: its invariant, the empty text, and the sums of the exact frequencies and of
their readouts (41_train.md R201, R203, R207). -/

namespace Sys2Proof.Machine

/-! ### The empty model -/

/-- LEN = 0 is the loaded empty text, whatever TEXT holds. -/
theorem State.textLoaded_nil {s : State} (h : s.len = 0) : s.textLoaded [] := by
  refine ⟨?_, Nat.zero_le _, fun i hi => absurd hi (Nat.not_lt_zero i)⟩
  rw [h]
  rfl

/-- Every entry counts at least 1, so TOTAL is at least HIST_LEN (R201). -/
theorem State.hist_length_le_total {s : State} (h : s.histCoherent) : s.hist.length ≤ s.total.toNat := by
  obtain ⟨htotal, hpos, -, -⟩ := h
  rw [htotal]
  exact length_le_histSum hpos

/-- Settles O24: with LEN = 0 the text counted is the loaded empty one, and TOTAL bounds the number of entries. -/
theorem emptyTextTrainsTheEmptyModel : Obligations.EmptyTextTrainsTheEmptyModel := by
  refine ⟨fun s hlen => execTrain_of_loaded (State.textLoaded_nil hlen) rfl, fun s j h hj => ?_⟩
  have hle := State.hist_length_le_total h
  omega

/-! ### The invariant after TRAIN -/

/-- TRAIN keeps the invariants of the frequency model (R201), whether it completes or raises an error. -/
theorem histCoherent_of_exec_train {s t : State} {acc : Bool} (hs : s.histCoherent)
    (h : exec (.train acc) s = .next t) : t.histCoherent := by
  rcases exec_eq_next h with ⟨code, info, rfl⟩ | ⟨u, rfl, text, ⟨hist, total⟩, -, hcount, rfl⟩
  · exact hs
  · obtain ⟨⟨htotal, hpos, hnodup⟩, hlen, -⟩ :=
      trainBody_ok (State.trainStart_agrees fun _ => hs) (State.trainStart_length fun _ => hs) hcount
    exact ⟨htotal, hpos, hlen, hnodup⟩

/-! ### Sums over the entries -/

/-- Frequencies over a common total add up to the sum of the counts over it (R207). -/
theorem sum_frequency (h : List HistEntry) (total : ℚ) :
    (h.map fun e => (e.count.toNat : ℚ) / total).sum = histSum h / total := by
  induction h with
  | nil => simp [histSum]
  | cons e es ih => rw [List.map_cons, List.sum_cons, ih, histSum_cons, Nat.cast_add, add_div]

/-- The sum of the frequencies of `h` over `total`, each rounded down to a multiple of 2^-31, in units of 2^-31 (R204). -/
def flooredSum (h : List HistEntry) (total : Nat) : Nat := (h.map fun e => e.count.toNat * 2 ^ 31 / total).sum

theorem flooredSum_cons (e : HistEntry) (es : List HistEntry) (total : Nat) :
    flooredSum (e :: es) total = e.count.toNat * 2 ^ 31 / total + flooredSum es total := by
  simp [flooredSum]

/-- Where the counts sum to at most the total no readout overflows, so the readouts sum to the rounded frequencies. -/
theorem sum_freqReadout {h : List HistEntry} {total : Word} (hsum : histSum h ≤ total.toNat) :
    (h.map fun e => (freqReadout e.count total).toNat).sum = flooredSum h total.toNat := by
  rw [flooredSum]
  congr 1
  exact List.map_congr_left fun e he => toNat_freqReadout ((count_le_histSum he).trans hsum)

/-- Rounding down loses nothing upwards. -/
theorem flooredSum_mul_le (h : List HistEntry) (total : Nat) : flooredSum h total * total ≤ histSum h * 2 ^ 31 := by
  induction h with
  | nil => simp [flooredSum]
  | cons e es ih =>
    rw [flooredSum_cons, histSum_cons, Nat.add_mul, Nat.add_mul]
    exact Nat.add_le_add (Nat.div_mul_le_self _ _) ih

/-- Rounding down loses less than one unit per entry. -/
theorem histSum_mul_lt {h : List HistEntry} {total : Nat} (hne : h ≠ []) (htotal : 0 < total) :
    histSum h * 2 ^ 31 < (flooredSum h total + h.length) * total := by
  have key : ∀ es : List HistEntry, histSum es * 2 ^ 31 + es.length ≤ (flooredSum es total + es.length) * total := by
    intro es
    induction es with
    | nil => simp [histSum]
    | cons e es ih =>
      have hentry : e.count.toNat * 2 ^ 31 < (e.count.toNat * 2 ^ 31 / total + 1) * total :=
        Nat.lt_mul_of_div_lt (Nat.lt_succ_self _) htotal
      rw [flooredSum_cons, histSum_cons, List.length_cons]
      linarith
  have hlen := List.length_pos_of_ne_nil hne
  have hsum := key h
  omega

/-- Settles O28: TRAIN leaves a coherent model, so that the counts sum to TOTAL; each readout is its frequency rounded down,
by less than one unit. -/
theorem frequenciesSumToOne : Obligations.FrequenciesSumToOne := by
  intro s t acc hs h hpos
  obtain ⟨htotal, -⟩ := histCoherent_of_exec_train hs h
  refine ⟨?_, ?_⟩
  · rw [sum_frequency, ← htotal]
    exact div_self (Nat.cast_ne_zero.2 (Nat.ne_of_gt hpos))
  · rw [sum_freqReadout (Nat.le_of_eq htotal.symm)]
    have hne : t.hist ≠ [] := by
      intro hnil
      rw [hnil] at htotal
      exact absurd htotal (Nat.ne_of_gt hpos)
    have hupper := flooredSum_mul_le t.hist t.total.toNat
    have hlower := histSum_mul_lt hne hpos
    rw [← htotal, Nat.mul_comm t.total.toNat] at hupper hlower
    exact ⟨Nat.lt_of_mul_lt_mul_right hlower, Nat.le_of_mul_le_mul_right hupper hpos⟩

end Sys2Proof.Machine
end

section
/-! SUPPORT. SEARCH: its scores fit 80 bits, all 26 are recorded exactly, and they are ENC's real-valued scores scaled by
TOTAL * 2^31 (42_keysearch.md R231 to R236). -/

namespace Sys2Proof.Machine

/-! ### The bounds of a score -/

/-- A word times 1.0 of Q1.31, or times a smaller frequency, is below 2^63 (R235). -/
theorem toNat_mul_lt (w : Word) {r : Nat} (h : r ≤ 2 ^ 31) : w.toNat * r < 2 ^ 63 :=
  calc w.toNat * r ≤ w.toNat * 2 ^ 31 := Nat.mul_le_mul_left _ h
    _ < 2 ^ 63 := by have := w.isLt; omega

/-- At most 1024 terms, each at most 2^63 - 1, sum to less than 2^73 (R235). -/
theorem candidateScore_lt_two_pow_73 {hist : List HistEntry} {ref : List RefEntry} (hlen : hist.length ≤ 1024)
    (hfreq : ∀ e ∈ ref, e.freq.toNat ≤ 2 ^ 31) (total : Word) (k : Nat) : candidateScore hist total ref k < 2 ^ 73 := by
  have hterm : ∀ x ∈ hist.map (scoreTerm total ref k), x ≤ 2 ^ 63 - 1 := by
    intro x hx
    obtain ⟨e, -, rfl⟩ := List.mem_map.1 hx
    exact Nat.le_sub_one_of_lt (scoreTerm_lt hfreq total k e)
  have hsum := List.sum_le_card_nsmul _ _ hterm
  rw [List.length_map, smul_eq_mul] at hsum
  unfold candidateScore
  omega

/-- Settles O29: TOTAL and COUNT are words and no reference frequency is above 2^31; the bounds of a term and of the sum
follow. -/
theorem scoresFitEightyBits : Obligations.ScoresFitEightyBits := by
  intro hist total ref k hlen hfreq
  have hlt := candidateScore_lt_two_pow_73 hlen hfreq total k
  refine ⟨fun c => toNat_mul_lt total (referenceFrequency_le hfreq c), fun e _ => toNat_mul_lt e.count le_rfl,
    fun e _ => scoreTerm_lt hfreq total k e, hlt, ?_⟩
  rw [BitVec.toNat_ofNat, Nat.mod_eq_of_lt (hlt.trans (by decide))]

/-! ### The scores SEARCH records -/

/-- With its model loaded SEARCH leaves the exact scores and their first minimum (R231 to R233): a coherent HIST has at
most 1024 entries, so no score is cut. -/
theorem State.searchKeys_holds_exactScore {s : State} {ref : List RefEntry} (hcfg : s.cfg.wellFormed = true)
    (hhist : s.histCoherent) (href : s.refLoaded ref) :
    (s.searchKeys ref).holdsSearchOf (exactScore s.hist s.total.toNat ref) := by
  obtain ⟨-, -, hdepth, -⟩ := hhist
  obtain ⟨-, -, -, -, hlegal⟩ := Config.wellFormed_iff.1 hcfg
  have hfits := candidateScore_lt (hdepth.trans hlegal) (State.freq_le_of_refLoaded href) s.total
  have hholds := State.searchKeys_holds s ref hfits
  rwa [funext (candidateScore_eq s.hist s.total ref)] at hholds

/-- Settles O30: SEARCH is the recording of the scores and the completion, which keeps the result registers and ERR. -/
theorem searchScoresEveryShift : Obligations.SearchScoresEveryShift := fun _ _ hcfg hhist href =>
  ⟨_, execSearch_of_loaded href, rfl, rfl, rfl, State.searchKeys_holds_exactScore hcfg hhist href⟩

/-! ### The real-valued scores -/

/-- One term of a score is TOTAL * 2^31 times the real-valued distance of the two frequencies (R234). -/
theorem cast_natAbs_eq_mul_abs {total : Nat} (h : 0 < total) (r c : Nat) :
    ((((total : Int) * r - (c : Int) * 2 ^ 31).natAbs : Nat) : ℚ) =
      total * 2 ^ 31 * |(r : ℚ) / 2 ^ 31 - (c : ℚ) / total| := by
  have htotal : (0 : ℚ) < total := Nat.cast_pos.2 h
  have hscale : (total : ℚ) * r - c * 2 ^ 31 = total * 2 ^ 31 * (r / 2 ^ 31 - c / total) := by field_simp
  rw [← abs_of_pos (show (0 : ℚ) < total * 2 ^ 31 by positivity), ← abs_mul, ← hscale, Nat.cast_natAbs]
  push_cast
  rfl

/-- The exact score is the real-valued score times TOTAL * 2^31 (R234). -/
theorem cast_exactScore (hist : List HistEntry) {total : Nat} (h : 0 < total) (ref : List RefEntry) (k : Nat) :
    (exactScore hist total ref k : ℚ) = total * 2 ^ 31 * realScore hist total ref k := by
  rw [exactScore, realScore, ← List.sum_map_mul_left, Nat.cast_list_sum, List.map_map]
  congr 1
  exact List.map_congr_left fun e _ => cast_natAbs_eq_mul_abs h _ _

/-- The scaling factor is positive, so the exact scores are in the order of the real-valued ones (R234). -/
theorem exactScore_le_iff (hist : List HistEntry) {total : Nat} (h : 0 < total) (ref : List RefEntry) (k k' : Nat) :
    exactScore hist total ref k ≤ exactScore hist total ref k' ↔
      realScore hist total ref k ≤ realScore hist total ref k' := by
  have hpos : (0 : ℚ) < total * 2 ^ 31 := mul_pos (Nat.cast_pos.2 h) (by norm_num)
  rw [← Nat.cast_le (α := ℚ), cast_exactScore hist h, cast_exactScore hist h, mul_le_mul_iff_right₀ hpos]

/-- A coherent HIST with TOTAL = 0 has no entry (41_train.md R201). -/
theorem State.hist_eq_nil_of_total_zero {s : State} (h : s.histCoherent) (hzero : s.total.toNat = 0) : s.hist = [] :=
  List.eq_nil_of_length_eq_zero (Nat.eq_zero_of_le_zero (hzero ▸ State.hist_length_le_total h))

/-- Settles O31: SCORE[k] is the exact score, whose scaling and order are those of the real-valued score; with TOTAL = 0
both are sums over no entry. -/
theorem exactScoreOrdersAsTheRealScore : Obligations.ExactScoreOrdersAsTheRealScore := by
  intro s ref hcfg hhist href
  obtain ⟨hscore, -⟩ := State.searchKeys_holds_exactScore hcfg hhist href
  refine ⟨_, execSearch_of_loaded href, fun hpos => ⟨fun k => ?_, fun k k' => ?_⟩, fun hzero => ?_⟩
  · rw [State.finish_score, hscore, cast_exactScore _ hpos]
  · rw [State.finish_score, hscore, hscore, exactScore_le_iff _ hpos]
  · have hnil := State.hist_eq_nil_of_total_zero hhist hzero
    refine ⟨hnil, fun k => ⟨BitVec.eq_of_toNat_eq ?_, ?_⟩⟩
    · rw [State.finish_score, hscore, hnil]
      rfl
    · rw [hnil]
      rfl

end Sys2Proof.Machine
end

section
/-! SUPPORT. Errors and interrupts: a command in flight ends as a completion or as one atomic error entry, and what a step does
to the two interrupt sources DONE and ERR (60_exceptions.md R302, R310, R311). -/

namespace Sys2Proof.Machine

/-! ### The end of the command in flight -/

/-- The engine's turn with a word in flight either finishes the command, with ERR, ERR_CODE and ERR_INFO as before, or is the
error entry in the state the command found (R300, R302). -/
theorem State.engineTurn_busy_eq_next {s t : State} {w : Word} (hp : s.pend = some w) (h : s.engineTurn = .next t) :
    t.busy = false ∧
    ((t.done = true ∧ t.err = s.err ∧ t.errCode = s.errCode ∧ t.errInfo = s.errInfo) ∨
      ∃ code info, t = s.raiseError code info) := by
  rcases State.engineTurn_eq_next h with ⟨hidle, -⟩ | ⟨-, -, ⟨code, info, rfl⟩ | ⟨i, u, -, rfl, hbody⟩⟩
  · simp [hp] at hidle
  · exact ⟨rfl, .inr ⟨code, info, rfl⟩⟩
  · obtain ⟨-, herr, hcode, hinfo, -⟩ := commandBody_frame hbody
    exact ⟨rfl, .inl ⟨rfl, herr, hcode, hinfo⟩⟩

/-- Settles O17: the engine's step is its turn in the state with the input taken, and an error entry is the update of the four
fields R302 lists. -/
theorem errorsArePreciseAndAtomic : Obligations.ErrorsArePreciseAndAtomic := by
  intro s t w rest hp hin h
  rw [step_of_cons hin] at h
  exact State.engineTurn_busy_eq_next (s := { s with inputs := rest }) hp h

/-! ### The interrupt sources -/

/-- DONE and ERR, where set, are still set. -/
def State.keepsSources (s t : State) : Prop := (s.done = true → t.done = true) ∧ (s.err = true → t.err = true)

/-- The engine clears neither source: a completion sets DONE and leaves ERR, an error entry sets ERR and leaves DONE. -/
theorem State.engineTurn_keepsSources {s t : State} (h : s.engineTurn = .next t) : s.keepsSources t := by
  cases hp : s.pend with
  | none =>
    rw [State.engineTurn_none hp] at h
    cases h
    exact ⟨id, id⟩
  | some w =>
    obtain ⟨-, ⟨hdone, herr, -, -⟩ | ⟨code, info, rfl⟩⟩ := State.engineTurn_busy_eq_next hp h
    · exact ⟨fun _ => hdone, fun hs => herr.trans hs⟩
    · exact ⟨id, fun _ => rfl⟩

/-- Only a write of STATUS touches the sources (10_state.md R37). -/
theorem State.writeLocation_keepsSources (s : State) (v : Word) {l : Location} (h : l ≠ .status) :
    s.keepsSources (s.writeLocation v l) := by
  cases l with
  | status => exact absurd rfl h
  | _ => exact ⟨id, id⟩

/-- STATUS is mapped at its register's address alone (20_memory.md R92). -/
theorem eq_of_locate_status {c : Config} {a : Nat} (h : locate c a = some .status) : a = 0x00024 := by
  unfold locate at h
  split at h
  · rename_i l hl
    cases h
    simpa [registerMap] using lookup_registerMap_mem hl
  · rcases windowAt_cases h with ⟨-, -, k, w, h⟩ | ⟨-, -, h⟩ | ⟨w, h, -⟩ <;> cases h

/-- What a step does to the sources: it keeps them, or it is a STATUS write that clears those whose bits are set, or a reset
(R310, R311). -/
theorem step_sources {s t : State} (h : step s = .next t) :
    s.keepsSources t ∨
    (∃ v rest, s.inputs = .write 4 0x00024 v :: rest ∧ t.done = (s.done && !v.getLsbD 1) ∧
      t.err = (s.err && !v.getLsbD 2)) ∨
    ∃ rest, s.inputs = .reset :: rest := by
  cases hi : s.inputs with
  | nil =>
    rw [step_of_nil hi] at h
    exact .inl (State.engineTurn_keepsSources h)
  | cons i rest =>
    rw [step_of_cons hi] at h
    cases i with
    | engine => exact .inl (State.engineTurn_keepsSources (s := { s with inputs := rest }) h)
    | reset => exact .inr (.inr ⟨rest, rfl⟩)
    | read bytes a =>
      obtain ⟨v, -, rfl⟩ := State.hostRead_eq_next h
      exact .inl ⟨id, id⟩
    | write bytes a v =>
      obtain ⟨l, hl, rfl⟩ := State.hostWrite_eq_next h
      obtain ⟨rfl, -, hloc, -⟩ := State.target_eq_ok hl
      by_cases hstatus : l = .status
      · subst hstatus
        obtain rfl : a = 0x00024 := BitVec.eq_of_toNat_eq (eq_of_locate_status hloc)
        exact .inr (.inl ⟨v, rest, rfl, State.writeStatus_done _ v, State.writeStatus_err _ v⟩)
      · exact .inl (State.writeLocation_keepsSources { s with inputs := rest } v hstatus)

/-- Settles O47: irq is R310's formula, and of the steps that do not keep a source a STATUS write clears it by its own bit. -/
theorem interruptSourcesClearOnlyByHostOrReset : Obligations.InterruptSourcesClearOnlyByHostOrReset := by
  refine ⟨fun s => by simp [State.irq], fun s t h => ?_⟩
  rcases step_sources h with ⟨hdone, herr⟩ | ⟨v, rest, hin, hdone, herr⟩ | hreset
  · exact ⟨fun hs ht => by simp [hdone hs] at ht, fun hs ht => by simp [herr hs] at ht⟩
  · exact ⟨fun hs ht => .inl ⟨v, rest, hin, by simpa [hdone, hs] using ht⟩,
      fun hs ht => .inl ⟨v, rest, hin, by simpa [herr, hs] using ht⟩⟩
  · exact ⟨fun _ _ => .inr hreset, fun _ _ => .inr hreset⟩

end Sys2Proof.Machine
end
section
/-! SUPPORT. The reset state: the value of every register and of every score, and what the bus reads of it
(70_reset_and_hazards.md R341). -/

namespace Sys2Proof.Machine

/-- The candidate scores are cleared (10_state.md R64). -/
@[simp] theorem State.reset_score (k : Fin 26) : State.reset.score[k] = 0 :=
  Vector.getElem_replicate k.isLt

/-- No flag is set and no error is recorded, so that every field of STATUS is 0 (10_state.md R36). -/
@[simp] theorem State.reset_statusWord : State.reset.statusWord = 0 := rfl

/-- Both interrupt sources are disabled (10_state.md R38). -/
@[simp] theorem State.reset_irqEnWord : State.reset.irqEnWord = 0 := irqEnableReadWrite.1

/-- Settles O38: the registers are fields of the reset state, and the constants are what the identification registers read in
every state, at the depths of `Config.encCore`. -/
theorem resetValues : Obligations.ResetValues := by
  obtain ⟨hid, hversion, halphaN, htext, hkey, href, hhist, -⟩ := identificationRegisters State.reset
  exact ⟨rfl, rfl, rfl, rfl, rfl, rfl, rfl, rfl, rfl, State.reset_score, State.reset_statusWord, State.reset_irqEnWord, rfl,
    rfl, hid, hversion, halphaN, htext, hkey, href, hhist⟩

end Sys2Proof.Machine
end

section
/-! SUPPORT. The round trip of the decoder and the encoder, and the command that a step runs (30_encoding.md R131, R137;
60_exceptions.md R300). -/

namespace Sys2Proof

/-- Settles O1: among the 128 words without a reserved bit each legal one is the encoding of its command, and every encoding
decodes to its command. -/
theorem decodeInvertsEncode : Obligations.DecodeInvertsEncode := fun _ _ => decode_eq_ok_iff

/-- Settles O4: the eight legal words are encodings, the other two are on R133's list of illegal words. -/
theorem sampleWordsDecode : Obligations.SampleWordsDecode := by
  have hlegal (i : Instr) : decode (encode i) = .ok i := decode_encode i
  refine ⟨hlegal .nop, hlegal .encc, hlegal .decc, hlegal (.encv true), hlegal (.decv false), hlegal (.train true),
    hlegal .search, hlegal .hack, fun i h => ?_, fun i h => ?_⟩
  · exact encode_not_listedIllegal i (by rw [← decode_eq_ok_iff.1 h]; decide)
  · exact encode_not_listedIllegal i (by rw [← decode_eq_ok_iff.1 h]; decide)

end Sys2Proof

namespace Sys2Proof.Machine

theorem step_of_engine {s : State} {rest : List Input} (h : s.inputs = .engine :: rest) :
    step s = State.engineTurn { s with inputs := rest } := step_of_cons h

theorem step_of_reset {s : State} {rest : List Input} (h : s.inputs = .reset :: rest) :
    step s = .next (State.applyReset { s with inputs := rest }) := step_of_cons h

/-- Settles O5: with or without an input left the step is the engine's turn, which runs the decoded command. -/
theorem stepRunsTheCommandInFlight : Obligations.StepRunsTheCommandInFlight := by
  refine fun s w i hp hd => ⟨fun rest hin => ?_, fun hin => ?_⟩
  · rw [step_of_engine hin]
    exact State.engineTurn_legal (s := { s with inputs := rest }) hp hd
  · rw [step_of_nil hin, State.engineTurn_legal hp hd]

end Sys2Proof.Machine
end

section
/-! SUPPORT. The invariants of the whole machine: what a bus write and a command's body can do to each part of the state, and
from that what every step keeps (10_state.md R36, R51; 41_train.md R201; 42_keysearch.md R233). -/

namespace Sys2Proof.Machine

/-! ### What a bus write leaves alone -/

section
variable (s : State) (v : Word) (l : Location)

@[simp] theorem State.writeLocation_cfg : (s.writeLocation v l).cfg = s.cfg := by
  cases l with
  | status => exact State.writeStatus_cfg s v
  | _ => rfl

@[simp] theorem State.writeLocation_hist : (s.writeLocation v l).hist = s.hist := by
  cases l with
  | status => exact State.writeStatus_hist s v
  | _ => rfl

@[simp] theorem State.writeLocation_total : (s.writeLocation v l).total = s.total := by
  cases l with
  | status => exact State.writeStatus_total s v
  | _ => rfl

@[simp] theorem State.writeLocation_score : (s.writeLocation v l).score = s.score := by
  cases l with
  | status => exact State.writeStatus_score s v
  | _ => rfl

@[simp] theorem State.writeLocation_bestKey : (s.writeLocation v l).bestKey = s.bestKey := by
  cases l with
  | status => exact State.writeStatus_bestKey s v
  | _ => rfl

@[simp] theorem State.writeLocation_bestScore : (s.writeLocation v l).bestScore = s.bestScore := by
  cases l with
  | status => exact State.writeStatus_bestScore s v
  | _ => rfl

@[simp] theorem State.writeLocation_inputs : (s.writeLocation v l).inputs = s.inputs := by
  cases l with
  | status => exact State.writeStatus_inputs s v
  | _ => rfl

@[simp] theorem State.writeLocation_responses : (s.writeLocation v l).responses = s.responses := by
  cases l with
  | status => exact State.writeStatus_responses s v
  | _ => rfl

end

/-- A bus write leaves the RAM, or it writes the one RAM word of its location (20_memory.md R96). -/
theorem State.writeLocation_mem (s : State) (v : Word) (l : Location) :
    (s.writeLocation v l).mem = s.mem ∨
      ∃ w, l = .ram w ∧ (s.writeLocation v l).mem = Memory.writeWord s.mem w.addr v := by
  cases l with
  | status => exact .inl (State.writeStatus_mem s v)
  | ram w => exact .inr ⟨w, rfl, rfl⟩
  | _ => exact .inl rfl

/-! ### What a command's body does to the frequency model, the result registers and the RAM -/

/-- A body leaves the frequency model, or it is a count of TRAIN or of HACK, which counts as TRAIN with ACC = 0 does. -/
theorem commandBody_hist {i : Instr} {s u : State} (h : commandBody s u i) :
    (u.hist = s.hist ∧ u.total = s.total) ∨
      ∃ acc text, trainBody s.cfg.histDepth 0 (s.trainStart acc).1 (s.trainStart acc).2 text = .ok (u.hist, u.total) := by
  cases i with
  | nop => cases h; exact .inl ⟨rfl, rfl⟩
  | encc => obtain ⟨_, _, rfl⟩ := h; exact .inl ⟨rfl, rfl⟩
  | decc => obtain ⟨_, _, rfl⟩ := h; exact .inl ⟨rfl, rfl⟩
  | encv c => obtain ⟨_, _, _, _, _, rfl⟩ := h; exact .inl ⟨rfl, rfl⟩
  | decv c => obtain ⟨_, _, _, _, _, rfl⟩ := h; exact .inl ⟨rfl, rfl⟩
  | train acc => obtain ⟨text, r, _, hr, rfl⟩ := h; exact .inr ⟨acc, text, hr⟩
  | search => obtain ⟨_, _, rfl⟩ := h; exact .inl ⟨rfl, rfl⟩
  | hack => obtain ⟨_, text, r, _, _, hr, rfl⟩ := h; exact .inr ⟨false, text, hr⟩

/-- A body leaves the result registers, or they are those of a search over the model and the count it ends with. -/
theorem commandBody_results {i : Instr} {s u : State} (h : commandBody s u i) :
    (u.score = s.score ∧ u.bestKey = s.bestKey ∧ u.bestScore = s.bestScore) ∨
      ∃ ref, s.refLoaded ref ∧
        u.score = (State.searchKeys { s with hist := u.hist, total := u.total } ref).score ∧
        u.bestKey = (State.searchKeys { s with hist := u.hist, total := u.total } ref).bestKey ∧
        u.bestScore = (State.searchKeys { s with hist := u.hist, total := u.total } ref).bestScore := by
  cases i with
  | nop => cases h; exact .inl ⟨rfl, rfl, rfl⟩
  | encc => obtain ⟨_, _, rfl⟩ := h; exact .inl ⟨rfl, rfl, rfl⟩
  | decc => obtain ⟨_, _, rfl⟩ := h; exact .inl ⟨rfl, rfl, rfl⟩
  | encv c => obtain ⟨_, _, _, _, _, rfl⟩ := h; exact .inl ⟨rfl, rfl, rfl⟩
  | decv c => obtain ⟨_, _, _, _, _, rfl⟩ := h; exact .inl ⟨rfl, rfl, rfl⟩
  | train acc => obtain ⟨_, _, _, _, rfl⟩ := h; exact .inl ⟨rfl, rfl, rfl⟩
  | search => obtain ⟨ref, href, rfl⟩ := h; exact .inr ⟨ref, href, rfl, rfl, rfl⟩
  | hack => obtain ⟨ref, _, _, href, _, _, rfl⟩ := h; exact .inr ⟨ref, href, rfl, rfl, rfl⟩

/-- The output of a cipher overwrites TEXT[0..LEN-1], in a state with the RAM of the one whose text is loaded. -/
theorem State.cipherText_overwrites {s v : State} (d : Direction) (ks : List Int) (cur : Nat) {text : List Word}
    (h : s.textLoaded text) (hmem : v.mem = s.mem) :
    ∃ ws : List Word, ws.length = s.len.toNat ∧ ws.length ≤ s.cfg.textDepth ∧
      (v.cipherText d ks cur text).mem = Memory.writeWords s.mem 0x40000 ws := by
  obtain ⟨hlen, hdepth, -⟩ := h
  exact ⟨(transform d ks cur text).1, by simp [hlen], by simpa using hdepth, by rw [State.cipherText_mem, hmem]⟩

/-- A body leaves the RAM, or it overwrites TEXT[0..LEN-1] (40_cipher.md R159). -/
theorem commandBody_mem {i : Instr} {s u : State} (h : commandBody s u i) :
    u.mem = s.mem ∨ ∃ ws : List Word, ws.length = s.len.toNat ∧ ws.length ≤ s.cfg.textDepth ∧
      u.mem = Memory.writeWords s.mem 0x40000 ws := by
  cases i with
  | nop => cases h; exact .inl rfl
  | encc => obtain ⟨_, ht, rfl⟩ := h; exact .inr (State.cipherText_overwrites _ _ _ ht rfl)
  | decc => obtain ⟨_, ht, rfl⟩ := h; exact .inr (State.cipherText_overwrites _ _ _ ht rfl)
  | encv c => obtain ⟨_, _, _, _, ht, rfl⟩ := h; exact .inr (State.cipherText_overwrites _ _ _ ht rfl)
  | decv c => obtain ⟨_, _, _, _, ht, rfl⟩ := h; exact .inr (State.cipherText_overwrites _ _ _ ht rfl)
  | train acc => obtain ⟨_, _, _, _, rfl⟩ := h; exact .inl rfl
  | search => obtain ⟨_, _, rfl⟩ := h; exact .inl rfl
  | hack => obtain ⟨_, _, _, _, ht, _, rfl⟩ := h; exact .inr (State.cipherText_overwrites _ _ _ ht rfl)

theorem commandBody_cfg {i : Instr} {s u : State} (h : commandBody s u i) : u.cfg = s.cfg := by
  obtain ⟨-, -, -, -, -, -, hcfg, -⟩ := commandBody_frame h
  exact hcfg

/-! ### The configuration -/

/-- Settles O55: no update writes the depths. -/
theorem configurationIsConstant : Obligations.ConfigurationIsConstant := by
  intro s t h
  refine step_keeps (P := fun t => t.cfg = s.cfg) (fun u ins rs hu => hu) (fun u hu => hu) (fun u v l a hu _ _ => ?_)
    (fun u c x hu => hu) (fun u u' i hu hb => ?_) rfl h
  · rw [State.writeLocation_cfg, hu]
  · rw [State.finish_cfg, commandBody_cfg hb, hu]

/-! ### The frequency model -/

/-- Reset leaves no entry of HIST, whatever the depths are (70_reset_and_hazards.md R341). -/
theorem State.applyReset_histCoherent (s : State) : s.applyReset.histCoherent :=
  ⟨rfl, fun _ he => absurd he List.not_mem_nil, Nat.zero_le _, List.nodup_nil⟩

theorem State.reset_histCoherent : State.reset.histCoherent := State.reset.applyReset_histCoherent

/-- The invariants of R201 speak of HIST, TOTAL and the depths alone. -/
theorem State.histCoherent_congr {s t : State} (hhist : t.hist = s.hist) (htotal : t.total = s.total)
    (hcfg : t.cfg = s.cfg) (h : s.histCoherent) : t.histCoherent := by
  rw [State.histCoherent, hhist, htotal, hcfg]
  exact h

/-- A command's body keeps the invariants of R201: a count from a coherent model ends with one. -/
theorem commandBody_histCoherent {i : Instr} {s u : State} (hs : s.histCoherent) (h : commandBody s u i) :
    u.histCoherent := by
  have hcfg := commandBody_cfg h
  rcases commandBody_hist h with ⟨hhist, htotal⟩ | ⟨acc, text, hcount⟩
  · exact State.histCoherent_congr hhist htotal hcfg hs
  · obtain ⟨⟨htotal, hpos, hnodup⟩, hlen, -⟩ :=
      trainBody_ok (State.trainStart_agrees fun _ => hs) (State.trainStart_length fun _ => hs) hcount
    exact ⟨htotal, hpos, by rwa [hcfg], hnodup⟩

/-- A bus write leaves the frequency model (10_state.md R49). -/
theorem State.writeLocation_histCoherent {s : State} (v : Word) (l : Location) (hs : s.histCoherent) :
    (s.writeLocation v l).histCoherent :=
  State.histCoherent_congr (State.writeLocation_hist s v l) (State.writeLocation_total s v l)
    (State.writeLocation_cfg s v l) hs

/-- A step keeps the invariants of R201. -/
theorem histCoherent_of_step {s t : State} (hs : s.histCoherent) (h : step s = .next t) : t.histCoherent :=
  step_keeps (P := State.histCoherent) (fun _ _ _ hu => hu) (fun u _ => u.applyReset_histCoherent)
    (fun _ v l _ hu _ _ => State.writeLocation_histCoherent v l hu) (fun _ _ _ hu => hu)
    (fun _ u _ hu hb => commandBody_histCoherent (u := u) hu hb) hs h

/-- Settles O26: reset holds no entry, and a count is the one thing that changes HIST and TOTAL besides reset. -/
theorem frequencyModelInvariant : Obligations.FrequencyModelInvariant :=
  ⟨State.reset_histCoherent, fun _ _ => histCoherent_of_step⟩

/-! ### The result registers -/

/-- With every score 0 the smallest shift is the first minimum. -/
theorem State.reset_bestCoherent : State.reset.bestCoherent :=
  ⟨0, rfl, (State.reset_score 0).symm, fun k => by rw [State.reset_score, State.reset_score],
    fun k hk => absurd hk (Fin.not_lt_zero k)⟩

/-- R233 speaks of SCORE, BEST_KEY and BEST_SCORE alone. -/
theorem State.bestCoherent_congr {s t : State} (hscore : t.score = s.score) (hkey : t.bestKey = s.bestKey)
    (hbest : t.bestScore = s.bestScore) (h : s.bestCoherent) : t.bestCoherent := by
  rw [State.bestCoherent, hscore, hkey, hbest]
  exact h

/-- A command's body keeps BEST_KEY the first minimum: a search runs over a coherent HIST, so that no score is cut. -/
theorem commandBody_bestCoherent {i : Instr} {s u : State} (hcfg : s.cfg.wellFormed = true) (hhist : s.histCoherent)
    (hs : s.bestCoherent) (h : commandBody s u i) : u.bestCoherent := by
  rcases commandBody_results h with ⟨hscore, hkey, hbest⟩ | ⟨ref, href, hscore, hkey, hbest⟩
  · exact State.bestCoherent_congr hscore hkey hbest hs
  · have hcoherent : State.histCoherent { s with hist := u.hist, total := u.total } :=
      State.histCoherent_congr (s := u) rfl rfl (commandBody_cfg h).symm (commandBody_histCoherent hhist h)
    exact State.bestCoherent_congr hscore hkey hbest
      (State.bestCoherent_of_holdsSearchOf (State.searchKeys_holds_exactScore hcfg hcoherent href))

/-- A bus write leaves the result registers (10_state.md R49). -/
theorem State.writeLocation_bestCoherent {s : State} (v : Word) (l : Location) (hs : s.bestCoherent) :
    (s.writeLocation v l).bestCoherent :=
  State.bestCoherent_congr (State.writeLocation_score s v l) (State.writeLocation_bestKey s v l)
    (State.writeLocation_bestScore s v l) hs

/-- Settles O36: legal depths, a coherent HIST and the first minimum are kept together, the first two being what a search
needs for the third. -/
theorem bestKeyStaysTheFirstMinimum : Obligations.BestKeyStaysTheFirstMinimum := by
  intro s t hcfg hhist hbest h
  have hkept : t.cfg.wellFormed = true ∧ t.histCoherent ∧ t.bestCoherent := by
    refine step_keeps (P := fun u => u.cfg.wellFormed = true ∧ u.histCoherent ∧ u.bestCoherent)
      (fun u ins rs hu => hu) (fun u ⟨hc, _, _⟩ => ⟨hc, u.applyReset_histCoherent, State.reset_bestCoherent⟩)
      (fun u v l a ⟨hc, hh, hb⟩ _ _ => ?_) (fun u c x hu => hu) (fun u u' i ⟨hc, hh, hb⟩ hbody => ?_)
      ⟨hcfg, hhist, hbest⟩ h
    · rw [State.writeLocation_cfg]
      exact ⟨hc, State.writeLocation_histCoherent v l hh, State.writeLocation_bestCoherent v l hb⟩
    · rw [State.finish_cfg, commandBody_cfg hbody]
      exact ⟨hc, commandBody_histCoherent (u := u') hh hbody, commandBody_bestCoherent (u := u') hc hh hb hbody⟩
  obtain ⟨-, -, hkept⟩ := hkept
  exact hkept

/-! ### The RAM -/

/-- The form of the RAM is kept by a write of words at an aligned address of the arrays (10_state.md R51). -/
theorem State.ramCoherent_of_writeWords {s t : State} {a : Nat} {ws : List Word} (hs : s.ramCoherent) (hcfg : t.cfg = s.cfg)
    (hmem : t.mem = Memory.writeWords s.mem a ws) (ha : a % 4 = 0)
    (hin : ∀ b, a ≤ b → b < a + 4 * ws.length → ramByte s.cfg b) : t.ramCoherent := by
  obtain ⟨hsorted, hbytes, hwhole⟩ := hs
  rw [State.ramCoherent, hcfg, hmem]
  refine ⟨Memory.wf_writeWords hsorted _ _, fun x hx => ?_, Memory.wholeWords_writeWords hwhole ha ws⟩
  rcases Memory.mem_writeWords hx with ⟨hlow, hhigh⟩ | hx
  · exact hin _ hlow hhigh
  · exact hbytes x hx

theorem State.ramCoherent_congr {s t : State} (hcfg : t.cfg = s.cfg) (hmem : t.mem = s.mem) (h : s.ramCoherent) :
    t.ramCoherent := by
  rw [State.ramCoherent, hcfg, hmem]
  exact h

theorem State.ramCoherent_of_mem_nil {s : State} (h : s.mem = []) : s.ramCoherent := by
  rw [State.ramCoherent, h]
  exact ⟨List.Pairwise.nil, fun _ hx => absurd hx List.not_mem_nil, fun _ hx => absurd hx List.not_mem_nil⟩

/-- Every byte of an aligned word lies in the array that its first byte lies in: the windows' bounds are aligned (R93). -/
theorem ramByte_of_word {c : Config} {a b : Nat} (h : ramByte c a) (ha : a % 4 = 0) (hlow : a ≤ b) (hhigh : b < a + 4) :
    ramByte c b := by
  unfold ramByte at h ⊢
  omega

/-- A bus write keeps the form of the RAM: it writes the word at its own, aligned address, or none. -/
theorem State.writeLocation_ramCoherent {s : State} (v : Word) {l : Location} {a : Nat} (hs : s.ramCoherent)
    (ha : a % 4 = 0) (hl : locate s.cfg a = some l) : (s.writeLocation v l).ramCoherent := by
  have hcfg := State.writeLocation_cfg s v l
  rcases State.writeLocation_mem s v l with hmem | ⟨w, rfl, hmem⟩
  · exact State.ramCoherent_congr hcfg hmem hs
  · obtain ⟨haddr, hbyte⟩ := locate_ram hl
    refine State.ramCoherent_of_writeWords (ws := [v]) hs hcfg hmem w.addr_mod fun b hlow hhigh => ?_
    rw [haddr ha] at hlow hhigh
    exact ramByte_of_word hbyte ha hlow hhigh

/-- A command's body keeps the form of the RAM: TEXT[0..LEN-1] lies below TEXT_DEPTH. -/
theorem commandBody_ramCoherent {i : Instr} {s u : State} (hs : s.ramCoherent) (h : commandBody s u i) : u.ramCoherent := by
  have hcfg := commandBody_cfg h
  rcases commandBody_mem h with hmem | ⟨ws, -, hdepth, hmem⟩
  · exact State.ramCoherent_congr hcfg hmem hs
  · refine State.ramCoherent_of_writeWords hs hcfg hmem rfl fun b hlow hhigh => ?_
    unfold ramByte
    omega

/-- Settles O56: reset empties the RAM, and of the other updates only a bus write and a cipher's output write it, both by
whole aligned words of the arrays. -/
theorem ramInvariant : Obligations.RamInvariant := fun _ _ hs h =>
  step_keeps (P := State.ramCoherent) (fun _ _ _ hu => hu) (fun _ _ => State.ramCoherent_of_mem_nil rfl)
    (fun _ v _ _ hu ha hl => State.writeLocation_ramCoherent v hu ha hl) (fun _ _ _ hu => hu)
    (fun _ u _ hu hb => commandBody_ramCoherent (u := u) hu hb) hs h

/-! ### The error registers -/

/-- A bus write keeps the error registers in agreement: a STATUS write clears all three of them or none (10_state.md R37). -/
theorem State.writeLocation_errorsCoherent {s : State} (v : Word) (l : Location) (hs : s.errorsCoherent) :
    (s.writeLocation v l).errorsCoherent := by
  cases l with
  | status =>
    change (s.writeStatus v).errorsCoherent
    rw [State.writeStatus_eq]
    cases v.getLsbD 2 with
    | true => exact ⟨fun _ => ⟨rfl, rfl⟩, fun h => absurd h Bool.false_ne_true⟩
    | false => exact hs
  | _ => exact hs

/-- Settles O57: an error entry records a code, a completion leaves the three registers, a STATUS write clears them
together. -/
theorem errorRegistersInvariant : Obligations.ErrorRegistersInvariant := by
  intro s t hs h
  refine step_keeps (P := State.errorsCoherent) (fun u ins rs hu => hu) (fun u _ => ?_)
    (fun u v l a hu _ _ => State.writeLocation_errorsCoherent v l hu) (fun u c x _ => ?_) (fun u u' i hu hb => ?_) hs h
  · exact ⟨fun _ => ⟨rfl, rfl⟩, fun h => absurd h Bool.false_ne_true⟩
  · exact ⟨fun h => absurd h.symm Bool.false_ne_true, fun _ => Option.some_ne_none c⟩
  · obtain ⟨-, herr, hcode, hinfo, -⟩ := commandBody_frame hb
    rw [State.errorsCoherent, State.finish_err, State.finish_errCode, State.finish_errInfo, herr, hcode, hinfo]
    exact hu

/-! ### Reset -/

/-- Settles O39: the reset step is `State.applyReset`, whose registers are those of the reset state. -/
theorem resetAbandonsTheCommand : Obligations.ResetAbandonsTheCommand := fun _ _ hin =>
  ⟨_, step_of_reset hin, rfl, rfl, rfl, rfl, fun _ => rfl, rfl⟩

/-- Settles O58: no byte is written, no error recorded, no symbol counted and every score 0. -/
theorem invariantsHoldAtReset : Obligations.InvariantsHoldAtReset :=
  ⟨State.ramCoherent_of_mem_nil rfl, ⟨fun _ => ⟨rfl, rfl⟩, fun h => absurd h Bool.false_ne_true⟩, State.reset_histCoherent,
    State.reset_bestCoherent, rfl, rfl, rfl⟩

/-! ### What a step answers -/

/-- A turn of the engine ends the command in flight (R300), or faults on a word that was not written since reset. -/
theorem State.engineTurn_ends {s : State} (hbusy : s.busy = true) :
    (∃ t, s.engineTurn = .next t ∧ t.busy = false ∧ (t.done = true ∨ t.err = true)) ∨
      ∃ w, s.engineTurn = .fault (.unwrittenRead w) ∧ s.ram w = none := by
  obtain ⟨w, hp⟩ := Option.isSome_iff_exists.1 hbusy
  cases h : s.engineTurn with
  | next t =>
    obtain ⟨hidle, ⟨hdone, -⟩ | ⟨code, info, rfl⟩⟩ := State.engineTurn_busy_eq_next hp h
    · exact .inl ⟨t, rfl, hidle, .inl hdone⟩
    · exact .inl ⟨_, rfl, rfl, .inr rfl⟩
  | fault f =>
    obtain ⟨w, rfl, hw⟩ := State.engineTurn_eq_fault h
    exact .inr ⟨w, rfl, hw⟩
  | refused q => exact absurd h (s.engineTurn_ne_refused q)

/-- Settles O53: with no input left, or the engine's turn next, the step is the engine's turn. -/
theorem engineTurnEndsTheCommand : Obligations.EngineTurnEndsTheCommand := by
  rintro s hbusy (hin | ⟨rest, hin⟩)
  · rw [step_of_nil hin]
    exact State.engineTurn_ends hbusy
  · rw [step_of_engine hin]
    exact State.engineTurn_ends (s := { s with inputs := rest }) hbusy

theorem State.hostRead_ne_refused (s : State) (bytes : Nat) (a : BusAddr) (q : Refusal) : s.hostRead bytes a ≠ .refused q := by
  unfold State.hostRead
  cases s.busRead bytes a <;> simp

theorem State.hostWrite_ne_refused (s : State) (bytes : Nat) (a : BusAddr) (v : Word) (q : Refusal) :
    s.hostWrite bytes a v ≠ .refused q := by
  unfold State.hostWrite
  cases s.busWrite bytes a v <;> simp

theorem State.engineTurn_ne_busError (s : State) (why : BusError) : s.engineTurn ≠ .fault (.busError why) := by
  intro h
  obtain ⟨w, hw, -⟩ := State.engineTurn_eq_fault h
  cases hw

/-- Settles O54: the engine and the bus never refuse, and the engine faults only on a word not written since reset. -/
theorem stepsNeverRefuse : Obligations.StepsNeverRefuse := by
  intro s
  cases hin : s.inputs with
  | nil =>
    rw [step_of_nil hin]
    exact ⟨s.engineTurn_ne_refused, fun why h => absurd h (s.engineTurn_ne_busError why)⟩
  | cons i rest =>
    cases i with
    | engine =>
      rw [step_of_engine hin]
      exact ⟨State.engineTurn_ne_refused _, fun why h => absurd h (State.engineTurn_ne_busError _ why)⟩
    | reset =>
      rw [step_of_reset hin]
      exact ⟨fun q h => (nomatch h), fun why h => (nomatch h)⟩
    | read bytes a =>
      rw [step_of_read hin]
      exact ⟨State.hostRead_ne_refused _ bytes a, fun _ _ => ⟨rest, .inl ⟨bytes, a, rfl⟩⟩⟩
    | write bytes a v =>
      rw [step_of_write hin]
      exact ⟨State.hostWrite_ne_refused _ bytes a v, fun _ _ => ⟨rest, .inr ⟨bytes, a, v, rfl⟩⟩⟩

end Sys2Proof.Machine
end

section
/-! SUPPORT. The four cipher commands with their operands loaded, the frame they keep, and a text ciphered in two pieces
(40_cipher.md R156 to R167). -/

namespace Sys2Proof.Machine

/-! ### Caesar -/

/-- The symbols a Caesar command writes: each through the cipher with the signed key (R158, R162, R163). -/
theorem State.cipherText_caesar_ram (s : State) (d : Direction) (k : Int) {text : List Word} {i : Nat}
    (h : i < text.length) : (s.cipherText d [k] 0 text).ram (.text i) = some (ciphered (d.delta k) text[i]) := by
  rw [State.cipherText_ram_text s d [k] 0 text h]
  simp only [transform_caesar, List.getElem_map]

/-- A Caesar command with its text loaded completes, ciphers every symbol with CKEY and leaves the cursor at 0. -/
theorem exists_caesar_loaded {s : State} {text : List Word} (h : s.textLoaded text) (d : Direction) :
    ∃ t, s.caesar d = .next t ∧ t.done = true ∧ t.busy = false ∧ t.err = s.err ∧ t.kcur = 0 ∧
      ∀ i (h : i < text.length), t.ram (.text i) = some (ciphered (d.delta s.ckey.toInt) text[i]) := by
  refine ⟨_, State.caesar_of_loaded h d, rfl, rfl, rfl, ?_, fun i hi => ?_⟩
  · rw [State.finish_kcur, State.cipherText_kcur, transform_caesar]
    rfl
  · rw [State.finish_ram, State.cipherText_caesar_ram s d _ hi, signed32_eq_toInt]

/-- Settles O10: ENCC is the Caesar command whose delta is the key. -/
theorem caesarEncodeShiftsEveryLetter : Obligations.CaesarEncodeShiftsEveryLetter := fun _ _ h =>
  exists_caesar_loaded h .encode

/-- Settles O11: DECC is the Caesar command whose delta is the negated key. -/
theorem caesarDecodeShiftsEveryLetterBack : Obligations.CaesarDecodeShiftsEveryLetterBack := fun _ _ h =>
  exists_caesar_loaded h .decode

/-! ### Vigenère -/

/-- The key schedule of a Vigenère command (R155, R156): the sub-keys of the key's letters. -/
def subkeys (key : List Word) : List Int := key.map fun c => (subkey c : Int)

@[simp] theorem length_subkeys (key : List Word) : (subkeys key).length = key.length := List.length_map ..

/-- The key value at a cursor is the sub-key of the letter there, by its alphabet index (R155). -/
theorem keyValue_subkeys {key : List Word} {p j : Nat} (hp : p < key.length) (hj : alphaIndex key[p] = some j) :
    keyValue (subkeys key) p = if j < 26 then (j : Int) else (j : Int) - 26 := by
  rw [keyValue, List.getD_eq_getElem _ _ (by simpa using hp)]
  simp only [subkeys, List.getElem_map, subkey_eq hj]

/-- A Vigenère command with its operands loaded completes the transform under the key's schedule. -/
theorem State.vigenere_of_subkeys {s : State} {key text : List Word} {cont : Bool} (hkey : s.keyLoaded key)
    (hcur : s.cursorLegal cont) (htext : s.textLoaded text) (d : Direction) :
    s.vigenere d cont = .next (s.cipherText d (subkeys key) (s.startCursor cont) text).finish :=
  State.vigenere_of_loaded hkey hcur htext d

/-- A loaded key has at most 1024 letters, so that every cursor into it fits KCUR (10_state.md R43). -/
theorem State.keyLoaded_length_le {s : State} {key : List Word} (hcfg : s.cfg.wellFormed = true) (h : s.keyLoaded key) :
    key.length ≤ 1024 := by
  obtain ⟨-, -, hdepth, -⟩ := h
  obtain ⟨-, ⟨-, hlegal⟩, -⟩ := Config.wellFormed_iff.1 hcfg
  exact hdepth.trans hlegal

/-- The final cursor of a Vigenère transform (R160): the starting one plus the letters, modulo the key length. -/
theorem transform_subkeys_cursor (d : Direction) {key : List Word} {cur : Nat} (text : List Word) (hcur : cur < key.length) :
    (transform d (subkeys key) cur text).2 = (cur + letterCount text) % key.length := by
  rw [transform_cursor text (by simpa using hcur), length_subkeys]

/-- The final cursor lies below the key length again. -/
theorem transform_subkeys_cursor_lt (d : Direction) {key : List Word} {cur : Nat} (text : List Word)
    (hcur : cur < key.length) : (transform d (subkeys key) cur text).2 < key.length := by
  rw [transform_subkeys_cursor d text hcur]
  exact Nat.mod_lt _ (Nat.zero_lt_of_lt hcur)

/-- KCUR takes the final cursor of a Vigenère command whole. -/
theorem State.toNat_cipherText_kcur (s : State) (d : Direction) {key : List Word} {cur : Nat} (text : List Word)
    (hcur : cur < key.length) (hkey : key.length ≤ 1024) :
    (s.cipherText d (subkeys key) cur text).kcur.toNat = (transform d (subkeys key) cur text).2 := by
  have hlt := transform_subkeys_cursor_lt d text hcur
  rw [State.cipherText_kcur, BitVec.toNat_ofNat, Nat.mod_eq_of_lt (by omega)]

/-- The symbol a Vigenère command writes at a position: through the cipher with the sub-key at the cursor there (R158). -/
theorem State.cipherText_vigenere_ram (s : State) (d : Direction) {key text : List Word} {cur i : Nat}
    (hcur : cur < key.length) (hi : i < text.length) :
    (s.cipherText d (subkeys key) cur text).ram (.text i) =
      some (ciphered (d.delta (keyValue (subkeys key) ((cur + letterCount (text.take i)) % key.length))) text[i]) := by
  rw [State.cipherText_ram_text _ _ _ _ _ hi, transform_getElem text (by simpa using hcur) i hi, length_subkeys]

/-- A Vigenère command with its operands loaded completes: the letter at position i goes through the cipher with the sub-key
at the starting cursor plus the letters before i, and KCUR moves past all letters. -/
theorem exists_vigenere_loaded {s : State} {cont : Bool} {key text : List Word} (hcfg : s.cfg.wellFormed = true)
    (hkey : s.keyLoaded key) (hlegal : s.cursorLegal cont) (htext : s.textLoaded text) (d : Direction) :
    ∃ t, s.vigenere d cont = .next t ∧ t.done = true ∧ t.busy = false ∧ t.err = s.err ∧
      t.kcur.toNat = (s.startCursor cont + letterCount text) % key.length ∧
      ∀ i (h : i < text.length), ∃ (p j : Nat) (hp : p < key.length),
        p = (s.startCursor cont + letterCount (text.take i)) % key.length ∧ alphaIndex key[p] = some j ∧
        t.ram (.text i) = some (ciphered (d.delta (if j < 26 then (j : Int) else j - 26)) text[i]) := by
  have hcur := State.startCursor_lt hkey hlegal
  have hkcur := State.toNat_cipherText_kcur s d text hcur (State.keyLoaded_length_le hcfg hkey)
  rw [transform_subkeys_cursor d text hcur] at hkcur
  refine ⟨_, State.vigenere_of_subkeys hkey hlegal htext d, rfl, rfl, rfl, hkcur, fun i hi => ?_⟩
  obtain ⟨-, -, -, hletters⟩ := hkey
  have hp := Nat.mod_lt (s.startCursor cont + letterCount (text.take i)) (Nat.zero_lt_of_lt hcur)
  obtain ⟨-, hletter⟩ := hletters _ hp
  obtain ⟨j, hj⟩ := alphaIndex_isSome_iff.1 hletter
  refine ⟨_, j, hp, rfl, hj, ?_⟩
  rw [← keyValue_subkeys hp hj]
  exact State.cipherText_vigenere_ram s d hcur hi

/-- Settles O12: ENCV is the Vigenère command whose delta is the sub-key. -/
theorem vigenereEncodeUsesTheKeyAtTheCursor : Obligations.VigenereEncodeUsesTheKeyAtTheCursor :=
  fun _ _ _ _ hcfg hkey hcur htext => exists_vigenere_loaded hcfg hkey hcur htext .encode

/-- Settles O13: DECV is the Vigenère command whose delta is the negated sub-key. -/
theorem vigenereDecodeUsesTheKeyAtTheCursor : Obligations.VigenereDecodeUsesTheKeyAtTheCursor :=
  fun _ _ _ _ hcfg hkey hcur htext => exists_vigenere_loaded hcfg hkey hcur htext .decode

/-! ### The frame -/

/-- The body of a cipher command is a transform of the loaded text. -/
theorem commandBody_cipher {i : Instr} {s u : State}
    (hi : i ∈ ([.encc, .decc, .encv false, .encv true, .decv false, .decv true] : List Instr)) (h : commandBody s u i) :
    ∃ d ks cur text, s.textLoaded text ∧ u = s.cipherText d ks cur text := by
  cases i with
  | encc => obtain ⟨text, htext, rfl⟩ := h; exact ⟨_, _, _, text, htext, rfl⟩
  | decc => obtain ⟨text, htext, rfl⟩ := h; exact ⟨_, _, _, text, htext, rfl⟩
  | encv c => obtain ⟨_, text, _, _, htext, rfl⟩ := h; exact ⟨_, _, _, text, htext, rfl⟩
  | decv c => obtain ⟨_, text, _, _, htext, rfl⟩ := h; exact ⟨_, _, _, text, htext, rfl⟩
  | nop => simp at hi
  | train acc => simp at hi
  | search => simp at hi
  | hack => simp at hi

/-- A body leaves every byte outside TEXT[0..LEN-1] (R159; 30_encoding.md R134). -/
theorem commandBody_readByte {i : Instr} {s u : State} (h : commandBody s u i) {a : Nat}
    (ha : a < (RamWord.text 0).addr ∨ (RamWord.text s.len.toNat).addr ≤ a) :
    Memory.readByte u.mem a = Memory.readByte s.mem a := by
  rcases commandBody_mem h with hmem | ⟨ws, hlen, -, hmem⟩
  · rw [hmem]
  · rw [hmem]
    refine Memory.readByte_writeWords_outside _ _ _ _ ?_
    rw [hlen]
    exact ha

/-- Settles O14: an error entry leaves TEXT, KCUR and DONE; a completed cipher writes TEXT[0..LEN-1] and KCUR and sets
DONE. -/
theorem cipherCommandsChangeOnlyTextAndCursor : Obligations.CipherCommandsChangeOnlyTextAndCursor := by
  intro i s t hi h
  rcases exec_eq_next h with ⟨code, info, rfl⟩ | ⟨u, rfl, hbody⟩
  · exact ⟨rfl, fun _ _ => rfl, .inr ⟨rfl, rfl, rfl, rfl⟩⟩
  · refine ⟨?_, fun a => commandBody_readByte hbody, .inl ?_⟩
    · obtain ⟨d, ks, cur, text, -, rfl⟩ := commandBody_cipher hi hbody
      rfl
    · obtain ⟨-, herr, hcode, hinfo, -⟩ := commandBody_frame hbody
      exact ⟨rfl, herr, hcode, hinfo⟩

/-! ### A text in two pieces -/

/-- ENCV and DECV are the two directions of one command. -/
theorem exists_vigenere_direction {cmd : Bool → Instr} (h : cmd = .encv ∨ cmd = .decv) :
    ∃ d, ∀ (cont : Bool) (s : State), exec (cmd cont) s = s.vigenere d cont := by
  rcases h with rfl | rfl
  · exact ⟨.encode, fun _ _ => rfl⟩
  · exact ⟨.decode, fun _ _ => rfl⟩

/-- A symbol of the first piece in the output over the whole text (R167). -/
theorem transform_append_getElem_left (d : Direction) (ks : List Int) (cur : Nat) {as : List Word} (bs : List Word)
    {i : Nat} (hi : i < as.length) :
    (transform d ks cur (as ++ bs)).1[i]? = (transform d ks cur as).1[i]? := by
  rw [transform_append]
  exact List.getElem?_append_left (by simpa using hi)

/-- A symbol of the second piece in the output over the whole text: that of the piece run from the first one's final cursor
(R167). -/
theorem transform_append_getElem_right (d : Direction) (ks : List Int) (cur : Nat) (as bs : List Word) (i : Nat) :
    (transform d ks cur (as ++ bs)).1[as.length + i]? =
      (transform d ks (transform d ks cur as).2 bs).1[i]? := by
  rw [transform_append, List.getElem?_append_right (by simp)]
  simp

/-- What TEXT holds after a cipher, by the output's own indices. -/
theorem State.cipherText_ram_getElem? (s : State) (d : Direction) (ks : List Int) (cur : Nat) {cs : List Word} {i : Nat}
    (h : i < cs.length) : (s.cipherText d ks cur cs).ram (.text i) = (transform d ks cur cs).1[i]? := by
  rw [State.cipherText_ram_text _ _ _ _ _ h, List.getElem?_eq_getElem]

/-- The first piece over TEXT is what the cipher of the whole text starts with. -/
theorem State.cipherText_append_ram_left (s t : State) (d : Direction) (ks : List Int) (cur : Nat) {as : List Word}
    (bs : List Word) {i : Nat} (hi : i < as.length) :
    (s.cipherText d ks cur (as ++ bs)).ram (.text i) = (t.cipherText d ks cur as).ram (.text i) := by
  rw [State.cipherText_ram_getElem? _ _ _ _ (by rw [List.length_append]; omega),
    State.cipherText_ram_getElem? _ _ _ _ hi, transform_append_getElem_left _ _ _ _ hi]

/-- The second piece, run from the first one's final cursor, is what the cipher of the whole text ends with. -/
theorem State.cipherText_append_ram_right (s t : State) (d : Direction) (ks : List Int) (cur : Nat) (as : List Word)
    {bs : List Word} {i : Nat} (hi : i < bs.length) :
    (s.cipherText d ks cur (as ++ bs)).ram (.text (as.length + i)) =
      (t.cipherText d ks (transform d ks cur as).2 bs).ram (.text i) := by
  rw [State.cipherText_ram_getElem? _ _ _ _ (by rw [List.length_append]; omega),
    State.cipherText_ram_getElem? _ _ _ _ hi, transform_append_getElem_right]

/-- With CONT = 1 a command starts where KCUR stands (R157). -/
theorem State.startCursor_true (s : State) : s.startCursor true = s.kcur.toNat := rfl

/-- Settles O16: the cursor that the first piece leaves fits KCUR and lies below the key length, so that the second piece
goes on where the transform of the whole text does. -/
theorem continuedPiecesEqualOneCommand : Obligations.ContinuedPiecesEqualOneCommand := by
  intro cmd cont s₁ s₂ s₃ t₁ key as bs hcmd hcfg _ _ hkey₁ hkey₂ hkey₃ htext₁ htext₂ htext₃ hcur₁ hkcur₃ h₁ hkcur₂
  obtain ⟨d, hd⟩ := exists_vigenere_direction hcmd
  simp only [hd] at h₁ ⊢
  obtain rfl : _ = t₁ := by simpa using (State.vigenere_of_subkeys hkey₁ hcur₁ htext₁ d).symm.trans h₁
  have ⟨hlen₁, _⟩ := hkey₁
  have ⟨hlen₂, _⟩ := hkey₂
  have ⟨hlen₃, _⟩ := hkey₃
  have hlt := State.startCursor_lt hkey₁ hcur₁
  have hstart₃ : s₃.startCursor cont = s₁.startCursor cont := by rw [State.startCursor, State.startCursor, hkcur₃]
  have hcur₃ : s₃.cursorLegal cont := by rwa [State.cursorLegal, hkcur₃, hlen₃, ← hlen₁]
  have hstart₂ : s₂.startCursor true = (transform d (subkeys key) (s₁.startCursor cont) as).2 := by
    rw [State.startCursor_true, hkcur₂]
    exact State.toNat_cipherText_kcur s₁ d as hlt (State.keyLoaded_length_le hcfg hkey₁)
  have hcur₂ : s₂.cursorLegal true := fun _ => by
    rw [← State.startCursor_true, hstart₂, hlen₂]
    exact transform_subkeys_cursor_lt d as hlt
  refine ⟨_, _, State.vigenere_of_subkeys hkey₂ hcur₂ htext₂ d, State.vigenere_of_subkeys hkey₃ hcur₃ htext₃ d, rfl, rfl,
    ?_, fun i hi => ?_, fun i hi => ?_⟩
  · rw [State.finish_kcur, State.finish_kcur, State.cipherText_kcur, State.cipherText_kcur, transform_append, hstart₃,
      hstart₂]
  · rw [hstart₃]
    exact State.cipherText_append_ram_left s₃ s₁ d _ _ bs hi
  · rw [hstart₃, hstart₂]
    exact State.cipherText_append_ram_right s₃ s₂ d _ _ as hi

end Sys2Proof.Machine
end

section
/-! SUPPORT. Where a command stops: the first failing check of its key, of its reference model, of its text and of its count,
and the first word that it reads unwritten (60_exceptions.md R303; 93_implementation_defined.md U1). -/

namespace Sys2Proof.Machine

/-! ### A check that stops a command stops the whole command -/

/-- A Vigenère command stops where its key checks stop. -/
theorem exec_of_keyOperand_error {s : State} {cont : Bool} {i : Instr} {e : Stop} (hi : i = .encv cont ∨ i = .decv cont)
    (h : s.keyOperand cont = .error e) : exec i s = s.complete (.error e) := by
  have hv (d : Direction) : s.vigenere d cont = s.complete (.error e) := by rw [State.vigenere, h]; rfl
  rcases hi with rfl | rfl
  · exact hv .encode
  · exact hv .decode

/-- SEARCH and HACK stop where their model checks stop. -/
theorem exec_of_refOperand_error {s : State} {i : Instr} {e : Stop} (hi : i = .search ∨ i = .hack)
    (h : s.refOperand = .error e) : exec i s = s.complete (.error e) := by
  rcases hi with rfl | rfl
  · change execSearch s = _
    rw [execSearch, h]; rfl
  · change execHack s = _
    rw [execHack, h]; rfl

/-- A command whose key or model checks pass stops where its text checks stop. -/
theorem exec_of_textOperand_error {s : State} {i : Instr} {e : Stop} (hi : s.reachesTextCheck i)
    (h : s.textOperand = .error e) : exec i s = s.complete (.error e) := by
  have hcaesar (d : Direction) : s.caesar d = s.complete (.error e) := by rw [State.caesar, h]; rfl
  have hvigenere (d : Direction) {cont : Bool} (hr : s.cursorLegal cont ∧ ∃ key, s.keyLoaded key) :
      s.vigenere d cont = s.complete (.error e) := by
    obtain ⟨hcur, key, hkey⟩ := hr
    rw [State.vigenere, State.keyOperand_eq_ok_iff.2 ⟨hkey, hcur⟩, Except.okBind, h]; rfl
  cases i with
  | nop => exact hi.elim
  | encc => exact hcaesar .encode
  | decc => exact hcaesar .decode
  | encv cont => exact hvigenere .encode hi
  | decv cont => exact hvigenere .decode hi
  | train acc =>
    change execTrain acc s = _
    rw [execTrain, h]; rfl
  | search => exact hi.elim
  | hack =>
    obtain ⟨ref, href⟩ := hi
    change execHack s = _
    rw [execHack, State.refOperand_eq_ok_iff.2 href, Except.okBind, h]; rfl

/-- TRAIN stops where its count stops. -/
theorem exec_train_of_trainBody_error {s : State} {acc : Bool} {text : List Word} {e : Stop} (htext : s.textLoaded text)
    (h : trainBody s.cfg.histDepth 0 (s.trainStart acc).1 (s.trainStart acc).2 text = .error e) :
    exec (.train acc) s = s.complete (.error e) := by
  change execTrain acc s = _
  rw [execTrain, State.textOperand_eq_ok_iff.2 htext, Except.okBind, h]; rfl

/-- HACK stops where its count stops. -/
theorem exec_hack_of_trainBody_error {s : State} {ref : List RefEntry} {text : List Word} {e : Stop}
    (href : s.refLoaded ref) (htext : s.textLoaded text) (h : trainBody s.cfg.histDepth 0 [] 0 text = .error e) :
    exec .hack s = s.complete (.error e) := by
  change execHack s = _
  rw [execHack, State.refOperand_eq_ok_iff.2 href, Except.okBind, State.textOperand_eq_ok_iff.2 htext, Except.okBind, h]; rfl

/-! ### Where the model checks stop -/

/-- REF_LEN above the depth (code 0x20). -/
theorem State.refOperand_range {s : State} (h : s.cfg.refDepth < s.refLen.toNat) :
    s.refOperand = .error (.error .modelLenRange (s.refLen.setWidth 32)) := by
  rw [State.refOperand, if_pos h]

section
variable {s : State} {es : List RefEntry} {sym freq : Word} (hd : s.refLen.toNat ≤ s.cfg.refDepth)
  (hk : es.length < s.refLen.toNat) (hp : s.refPrefix es)
include hd hk hp

/-- The model checks stop at a SYM not written since reset. -/
theorem State.refOperand_unwrittenSym (h : s.ram (.refSym es.length) = none) :
    s.refOperand = .error (.unwritten (.refSym es.length)) :=
  State.refOperand_after hd hk hp fun m => by
    rw [State.scanRef, State.ramOperand_of_none h, Except.errorBind]

/-- The model checks stop at an illegal symbol (code 0x21). -/
theorem State.refOperand_symbol (h : s.ram (.refSym es.length) = some sym) (hs : 0x10FFFF < sym.toNat) :
    s.refOperand = .error (.error .modelSymbol (BitVec.ofNat 32 es.length)) :=
  State.refOperand_after hd hk hp fun m => by
    rw [State.scanRef, State.ramOperand_of_some h, Except.okBind, if_pos (maxSymbol_lt_iff.2 hs)]

/-- After a legal symbol the model checks stop at a FREQ not written since reset. -/
theorem State.refOperand_unwrittenFreq (h : s.ram (.refSym es.length) = some sym) (hs : sym.toNat ≤ 0x10FFFF)
    (hf : s.ram (.refFreq es.length) = none) : s.refOperand = .error (.unwritten (.refFreq es.length)) :=
  State.refOperand_after hd hk hp fun m => by
    rw [State.scanRef, State.ramOperand_of_some h, Except.okBind, if_neg (by rw [maxSymbol_lt_iff]; omega),
      State.ramOperand_of_none hf, Except.errorBind]

/-- After a legal symbol the model checks stop at an illegal frequency (code 0x22). -/
theorem State.refOperand_freq (h : s.ram (.refSym es.length) = some sym) (hs : sym.toNat ≤ 0x10FFFF)
    (hf : s.ram (.refFreq es.length) = some freq) (hl : 2 ^ 31 < freq.toNat) :
    s.refOperand = .error (.error .modelFreq (BitVec.ofNat 32 es.length)) :=
  State.refOperand_after hd hk hp fun m => by
    rw [State.scanRef, State.ramOperand_of_some h, Except.okBind, if_neg (by rw [maxSymbol_lt_iff]; omega),
      State.ramOperand_of_some hf, Except.okBind, if_pos (maxFreq_lt_iff.2 hl)]

/-- After a legal symbol and frequency the model checks stop at a symbol of an earlier entry (code 0x23). -/
theorem State.refOperand_duplicate (h : s.ram (.refSym es.length) = some sym) (hs : sym.toNat ≤ 0x10FFFF)
    (hf : s.ram (.refFreq es.length) = some freq) (hl : freq.toNat ≤ 2 ^ 31) (hm : sym ∈ es.map RefEntry.sym) :
    s.refOperand = .error (.error .modelDuplicate (BitVec.ofNat 32 es.length)) :=
  State.refOperand_after hd hk hp fun m => by
    rw [State.scanRef, State.ramOperand_of_some h, Except.okBind, if_neg (by rw [maxSymbol_lt_iff]; omega),
      State.ramOperand_of_some hf, Except.okBind, if_neg (by rw [maxFreq_lt_iff]; omega), if_pos (by simpa using hm)]

end

/-! ### The errors of R303 -/

/-- Settles O18: each clause is a stop of the key checks. -/
theorem vigenereKeyErrors : Obligations.VigenereKeyErrors := by
  intro s cont i hi
  refine ⟨fun h => exec_of_keyOperand_error hi (State.keyOperand_empty cont h),
    fun h0 h => exec_of_keyOperand_error hi (State.keyOperand_range cont h0 h),
    fun j c hd hj hbefore hc hn => exec_of_keyOperand_error hi (State.keyOperand_symbol cont hd hj hbefore hc hn),
    fun key hkey hcont hcur => ?_⟩
  subst hcont
  exact exec_of_keyOperand_error hi (State.keyOperand_cursor hkey hcur)

/-- Settles O19: each clause is a stop of the model checks. -/
theorem referenceModelErrors : Obligations.ReferenceModelErrors := by
  intro s i hi
  refine ⟨fun h => exec_of_refOperand_error hi (State.refOperand_range h), fun es sym hd hk hp hsym =>
    ⟨fun hs => exec_of_refOperand_error hi (State.refOperand_symbol hd hk hp hsym hs), fun freq hs hfreq =>
      ⟨fun hl => exec_of_refOperand_error hi (State.refOperand_freq hd hk hp hsym hs hfreq hl), fun hl hm => ?_⟩⟩⟩
  exact exec_of_refOperand_error hi (State.refOperand_duplicate hd hk hp hsym hs hfreq hl hm)

/-- Settles O20: each clause is a stop of the text checks. -/
theorem textErrors : Obligations.TextErrors := fun _ _ hi =>
  ⟨fun h => exec_of_textOperand_error hi (State.textOperand_range h), fun _ _ hl hk hbefore hc hm =>
    exec_of_textOperand_error hi (State.textOperand_illegal hl hk hbefore hc hm)⟩

/-- A text cut at one of its symbols. -/
theorem eq_take_append_cons_drop {text : List Word} {i : Nat} (h : i < text.length) :
    text = text.take i ++ text[i] :: text.drop (i + 1) := by
  rw [List.cons_getElem_drop_succ, List.take_append_drop]

/-- A count stops at the first new symbol with the histogram full (code 0x40). -/
theorem trainBody_capacityHist_at {depth : Nat} {h : List HistEntry} {t : Word} {text : List Word} {i : Nat}
    (hi : i < text.length) (ha : modelAgrees h t) (hd : h.length ≤ depth)
    (hf : distinct (h.map HistEntry.sym ++ text.take i) = depth) (hc : text[i] ∉ h.map HistEntry.sym ++ text.take i)
    (ht : t.toNat + i ≤ 2 ^ 32 - 1) :
    trainBody depth 0 h t text = .error (.error .capacityHist (BitVec.ofNat 32 i)) := by
  have hlen : (text.take i).length = i := List.length_take_of_le (Nat.le_of_lt hi)
  have hstop := trainBody_capacityHist (i := 0) (bs := text.drop (i + 1)) ha hd hf hc (by rwa [hlen])
  rwa [← eq_take_append_cons_drop hi, hlen, Nat.zero_add] at hstop

/-- A count stops at the first symbol with the total at its limit (code 0x41). -/
theorem trainBody_capacityTotal_at {depth : Nat} {h : List HistEntry} {t : Word} {text : List Word} {i : Nat}
    (hi : i < text.length) (ha : modelAgrees h t) (hd : h.length ≤ depth)
    (hf : distinct (h.map HistEntry.sym ++ text.take (i + 1)) ≤ depth) (ht : t.toNat + i = 2 ^ 32 - 1) :
    trainBody depth 0 h t text = .error (.error .capacityTotal (BitVec.ofNat 32 i)) := by
  have hlen : (text.take i).length = i := List.length_take_of_le (Nat.le_of_lt hi)
  rw [← List.take_concat_get' text i hi] at hf
  have hstop := trainBody_capacityTotal (i := 0) (bs := text.drop (i + 1)) ha hd hf (by rwa [hlen])
  rwa [← eq_take_append_cons_drop hi, hlen, Nat.zero_add] at hstop

/-- LEN has 17 bits (10_state.md R41). -/
theorem State.textLoaded_length_lt {s : State} {text : List Word} (h : s.textLoaded text) : text.length < 2 ^ 17 := by
  obtain ⟨hlen, -⟩ := h
  rw [← hlen]
  exact s.len.isLt

/-- Settles O21: each clause is a stop of the count, which HACK starts from the empty model. -/
theorem capacityErrors : Obligations.CapacityErrors := by
  refine ⟨fun s acc text i hi hcoherent htext => ?_, fun s ref text i hi href htext hfull hnew => ?_⟩
  · have ha := State.trainStart_agrees hcoherent
    have hd := State.trainStart_length hcoherent
    rw [← State.trainStart_syms, ← State.trainStart_total]
    exact ⟨fun hfull hnew ht => exec_train_of_trainBody_error htext (trainBody_capacityHist_at hi ha hd hfull hnew ht),
      fun hfits ht => exec_train_of_trainBody_error htext (trainBody_capacityTotal_at hi ha hd hfits ht)⟩
  · have htotal : (0 : Word).toNat + i ≤ 2 ^ 32 - 1 := by
      have hlt := State.textLoaded_length_lt htext
      change 0 + i ≤ _
      omega
    exact exec_hack_of_trainBody_error href htext
      (trainBody_capacityHist_at hi modelAgrees_empty (Nat.zero_le _) hfull hnew htotal)

/-! ### Words not written since reset -/

/-- The step of a read that gets an OKAY response: it records the value (20_memory.md R95). -/
theorem step_of_read_ok {s : State} {bytes : Nat} {a : BusAddr} {v : Word} {rest : List Input}
    (h : s.inputs = .read bytes a :: rest) (hr : s.busRead bytes a = .ok v) :
    step s = .next { s with inputs := rest, responses := .readOkay v :: s.responses } := by
  rw [step_of_read h, State.hostRead, State.busRead_withInputs, hr]

/-- The step of a read that faults (20_memory.md R100; U1). -/
theorem step_of_read_error {s : State} {bytes : Nat} {a : BusAddr} {rest : List Input} {f : Fault}
    (h : s.inputs = .read bytes a :: rest) (hr : s.busRead bytes a = .error f) : step s = .fault f := by
  rw [step_of_read h, State.hostRead, State.busRead_withInputs, hr]

/-- A host read of a RAM word not written since reset faults on it (U1). -/
theorem State.busRead_unwritten {s : State} {a : BusAddr} (hcfg : s.cfg.wellFormed = true) (hidle : s.busy = false)
    (ha : a.toNat % 4 = 0) (hr : ramByte s.cfg a.toNat) (hn : Memory.readWord s.mem a.toNat = none) :
    ∃ w : RamWord, w.addr = a.toNat ∧ s.busRead 4 a = .error (.unwrittenRead w) := by
  obtain ⟨w, hl, hw⟩ := locate_of_ramByte hcfg ha hr
  have hnone : s.ram w = none := by rw [State.ram, hw, hn]
  exact ⟨w, hw, by rw [State.busRead_ok ha hl (by simp [hidle]), State.readLocation, hnone]⟩

/-- Settles O22: each clause of the commands is a stop of the scan that reads the word. -/
theorem unwrittenReadsFault : Obligations.UnwrittenReadsFault := by
  refine ⟨fun s i k hi hl hk hbefore hn => exec_of_textOperand_error hi (State.textOperand_unwritten hl hk hbefore hn),
    fun s cont i k hi hd hk hbefore hn => exec_of_keyOperand_error hi (State.keyOperand_unwritten cont hd hk hbefore hn),
    fun s i es hi hd hk hp hn => exec_of_refOperand_error hi (State.refOperand_unwrittenSym hd hk hp hn),
    fun s i es sym hi hd hk hp hsym hs hn =>
      exec_of_refOperand_error hi (State.refOperand_unwrittenFreq hd hk hp hsym hs hn),
    fun s a rest hcfg hidle ha hr hn hin => ?_⟩
  obtain ⟨w, hw, hread⟩ := State.busRead_unwritten hcfg hidle ha hr hn
  exact ⟨w, hw, step_of_read_error hin hread⟩

end Sys2Proof.Machine
end

section
/-! SUPPORT. TRAIN: the counts it completes with, a text counted in two pieces, the readout of a frequency, and the frames of
TRAIN, SEARCH and HACK (41_train.md R200 to R204; 42_keysearch.md R236, R240). -/

namespace Sys2Proof.Machine

/-! ### The counts -/

/-- The symbols in order of first occurrence, after the ones a TRAIN starts with (R200). -/
theorem foldl_addNew_eq_firstOccurrences {seen : List Word} (h : seen.Nodup) (cs : List Word) :
    cs.foldl addNew seen = firstOccurrences (seen ++ cs) := by
  rw [firstOccurrences_append, firstOccurrences_of_nodup h]

/-- What a count that succeeds holds, in R200's terms. -/
theorem trainBody_counts {depth i : Nat} {h : List HistEntry} {t : Word} {cs : List Word} {r : List HistEntry × Word}
    (ha : modelAgrees h t) (hd : h.length ≤ depth) (hr : trainBody depth i h t cs = .ok r) :
    r.2.toNat = t.toNat + cs.length ∧ r.1.map HistEntry.sym = firstOccurrences (h.map HistEntry.sym ++ cs) ∧
      (∀ c, histCount r.1 c = histCount h c + cs.count c) ∧ r.1.length = distinct (h.map HistEntry.sym ++ cs) := by
  obtain ⟨-, -, htotal, hsyms, hcount⟩ := trainBody_ok ha hd hr
  have hlen := trainBody_ok_length ha hd hr
  obtain ⟨-, -, hnodup⟩ := ha
  rw [foldl_addNew_eq_firstOccurrences hnodup] at hsyms
  exact ⟨htotal, hsyms, hcount, hlen⟩

/-- Settles O23: within its capacities the count succeeds, and TRAIN leaves what it counted. -/
theorem trainCountsEverySymbol : Obligations.TrainCountsEverySymbol := by
  intro s acc text hcoherent htext hfits hrange
  have ha := State.trainStart_agrees hcoherent
  have hd := State.trainStart_length hcoherent
  rw [← State.trainStart_syms] at hfits ⊢
  rw [← State.trainStart_total] at hrange ⊢
  obtain ⟨r, hr⟩ := trainBody_fits 0 ha hfits hrange
  obtain ⟨htotal, hsyms, hcount, hlen⟩ := trainBody_counts ha hd hr
  refine ⟨_, execTrain_of_loaded htext hr, rfl, rfl, rfl, htotal, hsyms, fun c => ?_, hlen⟩
  rw [← State.trainStart_count]
  exact hcount c

/-! ### A text in two pieces -/

/-- A TRAIN that newly sets DONE has completed its count (60_exceptions.md R302). -/
theorem exists_count_of_exec_train {s t : State} {acc : Bool} {text : List Word} (htext : s.textLoaded text)
    (hs : s.done = false) (h : exec (.train acc) s = .next t) (ht : t.done = true) :
    trainBody s.cfg.histDepth 0 (s.trainStart acc).1 (s.trainStart acc).2 text = .ok (t.hist, t.total) := by
  rcases exec_eq_next h with ⟨code, info, rfl⟩ | ⟨u, rfl, text', r, htext', hr, rfl⟩
  · exact absurd (hs.symm.trans ht) Bool.false_ne_true
  · obtain rfl : text = text' := by
      simpa using (State.textOperand_eq_ok_iff.2 htext).symm.trans (State.textOperand_eq_ok_iff.2 htext')
    exact hr

/-- Two counts, the second going on from the first, are the count of the two pieces as one text (R200). -/
theorem trainBody_append_ok {depth : Nat} {h : List HistEntry} {t : Word} {as bs : List Word}
    {r r' : List HistEntry × Word} (has : trainBody depth 0 h t as = .ok r) (hbs : trainBody depth 0 r.1 r.2 bs = .ok r') :
    trainBody depth 0 h t (as ++ bs) = .ok r' := by
  rw [trainBody_append, has, Except.okBind]
  exact trainBody_ok_index _ hbs

/-- The model a TRAIN starts from is a function of HIST and TOTAL. -/
theorem State.trainStart_congr {s t : State} (acc : Bool) (hhist : t.hist = s.hist) (htotal : t.total = s.total) :
    t.trainStart acc = s.trainStart acc := by
  rw [State.trainStart, State.trainStart, hhist, htotal]

/-- Settles O25: each piece's DONE shows its count, and the two counts are the count of the whole text. -/
theorem accumulatedPiecesEqualOneTrain : Obligations.AccumulatedPiecesEqualOneTrain := by
  intro acc s₁ s₂ s₃ t₁ t₂ as bs hcfg₂ hcfg₃ has hbs hwhole hhist₃ htotal₃ hhist₂ htotal₂ hdone₁ h₁ ht₁ hdone₂ h₂ ht₂
  have hfirst := exists_count_of_exec_train has hdone₁ h₁ ht₁
  have hsecond := exists_count_of_exec_train hbs hdone₂ h₂ ht₂
  rw [State.trainStart, if_pos rfl, hhist₂, htotal₂, hcfg₂] at hsecond
  have hcount := trainBody_append_ok hfirst hsecond
  rw [← State.trainStart_congr acc hhist₃ htotal₃, ← hcfg₃] at hcount
  exact ⟨_, execTrain_of_loaded hwhole hcount, rfl, rfl, rfl, rfl⟩

/-! ### The readout of a frequency -/

/-- An entry counts the whole total exactly when it is the only one (R204). -/
theorem count_eq_histSum_iff {h : List HistEntry} (h1 : ∀ e ∈ h, 1 ≤ e.count.toNat) {j : Nat} (hj : j < h.length) :
    h[j].count.toNat = histSum h ↔ h.length = 1 := by
  have hsplit : histSum h = h[j].count.toNat + histSum (h.eraseIdx j) := by
    have hperm := (List.getElem_cons_eraseIdx_perm hj).map fun e : HistEntry => e.count.toNat
    rw [← histSum_cons, histSum, histSum, hperm.sum_eq]
  have hrest : (h.eraseIdx j).length ≤ histSum (h.eraseIdx j) :=
    length_le_histSum fun e he => h1 e (List.mem_of_mem_eraseIdx he)
  rw [List.length_eraseIdx_of_lt hj] at hrest
  constructor
  · intro hall
    omega
  · intro hone
    have hnil : h.eraseIdx j = [] := by
      rw [← List.length_eq_zero_iff, List.length_eraseIdx_of_lt hj, hone]
    rw [hsplit, hnil]
    rfl

/-- A frequency of a count at most a positive total is 1.0 exactly when the count is the total (R204). -/
theorem mul_div_eq_one_iff {c t : Nat} (ht : 0 < t) (hc : c ≤ t) : c * 2 ^ 31 / t = 2 ^ 31 ↔ c = t := by
  constructor
  · intro h
    have hle := Nat.div_mul_le_self (c * 2 ^ 31) t
    rw [h] at hle
    omega
  · rintro rfl
    exact Nat.mul_div_cancel_left _ ht

/-- The words of a valid entry of HIST (10_state.md R63). -/
theorem State.histWord_of_lt {s : State} {j : Nat} (h : j < s.hist.length) :
    s.histWord j 0 = s.hist[j].sym ∧ s.histWord j 1 = s.hist[j].count ∧
      s.histWord j 2 = freqReadout s.hist[j].count s.total ∧ s.histWord j 3 = 0 := by
  simp [State.histWord, List.getElem?_eq_getElem h]

/-- A read of a word of HIST[j] while idle (10_state.md R63). -/
theorem State.busRead_hist {s : State} {j w : Nat} {a : BusAddr} (hcfg : s.cfg.wellFormed = true) (hidle : s.busy = false)
    (hj : j < s.cfg.histDepth) (hw : w < 4) (ha : a.toNat = 0x4000 + 16 * j + 4 * w) :
    s.busRead 4 a = .ok (s.histWord j w) := by
  have hloc : locate s.cfg a.toNat = some (.hist j w) := by rw [ha, locate_hist hcfg hj hw]
  rw [State.busRead_ok (by omega) hloc (by simp [hidle]), State.readLocation]

/-- Settles O27: the read reaches the entry's third word, whose count is at most the total. -/
theorem frequencyReadout : Obligations.FrequencyReadout := by
  intro s j hj a hcfg hcoherent hidle ha
  have htotal_pos : 0 < s.total.toNat := (Nat.zero_lt_of_lt hj).trans_le (State.hist_length_le_total hcoherent)
  obtain ⟨htotal, hpos, hdepth, -⟩ := hcoherent
  have hcount : s.hist[j].count.toNat ≤ s.total.toNat := htotal ▸ count_le_histSum (List.getElem_mem hj)
  have hread : s.busRead 4 a = .ok (freqReadout s.hist[j].count s.total) := by
    obtain ⟨-, -, hfreq, -⟩ := State.histWord_of_lt hj
    rw [State.busRead_hist hcfg hidle (hj.trans_le hdepth) (by decide : 2 < 4) ha, hfreq]
  refine ⟨_, hread, toNat_freqReadout hcount, ?_⟩
  rw [toNat_freqReadout hcount]
  refine ⟨Nat.div_le_of_le_mul (Nat.mul_le_mul_right _ hcount), ?_, ?_⟩
  · rw [mul_div_eq_one_iff htotal_pos hcount, htotal]
    exact count_eq_histSum_iff hpos hj
  · rw [Nat.div_eq_zero_iff, or_iff_right (Nat.ne_of_gt htotal_pos)]

/-! ### The frames of TRAIN, SEARCH and HACK -/

/-- Settles O37: an error entry leaves every result and DONE; a body changes its own results, and HACK's of the RAM
TEXT[0..LEN-1] alone. -/
theorem trainSearchHackFrame : Obligations.TrainSearchHackFrame := by
  refine ⟨fun acc s t h => ?_, fun s t h => ?_, fun s t h => ?_⟩
  · rcases exec_eq_next h with ⟨code, info, rfl⟩ | ⟨u, rfl, text, r, -, -, rfl⟩
    · exact ⟨rfl, .inr ⟨rfl, rfl, rfl, rfl⟩⟩
    · exact ⟨rfl, .inl ⟨rfl, rfl, rfl, rfl⟩⟩
  · rcases exec_eq_next h with ⟨code, info, rfl⟩ | ⟨u, rfl, ref, -, rfl⟩
    · exact ⟨rfl, .inr ⟨rfl, rfl, rfl, rfl, rfl⟩⟩
    · exact ⟨rfl, .inl ⟨rfl, rfl, rfl, rfl⟩⟩
  · rcases exec_eq_next h with ⟨code, info, rfl⟩ | ⟨u, rfl, hbody⟩
    · exact ⟨rfl, fun _ _ => rfl, .inr rfl⟩
    · have hbytes := fun a => commandBody_readByte (a := a) hbody
      obtain ⟨ref, text, r, -, -, -, rfl⟩ := hbody
      exact ⟨rfl, hbytes, .inl ⟨rfl, rfl, rfl, rfl⟩⟩

end Sys2Proof.Machine
end

section
/-! SUPPORT. HACK: with its operands loaded it counts, searches and decodes, as TRAIN, SEARCH and DECC do one after the other,
in one piece or two, and it finds the key of an exact model (42_keysearch.md R240 to R243). -/

namespace Sys2Proof.Machine

/-! ### Counting from the empty model -/

/-- Within HIST_DEPTH a loaded text is counted: LEN keeps the total in range. -/
theorem exists_count_of_textLoaded {s : State} {text : List Word} {depth : Nat} (htext : s.textLoaded text)
    (hfits : distinct text ≤ depth) : ∃ r, trainBody depth 0 [] 0 text = .ok r := by
  have hlt := State.textLoaded_length_lt htext
  refine trainBody_fits 0 modelAgrees_empty hfits ?_
  change 0 + text.length ≤ _
  omega

/-- A count from the empty model leaves a coherent one (41_train.md R201). -/
theorem State.histCoherent_of_count {s : State} {text : List Word} {r : List HistEntry × Word}
    (hr : trainBody s.cfg.histDepth 0 [] 0 text = .ok r) : State.histCoherent { s with hist := r.1, total := r.2 } := by
  obtain ⟨⟨htotal, hpos, hnodup⟩, hlen, -⟩ := trainBody_ok modelAgrees_empty (Nat.zero_le _) hr
  exact ⟨htotal, hpos, hlen, hnodup⟩

/-- What a count from the empty model holds (41_train.md R200). -/
theorem trainBody_counts_empty {depth : Nat} {text : List Word} {r : List HistEntry × Word}
    (hr : trainBody depth 0 [] 0 text = .ok r) :
    r.2.toNat = text.length ∧ r.1.map HistEntry.sym = firstOccurrences text ∧
      ∀ c, histCount r.1 c = text.count c := by
  obtain ⟨htotal, hsyms, hcount, -⟩ := trainBody_counts modelAgrees_empty (Nat.zero_le depth) hr
  exact ⟨htotal.trans (Nat.zero_add _), hsyms, fun c => (hcount c).trans (Nat.zero_add _)⟩

/-! ### HACK -/

/-- Settles O32: the text's count is coherent, so that the search over it is exact, and the decode is the Caesar cipher with
the key found. -/
theorem hackCountsSearchesAndDecodes : Obligations.HackCountsSearchesAndDecodes := by
  intro s ref text hcfg href htext hfits
  obtain ⟨r, hr⟩ := exists_count_of_textLoaded htext hfits
  obtain ⟨htotal, hsyms, hcount⟩ := trainBody_counts_empty hr
  have hsearch := State.searchKeys_holds_exactScore (s := { s with hist := r.1, total := r.2 }) hcfg
    (State.histCoherent_of_count hr) href
  simp only [htotal] at hsearch
  refine ⟨_, execHack_of_loaded href htext hr, rfl, rfl, rfl, ?_, rfl, htotal, hsyms, hcount, hsearch, fun i hi => ?_⟩
  · rw [State.finish_kcur, State.cipherText_kcur, transform_caesar]
    rfl
  · exact State.cipherText_caesar_ram _ .decode _ hi

/-- BEST_KEY as a CKEY word is read as the same number. -/
theorem signed32_setWidth (k : BitVec 5) : signed32 (k.setWidth 32) = (k.toNat : Int) := by
  have hlt := k.isLt
  have hword : (k.setWidth 32).toNat = k.toNat := BitVec.toNat_setWidth_of_le (by decide)
  rw [signed32, hword, if_pos (by omega)]

/-- What DECC with CKEY = BEST_KEY leaves, over a loaded text. -/
theorem exec_decc_bestKey {d : State} {text : List Word} {k : BitVec 5} (htext : d.textLoaded text)
    (hkey : d.ckey = k.setWidth 32) :
    exec .decc d = .next (d.cipherText .decode [(k.toNat : Int)] 0 text).finish := by
  rw [← signed32_setWidth, ← hkey]
  exact State.caesar_of_loaded htext .decode

/-- Settles O33: each of the three commands finds its operands as HACK did, and the key DECC reads is the one HACK uses. -/
theorem hackEqualsTrainSearchDecode : Obligations.HackEqualsTrainSearchDecode := by
  intro s ref text _ href htext hfits
  obtain ⟨r, hr⟩ := exists_count_of_textLoaded htext hfits
  exact ⟨_, _, _, execTrain_of_loaded htext hr, execSearch_of_loaded (ref := ref) href, exec_decc_bestKey htext rfl,
    execHack_of_loaded href htext hr⟩

/-! ### HACK in two pieces -/

/-- The count of a whole text is the count of its second piece from that of its first (41_train.md R200). -/
theorem exists_counts_of_append {depth : Nat} {as bs : List Word} {r : List HistEntry × Word}
    (hr : trainBody depth 0 [] 0 (as ++ bs) = .ok r) :
    ∃ r₁, trainBody depth 0 [] 0 as = .ok r₁ ∧ trainBody depth 0 r₁.1 r₁.2 bs = .ok r := by
  rw [trainBody_append] at hr
  obtain ⟨r₁, has, hbs⟩ := Except.bind_eq_ok hr
  exact ⟨r₁, has, trainBody_ok_index 0 hbs⟩

/-- TRAIN of the first piece and TRAIN with ACC = 1 of the second leave the count of the whole text (42_keysearch.md R242). -/
theorem hist_total_of_two_trains {depth : Nat} {s₁ s₂ t₁ t₂ : State} {as bs : List Word} {r : List HistEntry × Word}
    (hr : trainBody depth 0 [] 0 (as ++ bs) = .ok r) (hdepth₁ : s₁.cfg.histDepth = depth) (hdepth₂ : s₂.cfg.histDepth = depth)
    (has : s₁.textLoaded as) (hbs : s₂.textLoaded bs) (h₁ : exec (.train false) s₁ = .next t₁) (hhist : s₂.hist = t₁.hist)
    (htotal : s₂.total = t₁.total) (h₂ : exec (.train true) s₂ = .next t₂) : t₂.hist = r.1 ∧ t₂.total = r.2 := by
  obtain ⟨r₁, hr₁, hr₂⟩ := exists_counts_of_append hr
  rw [← hdepth₁] at hr₁
  obtain rfl : _ = t₁ := by simpa using (execTrain_of_loaded (acc := false) has hr₁).symm.trans h₁
  have hstart : s₂.trainStart true = r₁ := Prod.ext hhist htotal
  rw [← hdepth₂, ← hstart] at hr₂
  obtain rfl : _ = t₂ := by simpa using (execTrain_of_loaded hbs hr₂).symm.trans h₂
  exact ⟨rfl, rfl⟩

/-- Settles O34: the two TRAINs leave the count HACK makes, over which SEARCH records what HACK does; and a Caesar cipher
ends its first piece with the cursor where the second begins. -/
theorem chunkedHackEqualsOneHack : Obligations.ChunkedHackEqualsOneHack := by
  intro s₁ s₂ s₃ u t₁ t₂ ref as bs _ hcfg₁ hcfg₂ has hbs hwhole hfits href₃ href h₁ hhist₂ htotal₂ h₂ hhist₃ htotal₃
  obtain ⟨r, hr⟩ := exists_count_of_textLoaded hwhole hfits
  obtain ⟨hhist, htotal⟩ := hist_total_of_two_trains hr (congrArg Config.histDepth hcfg₁) (congrArg Config.histDepth hcfg₂)
    has hbs h₁ hhist₂ htotal₂ h₂
  rw [hhist] at hhist₃
  rw [htotal] at htotal₃
  have hkey : (s₃.searchKeys ref).bestKey = (State.searchKeys { u with hist := r.1, total := r.2 } ref).bestKey := by
    rw [State.searchKeys_bestKey, hhist₃, htotal₃]; rfl
  refine ⟨_, _, execSearch_of_loaded href₃, execHack_of_loaded href hwhole hr, rfl, rfl, hhist₃.symm, htotal₃.symm, ?_,
    hkey.symm, ?_, fun d₁ d₂ hd₁ hd₂ hckey₁ hckey₂ => ?_⟩
  · rw [State.finish_score, State.finish_score, State.searchKeys_score, hhist₃, htotal₃]; rfl
  · rw [State.finish_bestScore, State.finish_bestScore, State.searchKeys_bestScore, hhist₃, htotal₃]; rfl
  · rw [State.finish_bestKey, hkey] at hckey₁
    refine ⟨_, _, exec_decc_bestKey hd₁ hckey₁, exec_decc_bestKey hd₂ (hckey₂.trans hckey₁), fun i hi => ?_, fun i hi => ?_⟩
    · exact State.cipherText_append_ram_left _ d₁ .decode _ 0 bs hi
    · have hright := State.cipherText_append_ram_right
        (State.searchKeys { u with hist := r.1, total := r.2 } ref) d₂ .decode
        [((State.searchKeys { u with hist := r.1, total := r.2 } ref).bestKey.toNat : Int)] 0 as hi
      rw [transform_caesar _ _ as] at hright
      exact hright

/-! ### The key of an exact model -/

theorem mem_firstOccurrences {l : List Word} {c : Word} : c ∈ firstOccurrences l ↔ c ∈ l := by
  have h := toFinset_foldl_addNew l []
  rw [List.nil_append] at h
  rw [← List.mem_toFinset, ← List.mem_toFinset (l := l), ← h]
  rfl

theorem nodup_firstOccurrences (l : List Word) : (firstOccurrences l).Nodup := nodup_foldl_addNew l [] List.nodup_nil

/-- In a text's model each entry is a symbol of the text with its number of occurrences. -/
theorem mem_and_count_of_mem_hist {hist : List HistEntry} {text : List Word}
    (hsyms : hist.map HistEntry.sym = firstOccurrences text) (hcount : ∀ c, histCount hist c = text.count c)
    {e : HistEntry} (he : e ∈ hist) : e.sym ∈ text ∧ e.count.toNat = text.count e.sym := by
  have hnodup : (hist.map HistEntry.sym).Nodup := hsyms ▸ nodup_firstOccurrences text
  refine ⟨mem_firstOccurrences.1 ?_, ?_⟩
  · rw [← hsyms]
    exact List.mem_map_of_mem he
  · rw [← hcount, histCount_of_mem hnodup he]

/-- In the model of an encoded text each entry is the encoding of a plaintext symbol with its number of occurrences: the
cipher is injective. -/
theorem exists_plain_of_mem_hist {hist : List HistEntry} {plain : List Word} {d : Int}
    (hsyms : hist.map HistEntry.sym = firstOccurrences (plain.map (ciphered d)))
    (hcount : ∀ c, histCount hist c = (plain.map (ciphered d)).count c) {e : HistEntry} (he : e ∈ hist) :
    ciphered (-d) e.sym ∈ plain ∧ e.count.toNat = plain.count (ciphered (-d) e.sym) := by
  obtain ⟨hmem, hcount⟩ := mem_and_count_of_mem_hist hsyms hcount he
  obtain ⟨c, hc, hsym⟩ := List.mem_map.1 hmem
  rw [← hsym, List.count_map_of_injective _ _ (ciphered_injective d)] at hcount
  rw [← hsym, ciphered_neg_ciphered]
  exact ⟨hc, hcount⟩

/-- The distance of a frequency to its floored reference is less than the total (R243). -/
theorem natAbs_floor_le {total : Nat} (h : 0 < total) (c : Nat) :
    (((total : Int) * ((c * 2 ^ 31 / total : Nat) : Int)) - (c : Int) * 2 ^ 31).natAbs ≤ total := by
  have hmod := Nat.div_add_mod (c * 2 ^ 31) total
  have hlt := Nat.mod_lt (c * 2 ^ 31) h
  rw [← Nat.cast_mul]
  omega

section
variable {hist : List HistEntry} {ref : List RefEntry} {plain : List Word} {k : Nat}
  (hsyms : hist.map HistEntry.sym = firstOccurrences (plain.map (ciphered (k : Int))))
  (hcount : ∀ c, histCount hist c = (plain.map (ciphered (k : Int))).count c)
include hsyms hcount

/-- With the plaintext's exact frequencies as reference the key of the encoding scores 0 (R243). -/
theorem exactScore_eq_zero_of_exact (hexact : ∀ c ∈ plain, plain.length * referenceFrequency ref c = plain.count c * 2 ^ 31) :
    exactScore hist plain.length ref k = 0 := by
  refine List.sum_eq_zero fun x hx => ?_
  obtain ⟨e, he, rfl⟩ := List.mem_map.1 hx
  obtain ⟨hmem, hcount⟩ := exists_plain_of_mem_hist hsyms hcount he
  have hterm := hexact _ hmem
  rw [Int.natAbs_eq_zero, hcount]
  exact Int.sub_eq_zero_of_eq (by exact_mod_cast hterm)

/-- With floored reference frequencies the key of the encoding scores at most the total per entry (R243). -/
theorem exactScore_le_of_floored (hfloor : ∀ c ∈ plain, referenceFrequency ref c = plain.count c * 2 ^ 31 / plain.length) :
    exactScore hist plain.length ref k ≤ hist.length * plain.length := by
  have hterm : ∀ x ∈ hist.map fun e => (((plain.length : Int) * referenceFrequency ref (ciphered (-(k : Int)) e.sym) -
      (e.count.toNat : Int) * 2 ^ 31).natAbs), x ≤ plain.length := by
    intro x hx
    obtain ⟨e, he, rfl⟩ := List.mem_map.1 hx
    obtain ⟨hmem, hcount⟩ := exists_plain_of_mem_hist hsyms hcount he
    rw [hfloor _ hmem, hcount]
    exact natAbs_floor_le (List.length_pos_of_mem hmem) _
  have hsum := List.sum_le_card_nsmul _ _ hterm
  rwa [List.length_map, smul_eq_mul] at hsum

end

/-- Where a shift scores 0 the search ends with score 0, at that shift or a smaller one that scores 0 (R233). -/
theorem State.holdsSearchOf_zero {s : State} {S : Nat → Nat} (h : s.holdsSearchOf S) {k : Fin 26} (hzero : S k.val = 0) :
    s.score[k] = 0 ∧ s.bestScore = 0 ∧ s.bestKey.toNat ≤ k.val ∧
      ((∀ k' : Fin 26, k' < k → s.score[k'] ≠ 0) → s.bestKey.toNat = k.val) := by
  obtain ⟨hscore, hkey, hbest, hmin, hfirst⟩ := h
  have hbest_zero : S s.bestKey.toNat = 0 := Nat.eq_zero_of_le_zero (hzero ▸ hmin k.val k.isLt)
  have hle : s.bestKey.toNat ≤ k.val := by
    by_contra hlt
    have := hfirst k.val (Nat.lt_of_not_le hlt)
    omega
  refine ⟨BitVec.eq_of_toNat_eq ((hscore k).trans hzero), BitVec.eq_of_toNat_eq (hbest.trans hbest_zero), hle,
    fun hsmaller => ?_⟩
  by_contra hne
  exact hsmaller ⟨_, hkey⟩ (Fin.lt_def.2 (lt_of_le_of_ne hle hne)) (BitVec.eq_of_toNat_eq ((hscore _).trans hbest_zero))

/-- Settles O35: HACK records the exact scores of the encoded text's model; a score of 0 is a least one, and decoding with
the key of the encoding gives the plaintext. -/
theorem hackRecoversTheKeyOfAnExactModel : Obligations.HackRecoversTheKeyOfAnExactModel := by
  intro s ref plain k₀ hcfg href htext hfits
  obtain ⟨t, ht, -, -, -, -, -, htotal, hsyms, hcount, hsearch, hram⟩ :=
    hackCountsSearchesAndDecodes s ref _ hcfg href htext hfits
  rw [List.length_map] at htotal hsearch
  refine ⟨fun hexact => ⟨t, ht, ?_⟩, fun hfloor => ⟨t, ht, ?_⟩⟩
  · obtain ⟨hscore, hbest, hle, hfound⟩ :=
      State.holdsSearchOf_zero hsearch (exactScore_eq_zero_of_exact hsyms hcount hexact)
    refine ⟨hscore, hbest, hle, fun hsmaller => ⟨hfound hsmaller, fun i hi => ?_⟩⟩
    rw [hram i (by simpa using hi), hfound hsmaller, List.getElem_map, ciphered_neg_ciphered]
  · obtain ⟨hscore, -⟩ := hsearch
    rw [hscore, htotal]
    exact exactScore_le_of_floored hsyms hcount hfloor

end Sys2Proof.Machine
end

section
/-! SUPPORT. The bus: which transactions get an ERROR response, what STATUS, the operand registers, the arrays and the result
windows read and take, and what a transaction can change while a command is in flight (20_memory.md R94 to R105;
70_reset_and_hazards.md R350). -/

namespace Sys2Proof.Machine

/-! ### ERROR responses -/

section
variable {s : State} {bytes : Nat} {a : BusAddr} {allowed : Location → Bool} {addresses : List Nat}
  (hcfg : s.cfg.wellFormed = true)
  (hallowed : ∀ l, locate s.cfg a.toNat = some l → (allowed l = true ↔ a.toNat ∈ addresses))
include hcfg hallowed

/-- A transaction that the width, the alignment, the map or the busy rule forbids gets an ERROR response. -/
theorem State.target_forbidden (h : bytes ≠ 4 ∨ a.toNat % 4 ≠ 0 ∨ ¬mappedAddress s.cfg a.toNat ∨
    (s.busy = true ∧ a.toNat ∉ addresses)) : ∃ why, s.target bytes a allowed = .error (.busError why) := by
  cases ht : s.target bytes a allowed with
  | error f =>
    obtain ⟨why, rfl⟩ := State.target_eq_error ht
    exact ⟨why, rfl⟩
  | ok l =>
    obtain ⟨hwidth, haligned, hloc, hbusy⟩ := State.target_eq_ok ht
    have hmapped := (locate_isSome_iff hcfg a.toNat).1 (by rw [hloc]; rfl)
    rcases h with h | h | h | ⟨hb, h⟩
    · exact absurd hwidth h
    · exact absurd haligned h
    · exact absurd hmapped h
    · exact absurd ((hallowed l hloc).1 (hbusy hb)) h

/-- A transaction that none of them forbids reaches its location. -/
theorem State.target_permitted (haligned : a.toNat % 4 = 0) (hmapped : mappedAddress s.cfg a.toNat)
    (hbusy : s.busy = true → a.toNat ∈ addresses) :
    ∃ l, locate s.cfg a.toNat = some l ∧ s.target 4 a allowed = .ok l := by
  obtain ⟨l, hl⟩ := Option.isSome_iff_exists.1 ((locate_isSome_iff hcfg a.toNat).2 hmapped)
  exact ⟨l, hl, State.target_ok haligned hl fun hb => (hallowed l hl).2 (hbusy hb)⟩

end

/-- The value of a location is there, unless it is a RAM word not written since reset (U1). -/
theorem State.readLocation_cases (s : State) (l : Location) :
    (∃ v, s.readLocation l = .ok v) ∨
      ∃ w, l = .ram w ∧ s.ram w = none ∧ s.readLocation l = .error (.unwrittenRead w) := by
  cases l with
  | ram w =>
    cases h : s.ram w with
    | some v => exact .inl ⟨v, by rw [State.readLocation, h]⟩
    | none => exact .inr ⟨w, rfl, h, by rw [State.readLocation, h]⟩
  | _ => exact .inl ⟨_, rfl⟩

/-- Settles O40: a forbidden read does not reach a location; a permitted one reads its location's value, or finds a RAM word
unwritten. -/
theorem readsGetErrorExactlyWhenForbidden : Obligations.ReadsGetErrorExactlyWhenForbidden := by
  intro s bytes a rest hcfg hin
  have hallowed := fun l (hl : locate s.cfg a.toNat = some l) => readableWhileBusy_iff hl
  refine ⟨fun hforbidden => ?_, fun hwidth haligned hmapped hbusy => ?_⟩
  · obtain ⟨why, ht⟩ := State.target_forbidden hcfg hallowed hforbidden
    exact ⟨why, step_of_read_error hin (by rw [State.busRead, ht]; rfl)⟩
  · subst hwidth
    obtain ⟨l, hl, ht⟩ := State.target_permitted hcfg hallowed haligned hmapped hbusy
    have hread : s.busRead 4 a = s.readLocation l := by rw [State.busRead, ht]; rfl
    rcases s.readLocation_cases l with ⟨v, hv⟩ | ⟨w, rfl, hnone, herror⟩
    · exact .inl ⟨v, hread.trans hv, step_of_read_ok hin (hread.trans hv)⟩
    · obtain ⟨haddr, -⟩ := locate_ram hl
      exact .inr ⟨w, step_of_read_error hin (hread.trans herror), haddr haligned, hnone⟩

/-- Settles O41: a forbidden write does not reach a location; a permitted one takes effect and is OKAY. -/
theorem writesGetErrorExactlyWhenForbidden : Obligations.WritesGetErrorExactlyWhenForbidden := by
  intro s bytes a v rest hcfg hin
  have hallowed := fun l (hl : locate s.cfg a.toNat = some l) => writableWhileBusy_iff hl
  refine ⟨fun hforbidden => ?_, fun hwidth haligned hmapped hbusy => ?_⟩
  · obtain ⟨why, ht⟩ := State.target_forbidden (s := { s with inputs := rest }) hcfg hallowed hforbidden
    exact ⟨why, step_of_write_error hin (by rw [State.busWrite, ht]; rfl)⟩
  · subst hwidth
    obtain ⟨l, -, ht⟩ := State.target_permitted (s := { s with inputs := rest }) hcfg hallowed haligned hmapped hbusy
    refine ⟨_, step_of_write_ok hin (by rw [State.busWrite, ht]; rfl), ?_, ?_⟩
    · exact State.writeLocation_inputs _ v l
    · exact congrArg _ (State.writeLocation_responses _ v l)

/-! ### STATUS -/

/-- ERR_CODE stands in bits [15:8] of STATUS (10_state.md R36). -/
theorem State.statusWord_errCode (s : State) : s.statusWord.extractLsb' 8 8 = s.errCodeBits := by
  apply BitVec.eq_of_getLsbD_eq
  intro i hi
  rw [BitVec.getLsbD_extractLsb', State.statusWord_getLsbD, if_neg (by omega), if_neg (by omega), if_neg (by omega),
    if_pos (by omega), Nat.add_sub_cancel_left]
  simp [hi]

/-- A field of STATUS outside its defined bits reads 0 (10_state.md R36). -/
theorem State.statusWord_reserved (s : State) (lo n : Nat) (h : 3 ≤ lo ∧ lo + n ≤ 8 ∨ 16 ≤ lo) :
    s.statusWord.extractLsb' lo n = 0 := by
  apply BitVec.eq_of_getLsbD_eq
  intro i hi
  rw [BitVec.getLsbD_extractLsb', State.statusWord_getLsbD, if_neg (by omega), if_neg (by omega), if_neg (by omega),
    if_neg (by omega), Bool.and_false]
  exact BitVec.getLsbD_zero.symm

/-- Settles O45: STATUS and ERR_INFO may be read while BUSY = 1, and the fields are those of the status word. -/
theorem statusReadShowsItsFields : Obligations.StatusReadShowsItsFields := by
  refine ⟨fun s => ⟨s.statusWord, State.busRead_register (l := .status) rfl rfl fun _ => rfl, ?_, ?_, ?_,
    s.statusWord_reserved 3 5 (by omega), s.statusWord_reserved 16 16 (by omega), fun hnone => ?_, fun c hsome => ?_⟩,
    fun s => State.busRead_register (l := .errInfo) rfl rfl fun _ => rfl, by decide⟩
  · rw [State.statusWord_getLsbD, if_pos rfl]
  · rw [State.statusWord_getLsbD, if_neg (by decide), if_pos rfl]
  · rw [State.statusWord_getLsbD, if_neg (by decide), if_neg (by decide), if_pos rfl]
  · rw [State.statusWord_errCode, State.errCodeBits, hnone]
  · rw [State.statusWord_errCode, State.errCodeBits, hsome]

/-! ### The operand registers -/

/-- The low bits of a word, as a narrower register keeps them and the bus reads them back (10_state.md R49). -/
theorem toNat_setWidth_setWidth (v : Word) {n : Nat} (h : n ≤ 32) : ((v.setWidth n).setWidth 32).toNat = v.toNat % 2 ^ n := by
  rw [BitVec.toNat_setWidth_of_le h, BitVec.toNat_setWidth]

/-- Settles O48: each write is that of its register, whose read-back is the zero-extended value kept. -/
theorem operandRegisterReadWrite : Obligations.OperandRegisterReadWrite := by
  intro s v hidle
  have hlen : s.busWrite 4 0x00030 v = .ok { s with len := v.setWidth 17 } :=
    State.busWrite_register (l := .len) v rfl rfl (by simp [hidle])
  have hckey : s.busWrite 4 0x00034 v = .ok { s with ckey := v } :=
    State.busWrite_register (l := .ckey) v rfl rfl (by simp [hidle])
  have hkeyLen : s.busWrite 4 0x00038 v = .ok { s with keyLen := v.setWidth 11 } :=
    State.busWrite_register (l := .keyLen) v rfl rfl (by simp [hidle])
  have hkcur : s.busWrite 4 0x0003C v = .ok { s with kcur := v.setWidth 10 } :=
    State.busWrite_register (l := .kcur) v rfl rfl (by simp [hidle])
  have hrefLen : s.busWrite 4 0x00040 v = .ok { s with refLen := v.setWidth 11 } :=
    State.busWrite_register (l := .refLen) v rfl rfl (by simp [hidle])
  have hbusy {p : Prop} : s.busy = true → p := fun hb => absurd (hidle.symm.trans hb) Bool.false_ne_true
  refine ⟨⟨hlen, hckey, hkeyLen, hkcur, hrefLen⟩, fun a n h => ?_⟩
  simp only [List.mem_cons, Prod.mk.injEq, List.not_mem_nil, or_false] at h
  rcases h with ⟨rfl, rfl⟩ | ⟨rfl, rfl⟩ | ⟨rfl, rfl⟩ | ⟨rfl, rfl⟩ | ⟨rfl, rfl⟩
  · exact ⟨_, _, hlen, State.busRead_register (l := .len) rfl rfl hbusy, toNat_setWidth_setWidth v (by decide)⟩
  · exact ⟨_, _, hckey, State.busRead_register (l := .ckey) rfl rfl hbusy, (Nat.mod_eq_of_lt v.isLt).symm⟩
  · exact ⟨_, _, hkeyLen, State.busRead_register (l := .keyLen) rfl rfl hbusy, toNat_setWidth_setWidth v (by decide)⟩
  · exact ⟨_, _, hkcur, State.busRead_register (l := .kcur) rfl rfl hbusy, toNat_setWidth_setWidth v (by decide)⟩
  · exact ⟨_, _, hrefLen, State.busRead_register (l := .refLen) rfl rfl hbusy, toNat_setWidth_setWidth v (by decide)⟩

/-! ### TEXT, KEY and REF -/

/-- After the write of a RAM word a location's value is as before, unless it is the RAM word at the same address. -/
theorem State.readLocation_writeRam (s : State) (v : Word) (w : RamWord) {l : Location}
    (h : ∀ w', l = .ram w' → w'.addr ≠ w.addr) : (s.writeLocation v (.ram w)).readLocation l = s.readLocation l := by
  cases l with
  | ram w' =>
    have hne := h w' rfl
    have haligned := w.addr_mod
    have haligned' := w'.addr_mod
    have hram : (s.writeLocation v (.ram w)).ram w' = s.ram w' :=
      Memory.readWord_writeWord_of_disjoint s.mem v (by omega)
    rw [State.readLocation, State.readLocation, hram]
  | _ => rfl

/-- After the write of a RAM word a read of any other address answers as before. -/
theorem State.busRead_writeRam (s : State) (v : Word) {w : RamWord} {a b : BusAddr} (hw : w.addr = a.toNat) (hne : b ≠ a)
    (bytes : Nat) : (s.writeLocation v (.ram w)).busRead bytes b = s.busRead bytes b := by
  change (s.target bytes b _ >>= _) = (s.target bytes b _ >>= _)
  cases ht : s.target bytes b Location.readableWhileBusy with
  | error f => rfl
  | ok l =>
    obtain ⟨-, haligned, hl, -⟩ := State.target_eq_ok ht
    refine State.readLocation_writeRam s v w fun w' hl' heq => hne (BitVec.eq_of_toNat_eq ?_)
    subst hl'
    obtain ⟨haddr, -⟩ := locate_ram hl
    rw [← haddr haligned, heq, hw]

/-- Settles O49: the address is that of one RAM word, whose bytes are the only ones written. -/
theorem arrayReadAfterWrite : Obligations.ArrayReadAfterWrite := by
  intro s a v hcfg hidle haligned hram
  obtain ⟨w, hl, hw⟩ := locate_of_ramByte hcfg haligned hram
  have hread : (s.writeLocation v (.ram w)).busRead 4 a = (s.writeLocation v (.ram w)).readLocation (.ram w) :=
    State.busRead_ok haligned hl fun hb => absurd (hidle.symm.trans hb) Bool.false_ne_true
  have hvalue : (s.writeLocation v (.ram w)).ram w = some v := Memory.readWord_writeWord s.mem w.addr v
  rw [State.readLocation, hvalue] at hread
  refine ⟨_, State.busWrite_ok v haligned hl (by simp [hidle]), rfl, hread,
    fun bytes b hne => State.busRead_writeRam s v hw hne bytes, fun b hb => ?_⟩
  rw [← hw] at hb
  exact (Memory.readByte_writeWord s.mem w.addr b v).trans (if_neg (by omega))

/-! ### Read-only registers and windows -/

/-- The locations whose writes are ignored (10_state.md R49). -/
def Location.isReadOnly : Location → Bool
  | .cmd | .status | .irqEn | .len | .ckey | .keyLen | .kcur | .refLen | .ram _ => false
  | _ => true

/-- A write of a read-only location changes nothing. -/
theorem State.writeLocation_readOnly (s : State) (v : Word) {l : Location} (h : l.isReadOnly = true) :
    s.writeLocation v l = s := by
  cases l with
  | cmd => cases h
  | status => cases h
  | irqEn => cases h
  | len => cases h
  | ckey => cases h
  | keyLen => cases h
  | kcur => cases h
  | refLen => cases h
  | ram w => cases h
  | _ => rfl

theorem lookup_readOnlyRegister :
    ∀ a ∈ [0x00, 0x04, 0x08, 0x0C, 0x10, 0x14, 0x18, 0x2C, 0x44, 0x48, 0x4C, 0x50, 0x54, 0x58],
      ∃ l, registerMap.lookup a = some l ∧ l.isReadOnly = true := by
  simp only [← Option.any_eq_true]
  decide

/-- Every read-only address selects a read-only location. -/
theorem exists_locate_readOnly {c : Config} (hc : c.wellFormed = true) {a : Nat} (ha : a % 4 = 0) (h : readOnlyAddress c a) :
    ∃ l, locate c a = some l ∧ l.isReadOnly = true := by
  rcases h with h | ⟨hlow, hhigh⟩ | ⟨hlow, hhigh⟩
  · obtain ⟨l, hl, hro⟩ := lookup_readOnlyRegister a h
    exact ⟨l, locate_register c hl, hro⟩
  · have hl := locate_score (c := c) ⟨(a - 0x800) / 16, by omega⟩ (w := (a - 0x800) % 16 / 4) (by omega)
    have haddr : 0x800 + 16 * ((a - 0x800) / 16) + 4 * ((a - 0x800) % 16 / 4) = a := by omega
    rw [haddr] at hl
    exact ⟨_, hl, rfl⟩
  · have hl := locate_hist hc (j := (a - 0x4000) / 16) (w := (a - 0x4000) % 16 / 4) (by omega) (by omega)
    have haddr : 0x4000 + 16 * ((a - 0x4000) / 16) + 4 * ((a - 0x4000) % 16 / 4) = a := by omega
    rw [haddr] at hl
    exact ⟨_, hl, rfl⟩

/-- Settles O50: the write reaches a read-only location. -/
theorem readOnlyWritesAreIgnored : Obligations.ReadOnlyWritesAreIgnored := by
  intro s a v hcfg hidle haligned hro
  obtain ⟨l, hl, hro⟩ := exists_locate_readOnly hcfg haligned hro
  rw [State.busWrite_ok v haligned hl (by simp [hidle]), State.writeLocation_readOnly s v hro]

/-! ### The result registers and windows -/

/-- A read of a word of SCORE[k] while idle (10_state.md R64). -/
theorem State.busRead_score {s : State} (hidle : s.busy = false) (k : Fin 26) {w : Nat} {a : BusAddr} (hw : w < 4)
    (ha : a.toNat = 0x800 + 16 * k.val + 4 * w) : s.busRead 4 a = .ok (scoreWord s.score[k] w) := by
  have hloc : locate s.cfg a.toNat = some (.score k w) := by rw [ha, locate_score k hw]
  rw [State.busRead_ok (by omega) hloc (by simp [hidle]), State.readLocation]

/-- The address of word `w` of an entry, counted from the entry's own address (20_memory.md R93). -/
theorem toNat_entryWord {a : BusAddr} {b : Nat} (h : a.toNat = b) (hb : b < 0x10000) {w : Nat} (hw : w < 4) :
    (a + BitVec.ofNat 20 (4 * w)).toNat = b + 4 * w := by
  have hoff : (BitVec.ofNat 20 (4 * w)).toNat = 4 * w := by rw [BitVec.toNat_ofNat, Nat.mod_eq_of_lt (by omega)]
  rw [BitVec.toNat_add_of_lt (by omega), hoff, h]

/-- The four words of SCORE[k] make the score (10_state.md R64). -/
theorem State.busRead_score_words {s : State} (hidle : s.busy = false) (k : Fin 26) {a : BusAddr}
    (ha : a.toNat = 0x800 + 16 * k.val) :
    ∃ lo mid hi, s.busRead 4 a = .ok lo ∧ s.busRead 4 (a + 4) = .ok mid ∧ s.busRead 4 (a + 8) = .ok hi ∧
      s.busRead 4 (a + 12) = .ok 0 ∧ s.score[k].toNat = hi.toNat * 2 ^ 64 + mid.toNat * 2 ^ 32 + lo.toNat := by
  have hlt := k.isLt
  have hword {w : Nat} (hw : w < 4) : s.busRead 4 (a + BitVec.ofNat 20 (4 * w)) = .ok (scoreWord s.score[k] w) :=
    State.busRead_score hidle k hw (toNat_entryWord ha (by omega) hw)
  exact ⟨_, _, _, State.busRead_score hidle k (w := 0) (by decide) ha, hword (w := 1) (by decide),
    hword (w := 2) (by decide), hword (w := 3) (by decide), toNat_eq_scoreWords _⟩

/-- The four words of a valid entry of HIST (10_state.md R63). -/
theorem State.busRead_hist_words {s : State} (hcfg : s.cfg.wellFormed = true) (hidle : s.busy = false) {j : Nat}
    (hj : j < s.hist.length) (hd : j < s.cfg.histDepth) {a : BusAddr} (ha : a.toNat = 0x4000 + 16 * j) :
    s.busRead 4 a = .ok s.hist[j].sym ∧ s.busRead 4 (a + 4) = .ok s.hist[j].count ∧
      s.busRead 4 (a + 8) = .ok (freqReadout s.hist[j].count s.total) ∧ s.busRead 4 (a + 12) = .ok 0 := by
  obtain ⟨-, -, -, -, hlegal⟩ := Config.wellFormed_iff.1 hcfg
  have hword {w : Nat} (hw : w < 4) : s.busRead 4 (a + BitVec.ofNat 20 (4 * w)) = .ok (s.histWord j w) :=
    State.busRead_hist hcfg hidle hd hw (toNat_entryWord ha (by omega) hw)
  obtain ⟨hsym, hcount, hfreq, hzero⟩ := State.histWord_of_lt hj
  rw [← hfreq, ← hsym, ← hcount, ← hzero]
  exact ⟨State.busRead_hist hcfg hidle hd (w := 0) (by decide) ha, hword (w := 1) (by decide), hword (w := 2) (by decide),
    hword (w := 3) (by decide)⟩

/-- Settles O51: each register and window word is its location's value. -/
theorem resultWindowsReadTheResults : Obligations.ResultWindowsReadTheResults := by
  intro s hidle hcfg
  have hread {a : BusAddr} {l : Location} (hl : registerMap.lookup a.toNat = some l) (ha : a.toNat % 4 = 0) :
      s.busRead 4 a = s.readLocation l := State.busRead_register hl ha (by simp [hidle])
  refine ⟨hread (l := .total) rfl rfl, hread (l := .bestKey) rfl rfl, fun hlen => ?_,
    ⟨_, _, _, hread (l := .bestScoreLo) rfl rfl, hread (l := .bestScoreMid) rfl rfl, hread (l := .bestScoreHi) rfl rfl,
      toNat_eq_scoreWords _⟩,
    fun k a ha => State.busRead_score_words hidle k ha,
    fun j a hj hd ha => State.busRead_hist_words hcfg hidle hj hd ha, fun j w a hj hd hw ha => ?_⟩
  · obtain ⟨-, -, -, -, hlegal⟩ := Config.wellFormed_iff.1 hcfg
    exact ⟨_, hread (l := .histLen) rfl rfl, State.toNat_histLen (hlen.trans hlegal)⟩
  · rw [State.busRead_hist hcfg hidle hd hw ha, State.histWord, List.getElem?_eq_none hj]

/-! ### While a command is in flight -/

/-- The busy rule lets a host write two registers (R350). -/
theorem Location.eq_of_writableWhileBusy {l : Location} (h : l.writableWhileBusy = true) : l = .status ∨ l = .irqEn := by
  cases l with
  | status => exact .inl rfl
  | irqEn => exact .inr rfl
  | _ => cases h

/-- Settles O52: a read changes no register, and a write reaches STATUS or IRQ_EN. -/
theorem operandsHoldWhileBusy : Obligations.OperandsHoldWhileBusy := by
  intro s t i rest hbusy hin hengine hreset h
  rw [step_of_cons hin] at h
  cases i with
  | engine => exact absurd rfl hengine
  | reset => exact absurd rfl hreset
  | read bytes a =>
    obtain ⟨v, -, rfl⟩ := State.hostRead_eq_next h
    rfl
  | write bytes a v =>
    obtain ⟨l, hl, rfl⟩ := State.hostWrite_eq_next h
    obtain ⟨-, -, -, hallowed⟩ := State.target_eq_ok hl
    rcases Location.eq_of_writableWhileBusy (hallowed hbusy) with rfl | rfl
    · rw [State.writeLocation, State.writeStatus_eq]
    · rfl

end Sys2Proof.Machine
end
